-- ==== Sys2Proof/Word.lean ====
section
/-! DEFINITION. The plain value types of the engine: bytes, 32-bit words, node ids, bit sequences and the
notation of 00_scope.md rules R9 and R10 that fixes what they mean. -/

namespace Sys2Proof

/-- A byte (00_scope.md R5). -/
abbrev Byte := BitVec 8

/-- A 32-bit unsigned quantity: a host register, a count, a weight (00_scope.md R6). -/
abbrev Word := BitVec 32

/-- A node id: an index into NODE, 9 bits, `0 .. 510` (10_state.md R34). -/
abbrev NodeId := Fin 511

/-- A bit sequence, first bit on the left (00_scope.md R10). -/
abbrev Bits := List Bool

end Sys2Proof
end

