-- ==== Sys2Proof/Config.lean ====
section
/-! DEFINITION. What an implementation fixes (the OPEN parameters of 00_scope.md R7 and R8, and the fixed ones of
R5 and R6) and the free values: what the spec leaves unspecified (93_implementation_defined.md section 2). -/

namespace Sys2Proof.Config

/-- `NODE_CAP` (00_scope.md R5). -/
abbrev nodeCap : Nat := 511

/-- `MAX_DEPTH`: no leaf of a tree of at most 511 nodes is deeper (00_scope.md R5). -/
abbrev maxDepth : Nat := 255

/-- The OPEN parameters of 00_scope.md R7 and R8: the capacities of the two buffers, and where a platform places
the register window and the buffers (20_memory.md R69). A machine is built with one value of this record and no
step changes it (notes/assumptions/1.md). -/
structure Params where
  ibufCap  : Nat
  obufCap  : Nat
  regBase  : Nat
  ibufBase : Nat
  obufBase : Nat
  deriving DecidableEq, Repr

/-- The ranges 00_scope.md R7 gives: `1 <= IBUF_CAP <= 2^32 - 1` and `4 <= OBUF_CAP <= 2^32 - 1`. -/
abbrev Params.Legal (p : Params) : Prop :=
  1 ≤ p.ibufCap ∧ p.ibufCap ≤ 2 ^ 32 - 1 ∧ 4 ≤ p.obufCap ∧ p.obufCap ≤ 2 ^ 32 - 1

/-- The parameters of the one instance that `State.reset` describes. DESIGN CHOICE (notes/assumptions/1.md): the
spec leaves all five OPEN, and no statement rests on these values. -/
def params : Params :=
  { ibufCap := 65536, obufCap := 65536, regBase := 0, ibufBase := 0x10000000, obufBase := 0x20000000 }

/-- What byte `a` of IBUF holds after power-up until the host writes it: unspecified (10_state.md R49, U2). -/
opaque freeIbufByte : Nat → Byte

/-- What byte `a` of OBUF holds since its `e`-th loss of contents (power-up, an error, DONE above OUT_LEN, a reset
that interrupts a command) until it is written: unspecified (10_state.md R32, 60_exceptions.md R209, U1, U2). -/
opaque freeObufByte : Nat → Nat → Byte

/-- The value of the `n`-th draw for a host read that R234 (d) leaves unspecified (U3). -/
opaque freeWord : Nat → Word

/-- The `n`-th draw for a `value` field the spec gives no value (`value = -`, U13). -/
opaque freeValue : Nat → Byte

/-- The `n`-th draw for a count or a weight that does not fit 32 bits. DESIGN CHOICE (notes/assumptions/29.md):
00_scope.md R11 and 40_frequency_tree_code.md R109 only derive that none arises within a command, and the spec states
no result for one. -/
opaque freeSum : Nat → Word

/-- The `n`-th draw for a `left` field the spec gives no value (`left = -`, U13). DESIGN CHOICE
(notes/assumptions/8.md): a node id, so that 511, the one 9-bit value that is none, is never drawn. -/
opaque freeLeft : Nat → NodeId

/-- The `n`-th draw for a `right` field the spec gives no value (`right = -`, U13). DESIGN CHOICE, as for `left`
(notes/assumptions/8.md). -/
opaque freeRight : Nat → NodeId

end Sys2Proof.Config
end

