-- ==== Sys2Proof/Syntax.lean ====
section
/-! DEFINITION. The instructions: one constructor per row of spec/opcode_table.json (30_encoding.md R99). Three
encoded spaces (R80): the command words, the elements of the compressed stream, the internal operations. -/

namespace Sys2Proof

inductive Instr where
  -- Format CMD (R82): the 32-bit word written to CTRL.
  | nop
  | encode
  | decode
  -- Format STREAM (R85 to R91): an element of the compressed stream.
  /-- LEN: the symbol count `N`, 32 bits (R85). -/
  | len (n : Word)
  /-- TREE_LEAF: flag `1`, then the byte value (R86). -/
  | treeLeaf (v : Byte)
  /-- TREE_NODE: flag `0`; the two subtrees follow (R87). -/
  | treeNode
  /-- CODE: the code of one payload symbol, 1 to 255 bits (R90). -/
  | code (c : Bits)
  /-- PAD: 0 to 7 zero bits (R91). -/
  | pad (k : Nat)
  -- Format UOP (R97): an internal operation with the operands its caller passes.
  | count
  | pqInsert (i : NodeId)
  | pqExtractMin
  | build
  | derive
  | writeBit (b : Bool)
  | writeBits (s : Bits)
  | flush
  | readBit
  | readBits (k : Nat)
  | writeTree (i : NodeId)
  | readTree
  | walk
  deriving DecidableEq, Repr

end Sys2Proof
end

