-- ==== Sys2Proof/WellFormed.lean ====
section
/-! DEFINITION. Which instructions are well formed: the operand ranges the spec gives and the types of
Syntax.lean do not already enforce. -/

namespace Sys2Proof

/-- The operand ranges: a CODE has 1 to 255 bits (30_encoding.md R90), a PAD 0 to 7 (R91), READ_BITS reads at least
one bit (41_bitstream.md R130). -/
def Instr.wf : Instr → Bool
  | .code c => decide (1 ≤ c.length) && decide (c.length ≤ 255)
  | .pad k => decide (k ≤ 7)
  | .readBits k => decide (1 ≤ k)
  | .nop => true
  | .encode => true
  | .decode => true
  | .len _ => true
  | .treeLeaf _ => true
  | .treeNode => true
  | .count => true
  | .pqInsert _ => true
  | .pqExtractMin => true
  | .build => true
  | .derive => true
  | .writeBit _ => true
  | .writeBits _ => true
  | .flush => true
  | .readBit => true
  | .writeTree _ => true
  | .readTree => true
  | .walk => true

end Sys2Proof
end

