-- ==== Sys2Proof/Decode.lean ====
section
/-! DEFINITION. Bit sequences, trees, the decoder and the encoder. The three encoded spaces of 30_encoding.md R80
are decoded apart: a command word (R81 to R83), an element of the compressed stream at its place (R84 to R99), a
call of an internal operation (R97). Decoding is total and rejects by name. -/

namespace Sys2Proof

/-! ## Bit sequences (00_scope.md R10, 30_encoding.md R96) -/

/-- `bits_n(v)`: the `n` low bits of `v`, most significant first. -/
def bitsOf : Nat → Nat → Bits
  | 0, _ => []
  | n + 1, v => v.testBit n :: bitsOf n v

/-- Operand assembly (R96), from the value `v` of the bits already read: the first bit read is the most
significant. -/
def valueFrom : Nat → Bits → Nat
  | v, [] => v
  | v, b :: bs => valueFrom (2 * v + b.toNat) bs

/-- The unsigned value of a bit sequence, most significant bit first (R96). -/
def valueOf (bs : Bits) : Nat := valueFrom 0 bs

/-- `zeros(k)`. -/
def zeros (k : Nat) : Bits := List.replicate k false

/-- How many zero bits bring `n` bits to a byte boundary: `(8 - n mod 8) mod 8` (R91). -/
def padLength (n : Nat) : Nat := (8 - n % 8) % 8

/-- `pack`: within each byte the first bit of the sequence is bit 7 (R10). A last group of fewer than 8 bits is no
byte and is dropped: `pack` is defined only for a multiple of 8. -/
def pack : Bits → List Byte
  | b7 :: b6 :: b5 :: b4 :: b3 :: b2 :: b1 :: b0 :: rest =>
      BitVec.ofNat 8 (valueOf [b7, b6, b5, b4, b3, b2, b1, b0]) :: pack rest
  | _ => []

/-- `unpack`, the inverse of `pack` (R10). -/
def unpack (bytes : List Byte) : Bits := bytes.flatMap fun b => bitsOf 8 b.toNat

/-! ## Trees (00_scope.md R12) -/

/-- `Tree ::= Leaf(v) | Node(l, r)`. -/
inductive ByteTree where
  | leaf (v : Byte)
  | node (l r : ByteTree)
  deriving DecidableEq, Repr

/-- The number of leaves. -/
def ByteTree.leaves : ByteTree → Nat
  | .leaf _ => 1
  | .node l r => l.leaves + r.leaves

/-- The number of nodes, leaves included. -/
def ByteTree.size : ByteTree → Nat
  | .leaf _ => 1
  | .node l r => l.size + r.size + 1

/-- The depth of the deepest leaf. -/
def ByteTree.depth : ByteTree → Nat
  | .leaf _ => 0
  | .node l r => max l.depth r.depth + 1

/-- `ser` (42_tree_codec.md R141): the tree section of the stream, pre-order. -/
def ByteTree.ser : ByteTree → Bits
  | .leaf v => true :: bitsOf 8 v.toNat
  | .node l r => false :: (l.ser ++ r.ser)

/-- The elements of the tree section, in stream order (30_encoding.md R88). -/
def ByteTree.elements : ByteTree → List Instr
  | .leaf v => [.treeLeaf v]
  | .node l r => .treeNode :: (l.elements ++ r.elements)

/-- Follow bits to a leaf, `0` left and `1` right (44_decode.md R186): the leaf's value and the bits left over, or
none when the bits run out first. -/
def ByteTree.follow : ByteTree → Bits → Option (Byte × Bits)
  | .leaf v, bs => some (v, bs)
  | .node _ _, [] => none
  | .node l r, b :: bs => if b then r.follow bs else l.follow bs

/-- Read one CODE from a tree section's tree: as `follow`, but a tree that is a single leaf takes exactly one bit,
whose value is not examined (44_decode.md R187). -/
def ByteTree.readCode : ByteTree → Bits → Option (Byte × Bits)
  | .leaf _, [] => none
  | .leaf v, _ :: bs => some (v, bs)
  | .node l r, bs => (ByteTree.node l r).follow bs

/-- Read a tree from the first bit of a tree section by the grammar of R88, `used` node ids being allocated already;
none when the bits end inside the tree (R145) or a 512th node is needed (R146). The first argument bounds the depth
of the recursion and is never the reason of a failure when it is above `nodeCap - used`. -/
def readTreeBits : Nat → Nat → Bits → Option (ByteTree × Nat × Bits)
  | 0, _, _ => none
  | _ + 1, _, [] => none
  | depth + 1, used, flag :: bs =>
      if used = Config.nodeCap then none
      else if flag then
        if bs.length < 8 then none
        else some (.leaf (BitVec.ofNat 8 (valueOf (bs.take 8))), used + 1, bs.drop 8)
      else
        match readTreeBits depth (used + 1) bs with
        | none => none
        | some (l, used₁, bs₁) =>
          match readTreeBits depth used₁ bs₁ with
          | none => none
          | some (r, used₂, bs₂) => some (.node l r, used₂, bs₂)

/-- Read the whole tree section: from no allocated node (42_tree_codec.md R142). -/
def readTreeSection (bs : Bits) : Option (ByteTree × Bits) :=
  (readTreeBits (Config.nodeCap + 1) 0 bs).map fun p => (p.1, p.2.2)

/-! ## The decoder -/

/-- Why bits stand for no instruction. -/
inductive DecodeError where
  /-- A command word other than 0, 1 and 2 (R83). -/
  | reservedCommand
  /-- An operation identifier `0xD` to `0xF` (R97). -/
  | unusedOperation
  /-- The stream ends inside the LEN field (44_decode.md R182). -/
  | endInLen
  /-- The stream ends inside a tree element, or the tree needs more than 511 nodes (R145, R146). -/
  | endInTree
  /-- The stream ends inside a CODE (44_decode.md R190). -/
  | endInCode
  /-- What follows the last CODE is not 0 to 7 zero bits, so it is no PAD; the decoder never reads it (R193). -/
  | notPadding
  deriving DecidableEq, Repr

/-- R82, R83: the command word is compared whole. -/
def decodeCommand (w : Word) : Except DecodeError Instr :=
  if w = 0 then .ok .nop
  else if w = 1 then .ok .encode
  else if w = 2 then .ok .decode
  else .error .reservedCommand

/-- Where in the stream an element stands: elements are not told apart by their bits but by their place (R99). -/
inductive Place where
  /-- The first 32 bits. -/
  | len
  /-- Inside the tree section. -/
  | tree
  /-- After the tree section, while symbols remain: the codes are those of the tree `t`. -/
  | payload (t : ByteTree)
  /-- After the last CODE. -/
  | pad
  deriving DecidableEq, Repr

/-- The element at the front of `bs`, which stands at place `p`, and the bits after it (R85 to R91, R99). -/
def decodeElement (p : Place) (bs : Bits) : Except DecodeError (Instr × Bits) :=
  match p with
  | .len =>
      if bs.length < 32 then .error .endInLen
      else .ok (.len (BitVec.ofNat 32 (valueOf (bs.take 32))), bs.drop 32)
  | .tree =>
      match bs with
      | [] => .error .endInTree
      | false :: rest => .ok (.treeNode, rest)
      | true :: rest =>
          if rest.length < 8 then .error .endInTree
          else .ok (.treeLeaf (BitVec.ofNat 8 (valueOf (rest.take 8))), rest.drop 8)
  | .payload t =>
      match t.readCode bs with
      | none => .error .endInCode
      | some (_, rest) => .ok (.code (bs.take (bs.length - rest.length)), rest)
  | .pad =>
      if bs.length ≤ 7 ∧ bs = zeros bs.length then .ok (.pad bs.length, [])
      else .error .notPadding

/-- A call of an internal operation: its 4-bit identifier (R97) and, beside it, the operands the caller passes. The
identifier carries no operand bits and no wire carries a call (R80), so operands are data and not encoded bits
(notes/assumptions/9.md). READ_BITS' count is passed as the number of bits after the first. -/
structure UopCall where
  op   : BitVec 4
  node : NodeId := 0
  bit  : Bool := false
  bits : Bits := []
  more : Nat := 0
  deriving DecidableEq, Repr

/-- R97: the thirteen identifiers. -/
def decodeCall (c : UopCall) : Except DecodeError Instr :=
  match c.op.toNat with
  | 0 => .ok .count
  | 1 => .ok (.pqInsert c.node)
  | 2 => .ok .pqExtractMin
  | 3 => .ok .build
  | 4 => .ok .derive
  | 5 => .ok (.writeBit c.bit)
  | 6 => .ok (.writeBits c.bits)
  | 7 => .ok .flush
  | 8 => .ok .readBit
  | 9 => .ok (.readBits (c.more + 1))
  | 10 => .ok (.writeTree c.node)
  | 11 => .ok .readTree
  | 12 => .ok .walk
  | _ => .error .unusedOperation

/-- Decode `n` CODE elements of the tree `t`. -/
def decodeCodes (t : ByteTree) : Nat → Bits → Except DecodeError (List Instr × Bits)
  | 0, bs => .ok ([], bs)
  | n + 1, bs =>
      match decodeElement (.payload t) bs with
      | .error e => .error e
      | .ok (i, rest) =>
        match decodeCodes t n rest with
        | .error e => .error e
        | .ok (is, rest') => .ok (i :: is, rest')

/-- A whole stream as its elements, in order (R84, R99): LEN; when `N > 0` the tree section and `N` CODEs; and PAD
when what is left is padding. Bits the decoder never reads (R193) give no element. -/
def decodeStream (bytes : List Byte) : Except DecodeError (List Instr) :=
  match decodeElement .len (unpack bytes) with
  | .error e => .error e
  | .ok (lenElement, afterLen) =>
    let n := valueOf ((unpack bytes).take 32)
    let padding (rest : Bits) : List Instr :=
      match decodeElement .pad rest with
      | .ok (p, _) => [p]
      | .error _ => []
    if n = 0 then .ok (lenElement :: padding afterLen)
    else
      match readTreeSection afterLen with
      | none => .error .endInTree
      | some (t, payload) =>
        match decodeCodes t n payload with
        | .error e => .error e
        | .ok (codes, rest) => .ok (lenElement :: (t.elements ++ codes ++ padding rest))

/-! ## The encoder -/

/-- What an instruction is encoded as, one form for each space of R80. -/
inductive Encoded where
  | command (w : Word)
  | element (bs : Bits)
  | call (c : UopCall)
  deriving DecidableEq, Repr

/-- The encoding of an instruction (R82, R85 to R91, R97). -/
def encode : Instr → Encoded
  | .nop => .command 0
  | .encode => .command 1
  | .decode => .command 2
  | .len n => .element (bitsOf 32 n.toNat)
  | .treeLeaf v => .element (true :: bitsOf 8 v.toNat)
  | .treeNode => .element [false]
  | .code c => .element c
  | .pad k => .element (zeros k)
  | .count => .call { op := 0x0 }
  | .pqInsert i => .call { op := 0x1, node := i }
  | .pqExtractMin => .call { op := 0x2 }
  | .build => .call { op := 0x3 }
  | .derive => .call { op := 0x4 }
  | .writeBit b => .call { op := 0x5, bit := b }
  | .writeBits s => .call { op := 0x6, bits := s }
  | .flush => .call { op := 0x7 }
  | .readBit => .call { op := 0x8 }
  | .readBits k => .call { op := 0x9, more := k - 1 }
  | .writeTree i => .call { op := 0xA, node := i }
  | .readTree => .call { op := 0xB }
  | .walk => .call { op := 0xC }

/-- Decode what `encode` gives; an element is read at its place `p`. The bits after an element are left over. -/
def decode (p : Place) : Encoded → Except DecodeError (Instr × Bits)
  | .command w => (decodeCommand w).map fun i => (i, [])
  | .element bs => decodeElement p bs
  | .call c => (decodeCall c).map fun i => (i, [])

/-- The places at which an instruction can stand in a stream: LEN first, a tree element in the tree section, a CODE
only where it is a path of that stream's tree to a leaf, PAD last. The other two spaces have no place (R99). -/
def Place.Admits (p : Place) : Instr → Prop
  | .len _ => p = .len
  | .treeLeaf _ => p = .tree
  | .treeNode => p = .tree
  | .code c => ∃ t v, p = .payload t ∧ t.readCode c = some (v, [])
  | .pad _ => p = .pad
  | _ => True

/-- The number of bits of an instruction's encoding (R99): 32 for a command word, the element's own length for a
stream element, 4 for an operation identifier. -/
def Encoded.bitLength : Encoded → Nat
  | .command _ => 32
  | .element bs => bs.length
  | .call _ => 4

/-! ## A row of spec/opcode_table.json -/

/-- The call a 4-bit identifier stands for when no operand is given: every operand zero. -/
def tableCall (w : Nat) : UopCall := { op := BitVec.ofNat 4 w }

/-- The instruction of a table row whose `nbits` bits are `w` (notes/assumptions/19.md): 32 bits are a command word;
up to 8 bits are an operation identifier, its low four bits; 9 to 16 bits are the 9 bits of TREE_LEAF, the leftmost
character of the row's pattern being bit 8. -/
def decodeTableWord (nbits w : Nat) : Option Instr :=
  if nbits ≤ 8 then (decodeCall (tableCall w)).toOption
  else if nbits ≤ 16 then (decodeElement .tree (bitsOf 9 w)).toOption.map Prod.fst
  else if nbits = 32 then (decodeCommand (BitVec.ofNat 32 w)).toOption
  else none

end Sys2Proof
end

