-- ==== Sys2Proof/Machine/State.lean ====
section
/-! DEFINITION. The state of the engine (10_state.md), the pending inputs of its host, the reasons a step can stop
and the state after reset. Plain data throughout. -/

namespace Sys2Proof.Machine

/-! ## The parts of the state -/

/-- `STATUS.STATE` (10_state.md R23). -/
inductive RunState where
  | idle
  | busy
  | done
  | error
  deriving DecidableEq, Repr

/-- The error kinds (60_exceptions.md R201 to R207). -/
inductive ErrorKind where
  | emptyInput
  | corruptHeader
  | invariant
  | truncatedPayload
  | outputOverflow
  | illegalCmd
  | badLength
  deriving DecidableEq, Repr

/-- The host-visible registers that store something (R20). CTRL stores nothing and reads as 0 (R21). STATUS is its
two fields; its reserved bits read as 0 (R22), so no bit of it is stored beside them. -/
structure Regs where
  runState    : RunState
  err         : BitVec 4
  inLen       : Word
  outLen      : Word
  statOrig    : Word
  statComp    : Word
  statHdrBits : Word
  deriving DecidableEq, Repr

/-- A byte buffer (R31, R32): the bytes that have a known value, at strictly rising indices. A byte that is not
listed is unspecified (R49, R209) and reads as a free value (notes/assumptions/2.md). -/
abbrev Memory := List Host.Cell

/-- The sequencer's position (R44). -/
inductive Phase where
  | none
  | eCheck
  | eCount
  | eBuild
  | eDerive
  | eLen
  | eTree
  | ePayload
  | eFlush
  | dCheck
  | dLen
  | dTree
  | dPayload
  | xIllegal
  deriving DecidableEq, Repr

/-- An entry of NODE (R34). `left` and `right` hold node ids, so not the 9-bit value 511 that an unspecified field may have
(U13): DESIGN CHOICE (notes/assumptions/8.md). -/
structure NodeRec where
  leaf   : Bool
  value  : Byte
  left   : NodeId
  right  : NodeId
  weight : Word
  deriving DecidableEq, Repr

/-- NODE, NODE_CNT and ROOT (R34, R35). -/
structure Arena where
  node    : Vector NodeRec 511
  nodeCnt : Fin 512
  root    : NodeId
  deriving DecidableEq, Repr

/-- The bit writer (R40). `flushed` says that this session's FLUSH has been run: R124 lets one FLUSH end a session
and gives no meaning to a write after it. -/
structure Writer where
  wacc    : Byte
  wcnt    : Fin 8
  wptr    : Nat
  wbits   : Nat
  flushed : Bool
  deriving DecidableEq, Repr

/-- The bit reader (R41). -/
structure Reader where
  rcur  : Byte
  rcnt  : Fin 9
  rptr  : Nat
  rbits : Nat
  deriving DecidableEq, Repr

/-- The decoder (R43). -/
structure Decoder where
  symrem : Nat
  cur    : NodeId
  optr   : Nat
  deriving DecidableEq, Repr

/-- What an internal operation returned to its caller (40_frequency_tree_code.md R103, 41_bitstream.md R128 and
R130, 42_tree_codec.md R142, 44_decode.md R186). -/
inductive UopResult where
  /-- It returns nothing. -/
  | nothing
  /-- A node id: PQ_EXTRACT_MIN, READ_TREE. -/
  | node (i : NodeId)
  /-- A bit: READ_BIT. -/
  | bit (b : Bool)
  /-- End of stream: READ_BIT, READ_BITS. -/
  | eos
  /-- An unsigned value: READ_BITS. -/
  | value (v : Nat)
  /-- A byte value: WALK. -/
  | byte (v : Byte)
  deriving DecidableEq, Repr

/-! ## The host -/

/-- What the host can do (20_memory.md R60, R65, R66, R69; 70_reset_and_hazards.md R230; 30_encoding.md R98). A
register access names its width so that an access of another width can be refused (R65). -/
inductive HostAction where
  | reset
  | writeReg (num width : Nat) (v : Word)
  | readReg (num width : Nat)
  | writeIbuf (a : Nat) (v : Byte)
  | readIbuf (a : Nat)
  | writeObuf (a : Nat) (v : Byte)
  | readObuf (a : Nat)
  /-- An access at a system address (R69). -/
  | busWrite (addr width : Nat) (v : Word)
  | busRead (addr width : Nat)
  /-- Read STATUS until STATE is DONE or ERROR (R98). -/
  | wait
  deriving DecidableEq, Repr

/-- The kinds of place of an element in a stream (30_encoding.md R99); the tree of a payload is the machine's own. -/
inductive PlaceKind where
  | len
  | tree
  | payload
  | pad
  deriving DecidableEq, Repr

/-- Who moves in a step (00_scope.md R13): the host, the engine's sequencer, or, in a model that exposes them
(70_reset_and_hazards.md R235, 92_eei_decisions.md D33), a single internal operation or stream element. -/
inductive Turn where
  | host (a : HostAction)
  | engine
  | call (c : UopCall)
  | element (k : PlaceKind) (bs : Bits)
  deriving DecidableEq, Repr

/-- A value the host received. -/
inductive HostRead where
  | reg (num : Nat) (v : Word)
  | ibuf (a : Nat) (v : Byte)
  | obuf (a : Nat) (v : Byte)
  deriving DecidableEq, Repr

end Sys2Proof.Machine

namespace Sys2Proof.Machine

/-- The whole state. The fields from `result` on are the model's own: the value the last internal operation
returned, the counter of free values drawn, the counter of OBUF's losses of contents, the turns still to come, and
what the host has read, latest first. -/
structure State where
  params  : Config.Params
  regs    : Regs
  ibuf    : Memory
  obuf    : Memory
  phase   : Phase
  freq    : Vector Word 256
  arena   : Arena
  pq      : List NodeId
  code    : Vector Bits 256
  writer  : Writer
  reader  : Reader
  decoder : Decoder
  eidx    : Nat
  hdrBits : Nat
  result  : UopResult
  draws   : Nat
  epoch   : Nat
  script  : List Turn
  reads   : List HostRead
  deriving DecidableEq, Repr

/-! ## Why a step can stop -/

/-- Internal inconsistencies to which the spec gives no effect. No command reaches one: the spec derives that the
arena of a command is a tree (10_state.md R36), that BUILD extracts from a non-empty queue and fits the arena
(40_frequency_tree_code.md R103, R110) and that the engine reads IBUF only below its capacity (20_memory.md R66).
Only a call made alone, outside its precondition, does. All are safe. -/
inductive Fault where
  /-- DERIVE, WRITE_TREE, a CODE element: a node of the tree lies deeper than MAX_DEPTH, so the arena is no tree of
  R36. Safe. -/
  | arenaNotTree
  /-- PQ_EXTRACT_MIN on an empty queue (R103's precondition). Safe. -/
  | queueEmpty
  /-- BUILD would allocate a 512th node (R110 derives that it never does). Safe. -/
  | arenaFull
  /-- COUNT, READ_BIT or the payload phase would read IBUF at or above IBUF_CAP (R66). Safe. -/
  | ibufOutside
  deriving DecidableEq, Repr

/-- Accesses and calls the spec tells a model to refuse. All are safe. -/
inductive Refusal where
  /-- An instruction without a meaning; raised by `exec` alone. Safe. -/
  | notModelled (mnemonic : String)
  /-- A register access of a width other than 32 bits or of a part of a register (20_memory.md R65). Safe. -/
  | partialRegister
  /-- A host access of IBUF or OBUF at or above its capacity (R66). Safe. -/
  | bufferOutside
  /-- A host write to IBUF or OBUF while BUSY (R74, 70_reset_and_hazards.md R234 (e)). Safe. -/
  | bufferWriteWhileBusy
  /-- A system address in none of the three windows, or in more than one, or a buffer access of other than 8 bits
  (R69 gives such an access no meaning). Safe. -/
  | busUnmapped
  /-- WRITE_BIT after the session's FLUSH (41_bitstream.md R124, U6). Safe. -/
  | writeAfterFlush
  /-- A second FLUSH in one session (R124, R235, U6). Safe. -/
  | secondFlush
  /-- CODE with bits that go on after a leaf: more than one code (30_encoding.md R90). Safe. -/
  | notASymbol
  /-- A call by an identifier `0xD` to `0xF`, which names no operation (30_encoding.md R97). Safe. -/
  | unusedOperation
  deriving DecidableEq, Repr

/-! ## Reset -/

/-- An entry of NODE before anything has written it: unspecified (R49). DESIGN CHOICE (notes/assumptions/3.md): a
leaf of value 0. -/
def NodeRec.unwritten : NodeRec := { leaf := true, value := 0, left := 0, right := 0, weight := 0 }

/-- The machine with parameters `p` right after its first reset (R49, R230). The internal state is unspecified
there; its values here are DESIGN CHOICE (notes/assumptions/3.md). -/
def State.resetWith (p : Config.Params) : State where
  params := p
  regs :=
    { runState := .idle, err := 0, inLen := 0, outLen := 0, statOrig := 0, statComp := 0, statHdrBits := 0 }
  ibuf := []
  obuf := []
  phase := .none
  freq := Vector.replicate 256 0
  arena := { node := Vector.replicate 511 NodeRec.unwritten, nodeCnt := 0, root := 0 }
  pq := []
  code := Vector.replicate 256 []
  writer := { wacc := 0, wcnt := 0, wptr := 0, wbits := 0, flushed := false }
  reader := { rcur := 0, rcnt := 0, rptr := 0, rbits := 0 }
  decoder := { symrem := 0, cur := 0, optr := 0 }
  eidx := 0
  hdrBits := 0
  result := .nothing
  draws := 0
  epoch := 0
  script := []
  reads := []

/-- The machine of `Config.params` right after reset. -/
def State.reset : State := State.resetWith Config.params

end Sys2Proof.Machine
end

