-- ==== Sys2Proof/Machine/Flags.lean ====
section
/-! DEFINITION. The flags of the engine: `STATUS.STATE` and `STATUS.ERR`, its only flags (10_state.md R22 to R24,
R48), and the STATUS word they make. -/

namespace Sys2Proof.Machine

/-- The number of a STATE (R23). -/
def RunState.number : RunState → Nat
  | .idle => 0
  | .busy => 1
  | .done => 2
  | .error => 3

/-- The code of an error (60_exceptions.md R201 to R207). -/
def ErrorKind.errCode : ErrorKind → BitVec 4
  | .emptyInput => 1
  | .corruptHeader => 2
  | .invariant => 3
  | .truncatedPayload => 4
  | .outputOverflow => 5
  | .illegalCmd => 6
  | .badLength => 7

/-- STATUS as the host reads it: `STATE` in bits 1:0, `ERR` in bits 7:4, every other bit 0 (R22). -/
def Regs.status (r : Regs) : Word := BitVec.ofNat 32 (r.err.toNat * 16 + r.runState.number)

/-- `STATE = BUSY`. -/
def State.isBusy (s : State) : Bool := decide (s.regs.runState = .busy)

/-- STATE is DONE or ERROR: what WAIT waits for (30_encoding.md R98). -/
def State.hasCompleted (s : State) : Bool :=
  decide (s.regs.runState = .done) || decide (s.regs.runState = .error)

end Sys2Proof.Machine
end

