-- ==== Sys2Proof/Machine/Operands.lean ====
section
/-! DEFINITION. How the operations reach their operands: the byte in a buffer, the bit in a byte, the least member
of the priority queue, the tree of a node id, the register, buffer byte or system address a host access names. -/

namespace Sys2Proof.Machine

/-! ## Buffers (20_memory.md R60, R66) -/

/-- The canonical form of a buffer: strictly rising indices. An unlisted byte reads as no known value, so no entry
can equal what it reads as. -/
def Memory.wf : Memory → Bool
  | [] => true
  | [_] => true
  | (a, _) :: (b, v) :: rest => decide (a < b) && Memory.wf ((b, v) :: rest)

/-- The known value of byte `a`, none where it is unspecified. -/
def Memory.known : Memory → Nat → Option Byte
  | [], _ => none
  | (b, v) :: rest, a => if a = b then some v else Memory.known rest a

/-- Write byte `a`. -/
def Memory.write : Memory → Nat → Byte → Memory
  | [], a, v => [(a, v)]
  | (b, w) :: rest, a, v =>
      if a < b then (a, v) :: (b, w) :: rest
      else if a = b then (a, v) :: rest
      else (b, w) :: Memory.write rest a v

/-- Keep the bytes below `n`; the rest become unspecified. -/
def Memory.keepBelow (n : Nat) (m : Memory) : Memory := m.filter fun c => decide (c.1 < n)

/-- Byte `a` of IBUF: the value the host left there, or what power-up left (10_state.md R49). -/
def State.ibufByte (s : State) (a : Nat) : Byte := (s.ibuf.known a).getD (Config.freeIbufByte a)

/-- Byte `a` of OBUF (R32). -/
def State.obufByte (s : State) (a : Nat) : Byte := (s.obuf.known a).getD (Config.freeObufByte s.epoch a)

/-- The input of a command, `IBUF[0 .. IN_LEN-1]` (R25). -/
def State.input (s : State) : List Byte := (List.range s.regs.inLen.toNat).map s.ibufByte

/-- The first `n` bytes of OBUF; with `n = OUT_LEN` the result of a command (R26). -/
def State.output (s : State) (n : Nat) : List Byte := (List.range n).map s.obufByte

/-! ## Bits in a byte (20_memory.md R62) -/

/-- The accumulator with its bit `7 - k` set to `b`: bits fill a byte from bit 7 downward (41_bitstream.md R121). -/
def placeBit (acc : Byte) (k : Nat) (b : Bool) : Byte :=
  let m := BitVec.ofNat 8 (2 ^ (7 - k))
  if b then acc ||| m else acc &&& ~~~m

/-- The bits of `RCUR` not read yet, `RCUR[RCNT-1]` first (10_state.md R41). -/
def Reader.currentBits (r : Reader) : Bits := bitsOf r.rcnt.val r.rcur.toNat

/-- The bits the reader has still to return before EOS (R41, R42): those left of RCUR, then those of
`IBUF[RPTR .. IN_LEN-1]`. -/
def State.bitsAhead (s : State) : Bits := s.reader.currentBits ++ unpack (s.input.drop s.reader.rptr)

/-! ## Entries of the tables -/

/-- `FREQ[v]` (10_state.md R33). -/
def State.freqAt (s : State) (v : Byte) : Word := s.freq[v.toNat]'v.isLt

/-- `CODE[v]` (R39): its `len` bits; a list of length 0 says that `v` has no code. -/
def State.codeAt (s : State) (v : Byte) : Bits := s.code[v.toNat]'v.isLt

/-! ## The priority queue (40_frequency_tree_code.md R103) -/

/-- The order of extraction: the lesser (weight, node id) pair. -/
def Arena.precedes (t : Arena) (i j : NodeId) : Bool :=
  decide (t.node[i].weight < t.node[j].weight) ||
    (decide (t.node[i].weight = t.node[j].weight) && decide (i < j))

/-- The member of `m :: is` that precedes all others. -/
def Arena.least (t : Arena) : NodeId → List NodeId → NodeId
  | m, [] => m
  | m, i :: is => t.least (if t.precedes i m then i else m) is

/-- `PQ ∪ {i}`: the queue is a set, kept as a list with rising ids (10_state.md R38). -/
def queueInsert (i : NodeId) : List NodeId → List NodeId
  | [] => [i]
  | j :: js => if i < j then i :: j :: js else if i = j then j :: js else j :: queueInsert i js

/-! ## The tree of a node id (10_state.md R37) -/

/-- `TreeOf(i)`, looking at most `fuel` levels down; none when some path is longer. -/
def Arena.treeOf (t : Arena) : Nat → NodeId → Option ByteTree
  | 0, _ => none
  | fuel + 1, i =>
      if t.node[i].leaf then some (.leaf t.node[i].value)
      else
        match t.treeOf fuel t.node[i].left, t.treeOf fuel t.node[i].right with
        | some l, some r => some (.node l r)
        | _, _ => none

/-- `TreeOf(i)`; a tree of an arena of 511 nodes has at most 256 levels (00_scope.md R5), so none means that the
arena below `i` is no tree. -/
def Arena.tree (t : Arena) (i : NodeId) : Option ByteTree := t.treeOf (Config.maxDepth + 1) i

/-! ## Host addresses (20_memory.md R60, R69) -/

/-- Register `i` on a byte-addressed bus. -/
def regAddress (p : Config.Params) (i : Nat) : Nat := p.regBase + 4 * i

/-- IBUF byte `a` on a byte-addressed bus. -/
def ibufAddress (p : Config.Params) (a : Nat) : Nat := p.ibufBase + a

/-- OBUF byte `a` on a byte-addressed bus. -/
def obufAddress (p : Config.Params) (a : Nat) : Nat := p.obufBase + a

/-- What a system address names. -/
inductive BusTarget where
  | reg (i : Nat)
  | ibuf (a : Nat)
  | obuf (a : Nat)
  deriving DecidableEq, Repr

/-- The targets whose window holds the system address `x`: the seven registers, IBUF, OBUF. -/
def busTargets (p : Config.Params) (x : Nat) : List BusTarget :=
  (if p.regBase ≤ x ∧ x < regAddress p 7 then [.reg ((x - p.regBase) / 4)] else []) ++
  (if p.ibufBase ≤ x ∧ x < ibufAddress p p.ibufCap then [.ibuf (x - p.ibufBase)] else []) ++
  (if p.obufBase ≤ x ∧ x < obufAddress p p.obufCap then [.obuf (x - p.obufBase)] else [])

end Sys2Proof.Machine
end

