-- ==== Sys2Proof/Machine/Ops.lean ====
section
/-! DEFINITION. The shared operations: the four ways an internal operation can end, completion with an error (the
analogue of taking an exception, 60_exceptions.md R209) and without one (43_encode.md R171, 44_decode.md R192), the
start of a command, and the accesses to memory, arena and registers that the instructions share. -/

namespace Sys2Proof.Machine

/-! ## How an operation ends -/

/-- The end of an internal operation that returns an `α` (00_scope.md R11): it returns; it raises an error, which
ends the command; or the model stops. -/
inductive OpResult (α : Type) where
  | ok (a : α) (s : State)
  | raised (k : ErrorKind) (s : State)
  | stuck (f : Fault)
  | refused (r : Refusal)

/-- Run `f` after an operation that returned; nothing after a `raise` executes (R11, 60_exceptions.md R200). -/
def OpResult.bind {α β : Type} : OpResult α → (α → State → OpResult β) → OpResult β
  | .ok a s, f => f a s
  | .raised k s, _ => .raised k s
  | .stuck f, _ => .stuck f
  | .refused r, _ => .refused r

/-! ## Completion -/

/-- Completion with an error (60_exceptions.md R209), in one step. Every byte of OBUF becomes unspecified; internal
state is unobservable and is left as it stands. -/
def completeWithError (k : ErrorKind) (s : State) : State :=
  { s with
    regs := { s.regs with
      runState := .error, err := k.errCode, outLen := 0, statOrig := 0, statComp := 0, statHdrBits := 0 }
    phase := .none
    obuf := []
    epoch := s.epoch + 1 }

/-- Completion without an error, in one step: `n` bytes of OBUF are the result, those above are unspecified
(10_state.md R32). -/
def completeDone (n : Nat) (orig comp : Word) (s : State) : State :=
  { s with
    regs := { s.regs with
      runState := .done, err := 0, outLen := BitVec.ofNat 32 n, statOrig := orig, statComp := comp,
      statHdrBits := BitVec.ofNat 32 s.hdrBits }
    phase := .none
    obuf := s.obuf.keepBelow n
    epoch := s.epoch + 1 }

/-- 43_encode.md R171. -/
def completeEncode (s : State) : State :=
  completeDone s.writer.wptr s.regs.inLen (BitVec.ofNat 32 s.writer.wptr) s

/-- 44_decode.md R192. -/
def completeDecode (s : State) : State :=
  completeDone s.decoder.optr (BitVec.ofNat 32 s.decoder.optr) s.regs.inLen s

/-- What an instruction makes of its operation: the returned value goes to the caller (`toResult`), a `raise` ends
the command. -/
def OpResult.finish {α : Type} (toResult : α → UopResult) : OpResult α → Host.Outcome State Fault Refusal
  | .ok a s => .next { s with result := toResult a }
  | .raised k s => .next (completeWithError k s)
  | .stuck f => .fault f
  | .refused r => .refused r

/-! ## The start of a command -/

/-- 10_state.md R46: what a command start sets. ROOT, CUR, RCUR and the entries of NODE are not initialised. The
writer session is opened (41_bitstream.md R120), the reader session too (R127). -/
def clearInternal (s : State) : State :=
  { s with
    freq := Vector.replicate 256 0
    code := Vector.replicate 256 []
    arena := { s.arena with nodeCnt := 0 }
    pq := []
    writer := { wacc := 0, wcnt := 0, wptr := 0, wbits := 0, flushed := false }
    reader := { s.reader with rcnt := 0, rptr := 0, rbits := 0 }
    decoder := { s.decoder with symrem := 0, optr := 0 }
    eidx := 0
    hdrBits := 0 }

/-- `STATE <- BUSY`, `ERR <- 0`, `PHASE <- p`. -/
def enterPhase (p : Phase) (s : State) : State :=
  { s with regs := { s.regs with runState := .busy, err := 0 }, phase := p }

/-- The start of a command (43_encode.md R160, 44_decode.md R180). While BUSY a CTRL write has no effect
(30_encoding.md R82, 70_reset_and_hazards.md R234 (b)). -/
def startCommand (first : Phase) (s : State) : State :=
  if s.isBusy then s else enterPhase first (clearInternal s)

/-- A reserved command word (30_encoding.md R83): no operation starts. -/
def startIllegal (s : State) : State :=
  if s.isBusy then s else enterPhase .xIllegal s

/-! ## Memory -/

/-- `MemRead(IBUF, a, 1)`. The engine reads only below IBUF_CAP (20_memory.md R66). -/
def readIbuf (a : Nat) (s : State) : OpResult Byte :=
  if a < s.params.ibufCap then .ok (s.ibufByte a) s else .stuck .ibufOutside

/-- `MemWrite(OBUF, a, 1, v)`, after its capacity check (41_bitstream.md R122, 44_decode.md R188, R191). -/
def writeObuf (a : Nat) (v : Byte) (s : State) : OpResult Unit :=
  if s.params.obufCap ≤ a then .raised .outputOverflow s
  else .ok () { s with obuf := s.obuf.write a v }

/-! ## The arena -/

/-- Allocation takes the entry `NODE[NODE_CNT]` (10_state.md R35); `full` says what a 512th node does. -/
def allocate (full : OpResult NodeId) (s : State) : OpResult NodeId :=
  if h : s.arena.nodeCnt.val < 511 then
    .ok ⟨s.arena.nodeCnt.val, h⟩
      { s with arena := { s.arena with nodeCnt := ⟨s.arena.nodeCnt.val + 1, by omega⟩ } }
  else full

/-- `NODE[i] <- r`. -/
def setNode (i : NodeId) (r : NodeRec) (s : State) : State :=
  { s with arena := { s.arena with node := s.arena.node.set i.val r } }

/-- A leaf record with its `left` and `right` unspecified (`-`, U13): two free values. -/
def leafRecord (v : Byte) (weight : Word) (draw : Nat) : NodeRec :=
  { leaf := true, value := v, left := Config.freeLeft draw, right := Config.freeRight draw, weight := weight }

/-- An internal record with its `value` unspecified (`-`, U13): a free value. -/
def innerRecord (l r : NodeId) (weight : Word) (draw : Nat) : NodeRec :=
  { leaf := false, value := Config.freeValue draw, left := l, right := r, weight := weight }

/-- Write a leaf into entry `i`. -/
def writeLeaf (i : NodeId) (v : Byte) (weight : Word) (s : State) : State :=
  { setNode i (leafRecord v weight s.draws) s with draws := s.draws + 1 }

/-- Write an internal node into entry `i`. -/
def writeInner (i l r : NodeId) (weight : Word) (s : State) : State :=
  { setNode i (innerRecord l r weight s.draws) s with draws := s.draws + 1 }

/-! ## Counts and weights -/

/-- A count or a weight plus another (40_frequency_tree_code.md R100, R104). A sum that does not fit 32 bits, which no
command reaches (R109), is a free value, DESIGN CHOICE (notes/assumptions/29.md). -/
def addWeight (a b : Word) (s : State) : Word × State :=
  if a.toNat + b.toNat < 2 ^ 32 then (a + b, s)
  else (Config.freeSum s.draws, { s with draws := s.draws + 1 })

/-! ## Registers -/

/-- A host read that R234 (d) leaves unspecified: a free value. -/
def drawWord (s : State) : Word × State := (Config.freeWord s.draws, { s with draws := s.draws + 1 })

/-- The register a host read returns (10_state.md R20 to R30): CTRL reads as 0, numbers 7 and above do not exist and
read as 0. -/
def State.register (s : State) : Nat → Word
  | 1 => s.regs.status
  | 2 => s.regs.inLen
  | 3 => s.regs.outLen
  | 4 => s.regs.statOrig
  | 5 => s.regs.statComp
  | 6 => s.regs.statHdrBits
  | _ => 0

/-- A host write of IN_LEN: ignored while BUSY (R25, 70_reset_and_hazards.md R234 (b)). -/
def writeInLen (v : Word) (s : State) : State :=
  if s.isBusy then s else { s with regs := { s.regs with inLen := v } }

/-- Record what the host received. -/
def logRead (r : HostRead) (s : State) : State := { s with reads := r :: s.reads }

/-- Move to another phase. -/
def setPhase (p : Phase) (s : State) : State := { s with phase := p }

/-- RESET (70_reset_and_hazards.md R230, R231): the buffers and the internal tables are not written, but a reset that
interrupts a command leaves OBUF unspecified. -/
def resetAction (s : State) : State :=
  { s with
    regs :=
      { runState := .idle, err := 0, inLen := 0, outLen := 0, statOrig := 0, statComp := 0, statHdrBits := 0 }
    phase := .none
    obuf := if s.isBusy then [] else s.obuf
    epoch := if s.isBusy then s.epoch + 1 else s.epoch }

end Sys2Proof.Machine
end

