-- ==== Sys2Proof/Machine/Command.lean ====
section
/-! DEFINITION. The three command words (30_encoding.md R82) as a CTRL write runs them. ENCODE and DECODE start here
and the sequencer then runs their phases (Machine/Sequencer.lean), so that BUSY is a state a host can meet (00_scope.md
R14, notes/assumptions/6.md). -/

namespace Sys2Proof.Machine

/-- NOP: no effect on any state (R82). -/
def execNop (s : State) : Host.Outcome State Fault Refusal := .next s

/-- ENCODE: its start (43_encode.md R160). -/
def execEncode (s : State) : Host.Outcome State Fault Refusal := .next (startCommand .eCheck s)

/-- DECODE: its start (44_decode.md R180). -/
def execDecode (s : State) : Host.Outcome State Fault Refusal := .next (startCommand .dCheck s)

end Sys2Proof.Machine
end

