-- ==== Sys2Proof/Machine/Frequency.lean ====
section
/-! DEFINITION. COUNT, PQ_INSERT, PQ_EXTRACT_MIN, BUILD and DERIVE (40_frequency_tree_code.md). -/

namespace Sys2Proof.Machine

/-! ## COUNT (R100) -/

/-- `FREQ[b] <- c`. -/
def setFreq (b : Byte) (c : Word) (s : State) : State := { s with freq := s.freq.set b.toNat c b.isLt }

/-- `FREQ[b] <- FREQ[b] + 1`. -/
def bump (b : Byte) (s : State) : State :=
  setFreq b (addWeight (s.freqAt b) 1 s).1 (addWeight (s.freqAt b) 1 s).2

/-- The loop of COUNT with `n` bytes still to count. -/
def countLoop : Nat → State → OpResult Unit
  | 0, s => .ok () s
  | n + 1, s =>
      (readIbuf s.eidx s).bind fun b t =>
        countLoop n { bump b t with eidx := t.eidx + 1 }

/-- COUNT: one scan of `IBUF[0 .. IN_LEN-1]`. Run alone on a FREQ that is not all 0, it counts on from it (DESIGN CHOICE,
notes/assumptions/30.md). -/
def countBytes (s : State) : OpResult Unit := countLoop s.regs.inLen.toNat { s with eidx := 0 }

def execCount (s : State) : Host.Outcome State Fault Refusal :=
  (countBytes s).finish fun _ => .nothing

/-! ## The priority queue (R102, R103) -/

/-- PQ_INSERT: `PQ <- PQ ∪ {i}`. Run alone with an id that is not allocated or is a member already, or on a queue of
256, it does the same (DESIGN CHOICE, notes/assumptions/30.md). -/
def pqInsert (i : NodeId) (s : State) : State := { s with pq := queueInsert i s.pq }

def execPqInsert (i : NodeId) (s : State) : Host.Outcome State Fault Refusal :=
  .next { pqInsert i s with result := .nothing }

/-- PQ_EXTRACT_MIN: the member with the least (weight, node id) pair leaves the queue and is returned. -/
def pqExtractMin (s : State) : OpResult NodeId :=
  match s.pq with
  | [] => .stuck .queueEmpty
  | i :: is => .ok (s.arena.least i is) { s with pq := (i :: is).erase (s.arena.least i is) }

def execPqExtractMin (s : State) : Host.Outcome State Fault Refusal :=
  (pqExtractMin s).finish .node

/-! ## BUILD (R104) -/

/-- The byte values in ascending order. -/
def byteValues : List Byte := (List.range 256).map (BitVec.ofNat 8)

/-- Step 1 of BUILD over the byte values still to visit: a leaf for each value present. -/
def buildLeaves : List Byte → State → OpResult Unit
  | [], s => .ok () s
  | v :: vs, s =>
      if s.freqAt v = 0 then buildLeaves vs s
      else
        (allocate (.stuck .arenaFull) s).bind fun i t =>
          buildLeaves vs (pqInsert i (writeLeaf i v (t.freqAt v) t))

/-- One round of step 3: the two least nodes become the children of a new node, the first extracted on the left
(R106). -/
def mergeOnce (s : State) : OpResult Unit :=
  (pqExtractMin s).bind fun a s₁ =>
    (pqExtractMin s₁).bind fun b s₂ =>
      (allocate (.stuck .arenaFull) s₂).bind fun i t =>
        let w := addWeight t.arena.node[a].weight t.arena.node[b].weight t
        .ok () (pqInsert i (writeInner i a b w.1 w.2))

/-- Step 3 of BUILD. Every round takes one member off the queue, so as many rounds as it has members suffice. -/
def mergeLoop : Nat → State → OpResult Unit
  | 0, s => .ok () s
  | n + 1, s => if s.pq.length < 2 then .ok () s else (mergeOnce s).bind fun _ t => mergeLoop n t

/-- Steps 2 to 4 of BUILD. -/
def mergeAll (s : State) : OpResult Unit :=
  match s.pq with
  | [] => .raised .emptyInput s
  | _ :: _ =>
      (mergeLoop s.pq.length s).bind fun _ t =>
        match t.pq with
        | [] => .stuck .queueEmpty
        | r :: _ => .ok () { t with arena := { t.arena with root := r } }

/-- BUILD. Run alone with `NODE_CNT` not 0 or PQ not empty, it builds on what stands there (DESIGN CHOICE,
notes/assumptions/30.md). -/
def buildTree (s : State) : OpResult Unit := (buildLeaves byteValues s).bind fun _ t => mergeAll t

def execBuild (s : State) : Host.Outcome State Fault Refusal :=
  (buildTree s).finish fun _ => .nothing

/-! ## DERIVE (R111, R112) -/

/-- `CODE[v] <- {len = |path|, bits = path}`. -/
def setCode (v : Byte) (path : Bits) (s : State) : State :=
  { s with code := s.code.set v.toNat path v.isLt }

/-- VISIT, at most `levels` levels down: a path longer than MAX_DEPTH belongs to no tree of 10_state.md R36. -/
def visit : Nat → NodeId → Bits → State → OpResult Unit
  | 0, _, _, _ => .stuck .arenaNotTree
  | levels + 1, i, path, s =>
      if s.arena.node[i].leaf then .ok () (setCode s.arena.node[i].value path s)
      else
        (visit levels s.arena.node[i].left (path ++ [false]) s).bind fun _ t =>
          visit levels s.arena.node[i].right (path ++ [true]) t

/-- DERIVE: a root that is a leaf gets the one-bit code `0`. Run alone on a CODE that is not empty, it leaves the entries
of values outside the tree (DESIGN CHOICE, notes/assumptions/30.md). -/
def deriveCodes (s : State) : OpResult Unit :=
  if s.arena.node[s.arena.root].leaf then .ok () (setCode s.arena.node[s.arena.root].value [false] s)
  else visit (Config.maxDepth + 1) s.arena.root [] s

def execDerive (s : State) : Host.Outcome State Fault Refusal :=
  (deriveCodes s).finish fun _ => .nothing

end Sys2Proof.Machine
end

