-- ==== Sys2Proof/Machine/BitStream.lean ====
section
/-! DEFINITION. WRITE_BIT, WRITE_BITS and FLUSH, READ_BIT and READ_BITS (41_bitstream.md). -/

namespace Sys2Proof.Machine

/-! ## The writer -/

/-- EMIT (R122): the capacity check comes before the write. -/
def emit (v : Byte) (s : State) : OpResult Unit :=
  (writeObuf s.writer.wptr v s).bind fun _ t =>
    .ok () { t with writer := { t.writer with wptr := t.writer.wptr + 1 } }

/-- The accumulator is emptied. -/
def clearAcc (s : State) : State := { s with writer := { s.writer with wacc := 0, wcnt := 0 } }

/-- WRITE_BIT (R121). After FLUSH the spec gives it no meaning and a model refuses it (R124). One that raises
OUTPUT_OVERFLOW does not end the session (DESIGN CHOICE, notes/assumptions/32.md). -/
def writeBit (b : Bool) (s : State) : OpResult Unit :=
  if s.writer.flushed then .refused .writeAfterFlush
  else
    let acc := placeBit s.writer.wacc s.writer.wcnt.val b
    let s₁ := { s with writer := { s.writer with wacc := acc, wbits := s.writer.wbits + 1 } }
    if h : s.writer.wcnt.val < 7 then
      .ok () { s₁ with writer := { s₁.writer with wcnt := ⟨s.writer.wcnt.val + 1, by omega⟩ } }
    else (emit acc s₁).bind fun _ t => .ok () (clearAcc t)

def execWriteBit (b : Bool) (s : State) : Host.Outcome State Fault Refusal :=
  (writeBit b s).finish fun _ => .nothing

/-- WRITE_BITS (R125). -/
def writeBits : Bits → State → OpResult Unit
  | [], s => .ok () s
  | b :: bs, s => (writeBit b s).bind fun _ t => writeBits bs t

def execWriteBits (bs : Bits) (s : State) : Host.Outcome State Fault Refusal :=
  (writeBits bs s).finish fun _ => .nothing

/-- The session has had its FLUSH (R124). -/
def endSession (s : State) : State := { s with writer := { s.writer with flushed := true } }

/-- FLUSH (R123). It ends the session, also where it raises OUTPUT_OVERFLOW: a session is `WRITE_BIT* FLUSH` and
anything else, a second FLUSH among it, is refused (R124, R235). -/
def flush (s : State) : OpResult Unit :=
  if s.writer.flushed then .refused .secondFlush
  else if s.writer.wcnt.val = 0 then .ok () (endSession s)
  else (emit s.writer.wacc (endSession s)).bind fun _ t => .ok () (clearAcc t)

def execFlush (s : State) : Host.Outcome State Fault Refusal :=
  (flush s).finish fun _ => .nothing

/-! ## The reader -/

/-- The last three lines of READ_BIT (R128): the next bit of RCUR; none when it has none left. -/
def takeBit (s : State) : Option Bool × State :=
  if s.reader.rcnt.val = 0 then (none, s)
  else
    (some (s.reader.rcur.getLsbD (s.reader.rcnt.val - 1)),
      { s with reader := { s.reader with
          rcnt := ⟨s.reader.rcnt.val - 1, by omega⟩, rbits := s.reader.rbits + 1 } })

/-- READ_BIT (R128): a bit, or none for EOS. -/
def readBit (s : State) : OpResult (Option Bool) :=
  if s.reader.rcnt.val = 0 then
    if s.regs.inLen.toNat ≤ s.reader.rptr then .ok none s
    else
      (readIbuf s.reader.rptr s).bind fun b t =>
        let p := takeBit { t with reader := { t.reader with rcur := b, rptr := t.reader.rptr + 1, rcnt := 8 } }
        .ok p.1 p.2
  else
    let p := takeBit s
    .ok p.1 p.2

def execReadBit (s : State) : Host.Outcome State Fault Refusal :=
  (readBit s).finish fun
    | none => .eos
    | some b => .bit b

/-- The loop of READ_BITS with `k` bits still to read and the value `v` so far. -/
def readBitsLoop : Nat → Nat → State → OpResult (Option Nat)
  | 0, v, s => .ok (some v) s
  | k + 1, v, s =>
      (readBit s).bind fun b t =>
        match b with
        | none => .ok none t
        | some b => readBitsLoop k (2 * v + b.toNat) t

/-- READ_BITS (R130): the unsigned value of the next `k` bits, first bit most significant, or none for EOS. -/
def readBits (k : Nat) (s : State) : OpResult (Option Nat) := readBitsLoop k 0 s

def execReadBits (k : Nat) (s : State) : Host.Outcome State Fault Refusal :=
  (readBits k s).finish fun
    | none => .eos
    | some v => .value v

end Sys2Proof.Machine
end

