-- ==== Sys2Proof/Machine/Payload.lean ====
section
/-! DEFINITION. WALK (44_decode.md R186, R187), the emission of a decoded byte (R185, R188, R191), and the elements
of the stream outside the tree section: LEN, CODE and PAD, as DECODE takes them. -/

namespace Sys2Proof.Machine

/-- `CUR <- i`. -/
def setCur (i : NodeId) (s : State) : State := { s with decoder := { s.decoder with cur := i } }

/-- The loop of WALK from the node CUR. Every round reads a bit, so one more round than there are bits left
suffices: the last one finds EOS. -/
def walkLoop : Nat → State → OpResult Byte
  | 0, s => .raised .truncatedPayload s
  | rounds + 1, s =>
      if s.arena.node[s.decoder.cur].leaf then .ok s.arena.node[s.decoder.cur].value s
      else
        (readBit s).bind fun b t =>
          match b with
          | none => .raised .truncatedPayload t
          | some b =>
            walkLoop rounds
              (setCur (if b then t.arena.node[t.decoder.cur].right else t.arena.node[t.decoder.cur].left) t)

/-- An upper bound on the bits the reader can still return. -/
def State.bitsLeft (s : State) : Nat := s.reader.rcnt.val + 8 * (s.regs.inLen.toNat - s.reader.rptr)

/-- WALK: from ROOT to a leaf; a root that is a leaf takes one bit, not examined. -/
def walk (s : State) : OpResult Byte :=
  if s.arena.node[s.arena.root].leaf then
    (readBit (setCur s.arena.root s)).bind fun b t =>
      match b with
      | none => .raised .truncatedPayload t
      | some _ => .ok t.arena.node[t.decoder.cur].value t
  else walkLoop (s.bitsLeft + 1) (setCur s.arena.root s)

def execWalk (s : State) : Host.Outcome State Fault Refusal :=
  (walk s).finish .byte

/-- Emit a decoded byte: the capacity check, the write, `OPTR` and `SYMREM` (R185). -/
def emitSymbol (v : Byte) (s : State) : OpResult Unit :=
  (writeObuf s.decoder.optr v s).bind fun _ t =>
    .ok () { t with decoder := { t.decoder with optr := t.decoder.optr + 1, symrem := t.decoder.symrem - 1 } }

/-- The element LEN (30_encoding.md R85): DECODE loads it into SYMREM (R182). -/
def execLen (n : Word) (s : State) : Host.Outcome State Fault Refusal :=
  .next { s with decoder := { s.decoder with symrem := n.toNat } }

/-- The element CODE (30_encoding.md R90): DECODE emits the value of the leaf it leads to. After the last symbol DECODE
takes no element (R185, R189, R193), so there it has no effect (notes/assumptions/26.md); bits that end before a leaf are
TRUNCATED_PAYLOAD (R190); bits that go on after a leaf are more than one CODE (notes/assumptions/27.md). -/
def execCode (c : Bits) (s : State) : Host.Outcome State Fault Refusal :=
  if s.decoder.symrem = 0 then .next s
  else
    match s.arena.tree s.arena.root with
    | none => .fault .arenaNotTree
    | some t =>
      match t.readCode c with
      | some (v, []) => (emitSymbol v s).finish fun _ => .nothing
      | some (_, _ :: _) => .refused .notASymbol
      | none => .next (completeWithError .truncatedPayload s)

/-- The element PAD (30_encoding.md R91): DECODE never reads it and never checks it (R189, R193), so it has no
effect. FLUSH writes it (41_bitstream.md R123). -/
def execPad (_k : Nat) (s : State) : Host.Outcome State Fault Refusal := .next s

end Sys2Proof.Machine
end

