-- ==== Sys2Proof/Machine/TreeCodec.lean ====
section
/-! DEFINITION. WRITE_TREE and READ_TREE (42_tree_codec.md) and the two elements of the tree section. -/

namespace Sys2Proof.Machine

/-- WRITE_TREE (R140), at most `levels` levels down: the recursion depth is at most MAX_DEPTH, and a longer path
belongs to no tree of 10_state.md R36. -/
def writeTreeLevels : Nat → NodeId → State → OpResult Unit
  | 0, _, _ => .stuck .arenaNotTree
  | levels + 1, i, s =>
      if s.arena.node[i].leaf then
        (writeBit true s).bind fun _ t => writeBits (bitsOf 8 s.arena.node[i].value.toNat) t
      else
        (writeBit false s).bind fun _ t =>
          (writeTreeLevels levels s.arena.node[i].left t).bind fun _ u =>
            writeTreeLevels levels s.arena.node[i].right u

def writeTree (i : NodeId) (s : State) : OpResult Unit := writeTreeLevels (Config.maxDepth + 1) i s

def execWriteTree (i : NodeId) (s : State) : Host.Outcome State Fault Refusal :=
  (writeTree i s).finish fun _ => .nothing

/-- A node id for an element of the tree section: a 512th node is CORRUPT_HEADER (R146). -/
def allocateRead (s : State) : OpResult NodeId := allocate (.raised .corruptHeader s) s

/-- READ_TREE leaves the weight of entry `i` unwritten (R144). -/
def readLeaf (i : NodeId) (v : Byte) (s : State) : State := writeLeaf i v s.arena.node[i].weight s

/-- As `readLeaf`, for an internal node. -/
def readInner (i l r : NodeId) (s : State) : State := writeInner i l r s.arena.node[i].weight s

/-- READ_TREE (R142). Every level of the recursion has allocated a node of its own, so `NODE_CAP + 1` levels are
never used up: the last one that can be entered finds the arena full. Run alone with `NODE_CNT` not 0, it allocates from
there (DESIGN CHOICE, notes/assumptions/30.md). -/
def readTreeLevels : Nat → State → OpResult NodeId
  | 0, s => .raised .corruptHeader s
  | levels + 1, s =>
      (readBit s).bind fun flag s₁ =>
        match flag with
        | none => .raised .corruptHeader s₁
        | some f =>
          (allocateRead s₁).bind fun i s₂ =>
            if f then
              (readBits 8 s₂).bind fun v s₃ =>
                match v with
                | none => .raised .corruptHeader s₃
                | some v => .ok i (readLeaf i (BitVec.ofNat 8 v) s₃)
            else
              (readTreeLevels levels s₂).bind fun l s₃ =>
                (readTreeLevels levels s₃).bind fun r s₄ => .ok i (readInner i l r s₄)

def readTree (s : State) : OpResult NodeId := readTreeLevels (Config.nodeCap + 1) s

def execReadTree (s : State) : Host.Outcome State Fault Refusal :=
  (readTree s).finish .node

/-- The element TREE_LEAF, its nine bits read (30_encoding.md R86): READ_TREE's leaf branch. -/
def execTreeLeaf (v : Byte) (s : State) : Host.Outcome State Fault Refusal :=
  ((allocateRead s).bind fun i t => .ok i (readLeaf i v t)).finish .node

/-- The element TREE_NODE, its flag read (R87): READ_TREE's other branch, the two subtrees read from the bits that
follow. -/
def execTreeNode (s : State) : Host.Outcome State Fault Refusal :=
  ((allocateRead s).bind fun i s₁ =>
    (readTree s₁).bind fun l s₂ =>
      (readTree s₂).bind fun r s₃ => .ok i (readInner i l r s₃)).finish .node

end Sys2Proof.Machine
end

