-- ==== Sys2Proof/Machine/Dispatch.lean ====
section
/-! DEFINITION. The meaning of every instruction, one arm a constructor. -/

namespace Sys2Proof.Machine

def exec (i : Instr) (s : State) : Host.Outcome State Fault Refusal :=
  match i with
  -- Format CMD
  | .nop => Sys2Proof.Machine.execNop s
  | .encode => Sys2Proof.Machine.execEncode s
  | .decode => Sys2Proof.Machine.execDecode s
  -- Format STREAM
  | .len n => Sys2Proof.Machine.execLen n s
  | .treeLeaf v => Sys2Proof.Machine.execTreeLeaf v s
  | .treeNode => Sys2Proof.Machine.execTreeNode s
  | .code c => Sys2Proof.Machine.execCode c s
  | .pad k => Sys2Proof.Machine.execPad k s
  -- Format UOP
  | .count => Sys2Proof.Machine.execCount s
  | .pqInsert j => Sys2Proof.Machine.execPqInsert j s
  | .pqExtractMin => Sys2Proof.Machine.execPqExtractMin s
  | .build => Sys2Proof.Machine.execBuild s
  | .derive => Sys2Proof.Machine.execDerive s
  | .writeBit b => Sys2Proof.Machine.execWriteBit b s
  | .writeBits bs => Sys2Proof.Machine.execWriteBits bs s
  | .flush => Sys2Proof.Machine.execFlush s
  | .readBit => Sys2Proof.Machine.execReadBit s
  | .readBits k => Sys2Proof.Machine.execReadBits k s
  | .writeTree j => Sys2Proof.Machine.execWriteTree j s
  | .readTree => Sys2Proof.Machine.execReadTree s
  | .walk => Sys2Proof.Machine.execWalk s

end Sys2Proof.Machine
end

