-- ==== Sys2Proof/Machine/Sequencer.lean ====
section
/-! DEFINITION. The sequencer: what one turn of the engine does at each PHASE (10_state.md R44, 43_encode.md R164,
44_decode.md R181). A phase that calls an internal operation runs `exec` of that operation and then moves on; a
`raise` in it has completed the command, and nothing follows (60_exceptions.md R200). -/

namespace Sys2Proof.Machine

/-- Go on with `f` after an operation called by a phase, unless it ended the command: a completion leaves PHASE at
NONE. -/
def andThen (o : Host.Outcome State Fault Refusal) (f : State → Host.Outcome State Fault Refusal) :
    Host.Outcome State Fault Refusal :=
  match o with
  | .next s => if s.phase = .none then .next s else f s
  | .fault e => .fault e
  | .refused r => .refused r

/-- Go on to the phase `p`. -/
def thenPhase (o : Host.Outcome State Fault Refusal) (p : Phase) : Host.Outcome State Fault Refusal :=
  andThen o fun s => .next (setPhase p s)

/-! ## ENCODE -/

/-- E_CHECK (43_encode.md R162, R163): the length, and the empty-input path. -/
def phaseECheck (s : State) : Host.Outcome State Fault Refusal :=
  if s.params.ibufCap < s.regs.inLen.toNat then .next (completeWithError .badLength s)
  else if s.regs.inLen = 0 then .next (setPhase .eLen s)
  else .next (setPhase .eCount s)

/-- E_LEN (R166): the LEN field; the empty-input path goes on to E_FLUSH (R163). -/
def phaseELen (s : State) : Host.Outcome State Fault Refusal :=
  thenPhase (exec (.writeBits (bitsOf 32 s.regs.inLen.toNat)) s) (if s.regs.inLen = 0 then .eFlush else .eTree)

/-- E_TREE (R167): the tree section; the number of its bits is remembered for STAT_HDR_BITS. -/
def phaseETree (s : State) : Host.Outcome State Fault Refusal :=
  andThen (exec (.writeTree s.arena.root) s) fun t =>
    .next { t with hdrBits := t.writer.wbits - s.writer.wbits, eidx := 0, phase := .ePayload }

/-- E_PAYLOAD (R168), one input byte a turn; a byte without a code is INVARIANT (R169). -/
def phaseEPayload (s : State) : Host.Outcome State Fault Refusal :=
  if s.eidx < s.regs.inLen.toNat then
    match readIbuf s.eidx s with
    | .ok b t =>
        if (t.codeAt b).length = 0 then .next (completeWithError .invariant t)
        else
          andThen (exec (.writeBits (t.codeAt b)) t) fun u => .next { u with eidx := u.eidx + 1 }
    | .raised k t => .next (completeWithError k t)
    | .stuck f => .fault f
    | .refused r => .refused r
  else .next (setPhase .eFlush s)

/-- E_FLUSH (R170) and the completion (R171). -/
def phaseEFlush (s : State) : Host.Outcome State Fault Refusal :=
  andThen (exec .flush s) fun t => .next (completeEncode t)

/-! ## DECODE -/

/-- D_CHECK (44_decode.md R180). -/
def phaseDCheck (s : State) : Host.Outcome State Fault Refusal :=
  if s.params.ibufCap < s.regs.inLen.toNat then .next (completeWithError .badLength s)
  else .next (setPhase .dLen s)

/-- D_LEN (R182, R183): the LEN element is read and loaded; a count of 0 completes the command. -/
def phaseDLen (s : State) : Host.Outcome State Fault Refusal :=
  andThen (exec (.readBits 32) s) fun t =>
    match t.result with
    | .value n =>
        andThen (exec (.len (BitVec.ofNat 32 n)) t) fun u =>
          if u.decoder.symrem = 0 then .next (completeDecode u) else .next (setPhase .dTree u)
    | _ => .next (completeWithError .corruptHeader t)

/-- D_TREE (R184): ROOT is the tree READ_TREE returns; the bits it consumed are remembered for STAT_HDR_BITS. -/
def phaseDTree (s : State) : Host.Outcome State Fault Refusal :=
  andThen (exec .readTree s) fun t =>
    match t.result with
    | .node i =>
        .next { t with
          arena := { t.arena with root := i }
          hdrBits := t.reader.rbits - s.reader.rbits
          phase := .dPayload }
    | _ => .next t

/-- D_PAYLOAD (R185), one symbol a turn; the loop is driven by the count alone (R189) and then the command completes
(R192). -/
def phaseDPayload (s : State) : Host.Outcome State Fault Refusal :=
  if 0 < s.decoder.symrem then
    andThen (exec .walk s) fun t =>
      match t.result with
      | .byte v => (emitSymbol v t).finish fun _ => .nothing
      | _ => .next t
  else .next (completeDecode s)

/-! ## One turn of the engine -/

/-- What the engine does when it moves: the work of its phase; with no command running, nothing (70_reset_and_hazards.md
R230). -/
def engineTurn (s : State) : Host.Outcome State Fault Refusal :=
  match s.phase with
  | .none => .next s
  | .eCheck => phaseECheck s
  | .eCount => thenPhase (exec .count s) .eBuild
  | .eBuild => thenPhase (exec .build s) .eDerive
  | .eDerive => thenPhase (exec .derive s) .eLen
  | .eLen => phaseELen s
  | .eTree => phaseETree s
  | .ePayload => phaseEPayload s
  | .eFlush => phaseEFlush s
  | .dCheck => phaseDCheck s
  | .dLen => phaseDLen s
  | .dTree => phaseDTree s
  | .dPayload => phaseDPayload s
  -- 30_encoding.md R83, 60_exceptions.md R206: a reserved command word completes at once.
  | .xIllegal => .next (completeWithError .illegalCmd s)

end Sys2Proof.Machine
end

