-- ==== Sys2Proof/Machine/HostPort.lean ====
section
/-! DEFINITION. The host's side: register and buffer accesses, system addresses and RESET (10_state.md R20 to R32,
20_memory.md R65 to R69, 70_reset_and_hazards.md R230 to R234). -/

namespace Sys2Proof.Machine

/-- A CTRL write (10_state.md R21): the command word is decoded and run; a reserved word starts nothing but its own
error (30_encoding.md R83). -/
def writeCtrl (w : Word) (s : State) : Host.Outcome State Fault Refusal :=
  match decodeCommand w with
  | .ok i => exec i s
  | .error _ => .next (startIllegal s)

/-- A host write of register `num` (R20): only CTRL and IN_LEN take one, the rest ignore it (R22, R26 to R30). -/
def hostWriteReg (num width : Nat) (v : Word) (s : State) : Host.Outcome State Fault Refusal :=
  if width ≠ 32 then .refused .partialRegister
  else
    match num with
    | 0 => writeCtrl v s
    | 2 => .next (writeInLen v s)
    | _ => .next s

/-- Registers whose value is unspecified to a host while BUSY: IN_LEN, OUT_LEN and the STAT registers
(70_reset_and_hazards.md R234 (d)). -/
def unspecifiedWhileBusy (num : Nat) : Bool := decide (2 ≤ num) && decide (num ≤ 6)

/-- A host read of register `num` (R20 to R30, R234). -/
def hostReadReg (num width : Nat) (s : State) : Host.Outcome State Fault Refusal :=
  if width ≠ 32 then .refused .partialRegister
  else if s.isBusy && unspecifiedWhileBusy num then
    .next (logRead (.reg num (drawWord s).1) (drawWord s).2)
  else .next (logRead (.reg num (s.register num)) s)

/-- A host write of IBUF byte `a` (R31, R66, R74). -/
def hostWriteIbuf (a : Nat) (v : Byte) (s : State) : Host.Outcome State Fault Refusal :=
  if s.params.ibufCap ≤ a then .refused .bufferOutside
  else if s.isBusy then .refused .bufferWriteWhileBusy
  else .next { s with ibuf := s.ibuf.write a v }

/-- A host read of IBUF byte `a` (R31, R234 (d)). -/
def hostReadIbuf (a : Nat) (s : State) : Host.Outcome State Fault Refusal :=
  if s.params.ibufCap ≤ a then .refused .bufferOutside
  else if s.isBusy then .next (logRead (.ibuf a ((drawWord s).1.setWidth 8)) (drawWord s).2)
  else .next (logRead (.ibuf a (s.ibufByte a)) s)

/-- A host write of OBUF byte `a` (R32, R66, R74). -/
def hostWriteObuf (a : Nat) (v : Byte) (s : State) : Host.Outcome State Fault Refusal :=
  if s.params.obufCap ≤ a then .refused .bufferOutside
  else if s.isBusy then .refused .bufferWriteWhileBusy
  else .next { s with obuf := s.obuf.write a v }

/-- A host read of OBUF byte `a` (R32, R234 (d)). -/
def hostReadObuf (a : Nat) (s : State) : Host.Outcome State Fault Refusal :=
  if s.params.obufCap ≤ a then .refused .bufferOutside
  else if s.isBusy then .next (logRead (.obuf a ((drawWord s).1.setWidth 8)) (drawWord s).2)
  else .next (logRead (.obuf a (s.obufByte a)) s)

/-- A host write at a system address (R69): a register whole and at its own address (R65), a buffer byte by byte. -/
def hostBusWrite (addr width : Nat) (v : Word) (s : State) : Host.Outcome State Fault Refusal :=
  match busTargets s.params addr with
  | [.reg i] =>
      if addr = regAddress s.params i then hostWriteReg i width v s else .refused .partialRegister
  | [.ibuf a] => if width = 8 then hostWriteIbuf a (v.setWidth 8) s else .refused .busUnmapped
  | [.obuf a] => if width = 8 then hostWriteObuf a (v.setWidth 8) s else .refused .busUnmapped
  | _ => .refused .busUnmapped

/-- A host read at a system address (R69). -/
def hostBusRead (addr width : Nat) (s : State) : Host.Outcome State Fault Refusal :=
  match busTargets s.params addr with
  | [.reg i] => if addr = regAddress s.params i then hostReadReg i width s else .refused .partialRegister
  | [.ibuf a] => if width = 8 then hostReadIbuf a s else .refused .busUnmapped
  | [.obuf a] => if width = 8 then hostReadObuf a s else .refused .busUnmapped
  | _ => .refused .busUnmapped

/-- WAIT (30_encoding.md R98), `s` being the state with the WAIT taken off the script and `waiting` the state with it
still there: STATUS is read; DONE or ERROR ends the wait, otherwise the engine moves and the host reads again. -/
def hostWait (waiting s : State) : Host.Outcome State Fault Refusal :=
  if s.hasCompleted then .next (logRead (.reg 1 s.regs.status) s) else engineTurn waiting

/-- A host action, run on the state `s` that has it off the script; WAIT may stay on it (`waiting`). -/
def hostAct (a : HostAction) (waiting s : State) : Host.Outcome State Fault Refusal :=
  match a with
  | .reset => .next (resetAction s)
  | .writeReg num width v => hostWriteReg num width v s
  | .readReg num width => hostReadReg num width s
  | .writeIbuf i v => hostWriteIbuf i v s
  | .readIbuf i => hostReadIbuf i s
  | .writeObuf i v => hostWriteObuf i v s
  | .readObuf i => hostReadObuf i s
  | .busWrite addr width v => hostBusWrite addr width v s
  | .busRead addr width => hostBusRead addr width s
  | .wait => hostWait waiting s

/-- A call of one internal operation, decoded from its identifier (30_encoding.md R97). -/
def runCall (c : UopCall) (s : State) : Host.Outcome State Fault Refusal :=
  match decodeCall c with
  | .ok i => exec i s
  | .error _ => .refused .unusedOperation

/-- The place an element stands at. The payload's codes are those of the machine's own tree, and after the last symbol
whatever follows stands at PAD's place (30_encoding.md R99). -/
def placeIn (k : PlaceKind) (s : State) : Option Place :=
  match k with
  | .len => some .len
  | .tree => some .tree
  | .payload =>
      if s.decoder.symrem = 0 then some .pad else (s.arena.tree s.arena.root).map Place.payload
  | .pad => some .pad

/-- The error that bits which stand for no instruction raise: a reserved command word ILLEGAL_CMD (30_encoding.md R83), a
stream that ends inside LEN or the tree section CORRUPT_HEADER (44_decode.md R182, 42_tree_codec.md R145), inside a CODE
TRUNCATED_PAYLOAD (44_decode.md R190). Spare bits that are no PAD are never read and raise none (R193); an unused
identifier names no operation that could (30_encoding.md R97). -/
def errorOf : DecodeError → Option ErrorKind
  | .reservedCommand => some .illegalCmd
  | .unusedOperation => none
  | .endInLen => some .corruptHeader
  | .endInTree => some .corruptHeader
  | .endInCode => some .truncatedPayload
  | .notPadding => none

/-- What DECODE makes of bits at a place that are no element there. -/
def runBroken (e : DecodeError) (s : State) : Host.Outcome State Fault Refusal :=
  match errorOf e with
  | some k => .next (completeWithError k s)
  | none => .next s

/-- One element of a stream, decoded at its place (30_encoding.md R99). -/
def runElement (k : PlaceKind) (bs : Bits) (s : State) : Host.Outcome State Fault Refusal :=
  match placeIn k s with
  | none => .fault .arenaNotTree
  | some p =>
    match decodeElement p bs with
    | .ok (i, _) => exec i s
    | .error e => runBroken e s

/-- One turn. `waiting` is the state before the turn left the script, `s` the state after. A call or an element whose
turn falls inside a running command runs on that command's state (DESIGN CHOICE, notes/assumptions/31.md). -/
def runTurn (t : Turn) (waiting s : State) : Host.Outcome State Fault Refusal :=
  match t with
  | .host a => hostAct a waiting s
  | .engine => engineTurn s
  | .call c => runCall c s
  | .element k bs => runElement k bs s

/-- The turn that makes the next step run the instruction of a table row (notes/assumptions/19.md). -/
def tableTurn (nbits w : Nat) : Turn :=
  if nbits ≤ 8 then .call (tableCall w)
  else if nbits ≤ 16 then .element .tree (bitsOf 9 w)
  else .host (.writeReg 0 nbits (BitVec.ofNat 32 w))

end Sys2Proof.Machine
end

