-- ==== Sys2Proof/Machine/Step.lean ====
section
/-! DEFINITION. One step: the next turn of the script; when the script is empty the host is silent and the engine
moves (00_scope.md R13, notes/assumptions/5.md). -/

namespace Sys2Proof.Machine

/-- One step of the machine. -/
def step (s : State) : Host.Outcome State Fault Refusal :=
  match s.script with
  | [] => engineTurn s
  | t :: rest => runTurn t s { s with script := rest }

/-- Put the instruction of a table row where the next step takes its instruction from: at the head of the script. -/
def State.withFetchWord (s : State) (nbits w : Nat) : State :=
  { s with script := tableTurn nbits w :: s.script }

end Sys2Proof.Machine
end

