-- ==== Sys2Proof/Machine/Reference.lean ====
section
/-! DEFINITION. The two commands as functions of byte sequences (43_encode.md R173, 44_decode.md R194), over trees
and without the arena, the queue, the writer or the reader. The machine does not use them: they are what statements
compare it with. -/

namespace Sys2Proof.Machine.Reference

/-- A member of the priority queue: its weight, its node id and its tree (40_frequency_tree_code.md R103 to R105). -/
structure Entry where
  weight : Nat
  id     : Nat
  tree   : ByteTree
  deriving DecidableEq, Repr

/-- The extraction order (R103). -/
def Entry.before (a b : Entry) : Bool :=
  decide (a.weight < b.weight) || (decide (a.weight = b.weight) && decide (a.id < b.id))

/-- Insert into a queue kept in extraction order. -/
def insertEntry (e : Entry) : List Entry → List Entry
  | [] => [e]
  | x :: xs => if e.before x then e :: x :: xs else x :: insertEntry e xs

/-- The byte values that occur in `d`, ascending (R105). -/
def present (d : List Byte) : List Byte :=
  ((List.range 256).map (BitVec.ofNat 8)).filter fun v => decide (0 < d.count v)

/-- The leaves of the byte values `vs` of `d`, with ids from `i` upward. -/
def leafEntries (d : List Byte) : Nat → List Byte → List Entry
  | _, [] => []
  | i, v :: vs => { weight := d.count v, id := i, tree := .leaf v } :: leafEntries d (i + 1) vs

/-- Merge the two least entries, first extracted on the left (R104, R106), until one is left; `next` is the next
node id. The first argument bounds the number of rounds. -/
def mergeEntries : Nat → Nat → List Entry → Option ByteTree
  | 0, _, _ => none
  | _ + 1, _, [] => none
  | _ + 1, _, [e] => some e.tree
  | n + 1, next, a :: b :: rest =>
      mergeEntries n (next + 1)
        (insertEntry { weight := a.weight + b.weight, id := next, tree := .node a.tree b.tree } rest)

/-- The tree BUILD makes from `count(d)`; none for the empty input (R108). -/
def huffmanTree (d : List Byte) : Option ByteTree :=
  let leaves := leafEntries d 0 (present d)
  mergeEntries leaves.length leaves.length (leaves.foldr insertEntry [])

/-- The path to the first leaf of value `v`, in pre-order. -/
def pathTo (v : Byte) : ByteTree → Option Bits
  | .leaf w => if v = w then some [] else none
  | .node l r =>
      match pathTo v l with
      | some p => some (false :: p)
      | none => (pathTo v r).map (true :: ·)

/-- `code_t(v)`: the path from the root, or the one bit `0` for a tree that is a single leaf (R111, R112); none for
an absent value. -/
def codeOf (t : ByteTree) (v : Byte) : Option Bits :=
  match t with
  | .leaf w => if v = w then some [false] else none
  | .node l r => pathTo v (.node l r)

/-- `encodeBits(d)` (R173). -/
def encodeBits (d : List Byte) : Bits :=
  match huffmanTree d with
  | none => bitsOf 32 0
  | some t => bitsOf 32 d.length ++ t.ser ++ d.flatMap fun v => (codeOf t v).getD []

/-- `encode(d)` (R173). -/
def encodeBytes (d : List Byte) : List Byte :=
  pack (encodeBits d ++ zeros (padLength (encodeBits d).length))

/-- `n` symbols of the payload, `k` bytes being in an output buffer of `cap` bytes already (R194). -/
def decodeSymbols (cap : Nat) (t : ByteTree) : Nat → Nat → Bits → Except ErrorKind (List Byte)
  | 0, _, _ => .ok []
  | n + 1, k, bs =>
      match t.readCode bs with
      | none => .error .truncatedPayload
      | some (v, rest) =>
          if cap ≤ k then .error .outputOverflow
          else (decodeSymbols cap t n (k + 1) rest).map (v :: ·)

/-- `decode(s)` with an output buffer of `cap` bytes (R194). -/
def decodeBytes (cap : Nat) (stream : List Byte) : Except ErrorKind (List Byte) :=
  let u := unpack stream
  if u.length < 32 then .error .corruptHeader
  else
    let n := valueOf (u.take 32)
    if n = 0 then .ok []
    else
      match readTreeSection (u.drop 32) with
      | none => .error .corruptHeader
      | some (t, payload) => decodeSymbols cap t n 0 payload

end Sys2Proof.Machine.Reference
end

