-- ==== Sys2Proof/Safety.lean ====
section
/-! DEFINITION. The terms in which claims are made: a run, the bits a writer session has received and a reader
session has still to return, what a failed command leaves, and the invariant of the machine. -/

namespace Sys2Proof.Machine

/-! ## Runs -/

/-- `k` steps. -/
def runSteps : Nat → State → Host.Outcome State Fault Refusal
  | 0, s => .next s
  | k + 1, s =>
      match step s with
      | .next t => runSteps k t
      | .fault f => .fault f
      | .refused r => .refused r

/-- The state `s` with the turn `t` to come next. -/
def State.doing (s : State) (t : Turn) : State := { s with script := t :: s.script }

/-- The host is silent and leaves the engine alone. -/
abbrev State.Silent (s : State) : Prop := s.script = []

/-! ## The bit streams -/

/-- The bits a writer session has received: those of the bytes emitted, then those in WACC (41_bitstream.md R126). -/
def State.written (s : State) : Bits :=
  unpack (s.output s.writer.wptr) ++ (bitsOf 8 s.writer.wacc.toNat).take s.writer.wcnt.val

/-- The number of bytes that `n` more bits complete. -/
def State.bytesFor (s : State) (n : Nat) : Nat := (s.writer.wcnt.val + n) / 8

/-- `n` more bits do not overflow OBUF. -/
abbrev State.RoomFor (s : State) (n : Nat) : Prop :=
  s.bytesFor n = 0 ∨ s.writer.wptr + s.bytesFor n ≤ s.params.obufCap

/-- The state of an open writer session before its first bit (41_bitstream.md R120). -/
abbrev State.WriterOpen (s : State) : Prop :=
  s.writer = { wacc := 0, wcnt := 0, wptr := 0, wbits := 0, flushed := false }

/-- The reader's registers agree with one another and with IBUF (10_state.md R42). -/
abbrev State.ReaderOk (s : State) : Prop :=
  s.reader.rbits + s.reader.rcnt.val = 8 * s.reader.rptr ∧
  s.reader.rptr ≤ s.regs.inLen.toNat ∧
  (0 < s.reader.rcnt.val → s.reader.rcur = s.ibufByte (s.reader.rptr - 1))

/-- The writer's registers agree with one another; WACC has zeros where no bit has been written (41_bitstream.md
R120, R123). -/
abbrev State.WriterOk (s : State) : Prop :=
  s.writer.wptr ≤ s.params.obufCap ∧
  (s.writer.flushed = false →
    s.writer.wbits = 8 * s.writer.wptr + s.writer.wcnt.val ∧
    ∀ k, k < 8 - s.writer.wcnt.val → s.writer.wacc.getLsbD k = false) ∧
  (s.writer.flushed = true → s.writer.wcnt.val = 0 ∧ s.writer.wptr = (s.writer.wbits + 7) / 8)

/-! ## Trees -/

end Sys2Proof.Machine

namespace Sys2Proof

/-- The values of a tree's leaves, in pre-order. -/
def ByteTree.values : ByteTree → List Byte
  | .leaf v => [v]
  | .node l r => l.values ++ r.values

end Sys2Proof

namespace Sys2Proof.Machine

/-- The ids of the entries reached from `i`, in pre-order, at most `fuel` levels down. -/
def Arena.reached (t : Arena) : Nat → NodeId → List NodeId
  | 0, _ => []
  | fuel + 1, i =>
      if t.node[i].leaf then [i]
      else i :: (t.reached fuel t.node[i].left ++ t.reached fuel t.node[i].right)

/-- 10_state.md R36: from `i` the entries form a tree, and every allocated entry is reached exactly once. -/
def Arena.IsTree (t : Arena) (i : NodeId) : Prop :=
  (t.tree i).isSome ∧ (t.reached (Config.maxDepth + 1) i).Nodup ∧
  ∀ j : NodeId, j ∈ t.reached (Config.maxDepth + 1) i ↔ j.val < t.nodeCnt.val

/-- The byte values present in FREQ, ascending. -/
def State.presentValues (s : State) : List Byte := byteValues.filter fun v => decide (s.freqAt v ≠ 0)

/-! ## A failed command -/

/-- `t` is what a command that fails with `k` leaves of `s` (60_exceptions.md R209): the status and result registers,
PHASE, every byte of OBUF a free value of a new epoch, IBUF, IN_LEN and the rest of the outside as they were. -/
def FailedWith (k : ErrorKind) (s t : State) : Prop :=
  t.regs =
    { runState := .error, err := k.errCode, inLen := s.regs.inLen, outLen := 0, statOrig := 0, statComp := 0,
      statHdrBits := 0 } ∧
  t.phase = .none ∧ t.ibuf = s.ibuf ∧ t.params = s.params ∧ t.script = s.script ∧ t.reads = s.reads ∧
  t.epoch = s.epoch + 1 ∧ ∀ a, t.obufByte a = Config.freeObufByte (s.epoch + 1) a

/-! ## The invariant -/

/-- STATUS, PHASE and the result registers agree (10_state.md R23, R24, R26 to R29, R44). -/
def State.StatusOk (s : State) : Prop :=
  (s.regs.err ≠ 0 ↔ s.regs.runState = .error) ∧ s.regs.err.toNat ≤ 7 ∧
  (s.phase ≠ .none ↔ s.regs.runState = .busy) ∧
  (s.regs.runState = .idle ∨ s.regs.runState = .error →
    s.regs.outLen = 0 ∧ s.regs.statOrig = 0 ∧ s.regs.statComp = 0 ∧ s.regs.statHdrBits = 0) ∧
  (s.regs.runState = .done → s.regs.outLen.toNat ≤ s.params.obufCap)

/-- The buffers are in canonical form and inside their capacities (20_memory.md R66). -/
def State.BuffersOk (s : State) : Prop :=
  s.ibuf.wf = true ∧ s.obuf.wf = true ∧
  (∀ c ∈ s.ibuf, c.1 < s.params.ibufCap) ∧ (∀ c ∈ s.obuf, c.1 < s.params.obufCap)

/-- PQ is a set with one form, codes have at most 255 bits, SYMREM fits 32 bits (10_state.md R38, R39, R43). -/
def State.TablesOk (s : State) : Prop :=
  s.pq.Pairwise (· < ·) ∧ (∀ v, (s.codeAt v).length ≤ 255) ∧ s.decoder.symrem < 2 ^ 32

/-- What holds while a command runs: the bit streams, the counters inside their ranges, and, once the length has been
checked, the input inside IBUF (10_state.md R40 to R45, 43_encode.md R162, 44_decode.md R180). -/
def State.SessionOk (s : State) : Prop :=
  s.WriterOk ∧ s.ReaderOk ∧ s.decoder.optr ≤ s.params.obufCap ∧ s.eidx ≤ s.regs.inLen.toNat ∧
  (s.phase ≠ .eCheck → s.phase ≠ .dCheck → s.regs.inLen.toNat ≤ s.params.ibufCap)

/-- The invariant of the machine. A reserved command word starts no session (30_encoding.md R83). -/
def State.Inv (s : State) : Prop :=
  s.params.Legal ∧ s.StatusOk ∧ s.BuffersOk ∧ s.TablesOk ∧
  (s.phase ≠ .none → s.phase ≠ .xIllegal → s.SessionOk)

/-- The phases that can follow a phase (10_state.md R44, 43_encode.md R163, R164, 44_decode.md R181), NONE apart. -/
def Phase.successors : Phase → List Phase
  | .none => [.eCheck, .dCheck, .xIllegal]
  | .eCheck => [.eCount, .eLen]
  | .eCount => [.eBuild]
  | .eBuild => [.eDerive]
  | .eDerive => [.eLen]
  | .eLen => [.eTree, .eFlush]
  | .eTree => [.ePayload]
  | .ePayload => [.eFlush]
  | .eFlush => []
  | .dCheck => [.dLen]
  | .dLen => [.dTree]
  | .dTree => [.dPayload]
  | .dPayload => []
  | .xIllegal => []

end Sys2Proof.Machine
end

