-- ==== Sys2Proof/Certificates/Slice0/Obligations.lean ====
section
/-! DEFINITION. The statements for the provers, each a closed proposition about the machine. A statement about a state
holds in every state, also one no run reaches, unless a hypothesis says otherwise. -/

open Sys2Proof Sys2Proof.Machine

/-! ## Commands and the host's registers -/

/-- R82. NOP has no effect; 1 and 2 written to CTRL run ENCODE and DECODE; while BUSY every CTRL write is ignored. -/
def Obligations.CommandCodes : Prop :=
  (∀ s : State, exec .nop s = .next s ∧ step (s.doing (.host (.writeReg 0 32 0))) = .next s) ∧
  (∀ s : State, s.regs.runState ≠ .busy →
    step (s.doing (.host (.writeReg 0 32 1))) = exec .encode s ∧
    step (s.doing (.host (.writeReg 0 32 2))) = exec .decode s) ∧
  (∀ (s : State) (w : Word), s.regs.runState = .busy → step (s.doing (.host (.writeReg 0 32 w))) = .next s)

/-- R83. A reserved command word starts no operation: BUSY with ERR 0 at X_ILLEGAL, and the engine's next move
completes with ILLEGAL_CMD. That these are two steps, and that nothing else is set between them, is the model's reading
(notes/assumptions/24.md). -/
def Obligations.ReservedCommandIsIllegal : Prop :=
  ∀ (s : State) (w : Word), s.regs.runState ≠ .busy → s.Silent → w ≠ 0 → w ≠ 1 → w ≠ 2 →
    ∃ t u, step (s.doing (.host (.writeReg 0 32 w))) = .next t ∧
      t = { s with regs := { s.regs with runState := .busy, err := 0 }, phase := .xIllegal } ∧
      step t = .next u ∧ FailedWith .illegalCmd s u ∧
      u.regs.runState = .error ∧ u.regs.err = 6 ∧ u.regs.outLen = 0

/-- R160, R180, R46. ENCODE and DECODE outside BUSY complete their start: STATE, ERR and PHASE; the internal state that
a command start initialises; nothing else changes. Of the two fields
that R46 does not name, `hdrBits` and the writer's `flushed`, the start values are the model's reading
(notes/assumptions/14.md, 13.md). -/
def Obligations.CommandStart : Prop :=
  ∀ s : State, s.regs.runState ≠ .busy →
    ∀ i p, (i = Instr.encode ∧ p = Phase.eCheck) ∨ (i = Instr.decode ∧ p = Phase.dCheck) →
    ∃ t, exec i s = .next t ∧
      t.regs = { s.regs with runState := .busy, err := 0 } ∧ t.phase = p ∧
      (∀ v, t.freqAt v = 0) ∧ (∀ v, t.codeAt v = []) ∧ t.arena.nodeCnt = 0 ∧ t.pq = [] ∧
      t.WriterOpen ∧ t.reader.rcnt = 0 ∧ t.reader.rptr = 0 ∧ t.reader.rbits = 0 ∧
      t.decoder.symrem = 0 ∧ t.decoder.optr = 0 ∧ t.eidx = 0 ∧ t.hdrBits = 0 ∧ t.result = s.result ∧
      t.arena.node = s.arena.node ∧ t.arena.root = s.arena.root ∧ t.decoder.cur = s.decoder.cur ∧
      t.reader.rcur = s.reader.rcur ∧ t.params = s.params ∧ t.ibuf = s.ibuf ∧ t.obuf = s.obuf ∧
      t.epoch = s.epoch ∧ t.draws = s.draws ∧ t.script = s.script ∧ t.reads = s.reads

/-- R207. A command started with `IN_LEN > IBUF_CAP` fails with BAD_LENGTH at its first phase. -/
def Obligations.BadLengthFirst : Prop :=
  ∀ s : State, s.regs.runState ≠ .busy → s.Silent → s.params.ibufCap < s.regs.inLen.toNat →
    ∀ i, i = Instr.encode ∨ i = Instr.decode →
      ∃ t u, exec i s = .next t ∧ step t = .next u ∧ FailedWith .badLength s u ∧ u.regs.err = 7

/-- R22. STATUS read in any state: STATE in bits 1:0, ERR in bits 7:4, every other bit 0; the read changes nothing but
what the host has read, and a write of STATUS is ignored. -/
def Obligations.StatusRegister : Prop :=
  ∀ s : State, (∀ v, step (s.doing (.host (.writeReg 1 32 v))) = .next s) ∧
    ∃ w : Word, step (s.doing (.host (.readReg 1 32))) = .next { s with reads := .reg 1 w :: s.reads } ∧
      w.extractLsb' 0 2 = BitVec.ofNat 2 s.regs.runState.number ∧ w.extractLsb' 2 2 = 0 ∧
      w.extractLsb' 4 4 = s.regs.err ∧ w.extractLsb' 8 24 = 0

/-- R30. Register numbers 7 and above read as 0 and ignore writes, in every state. -/
def Obligations.AbsentRegisters : Prop :=
  ∀ (s : State) num, 7 ≤ num →
    (∀ v, step (s.doing (.host (.writeReg num 32 v))) = .next s) ∧
    step (s.doing (.host (.readReg num 32))) = .next { s with reads := .reg num 0 :: s.reads }

/-- R65. A register access of another width than 32 bits is refused, by number and by system address, and so is one, of
any width, at a system address inside the register window that is no register's own. -/
def Obligations.PartialRegisterRefused : Prop :=
  (∀ (s : State) num width (v : Word), width ≠ 32 →
    step (s.doing (.host (.writeReg num width v))) = .refused .partialRegister ∧
    step (s.doing (.host (.readReg num width))) = .refused .partialRegister) ∧
  (∀ (s : State) addr width i (v : Word), busTargets s.params addr = [.reg i] →
    addr ≠ regAddress s.params i ∨ width ≠ 32 →
    step (s.doing (.host (.busWrite addr width v))) = .refused .partialRegister ∧
    step (s.doing (.host (.busRead addr width))) = .refused .partialRegister)

/-- R21, R25 to R29. Outside BUSY the registers read as they stand, CTRL as 0; IN_LEN stores any 32-bit value; a write
of OUT_LEN or a STAT register is ignored. -/
def Obligations.RegistersOutsideBusy : Prop :=
  ∀ s : State, s.regs.runState ≠ .busy →
    (∀ p : Nat × Word, p ∈ [(0, 0), (2, s.regs.inLen), (3, s.regs.outLen), (4, s.regs.statOrig),
        (5, s.regs.statComp), (6, s.regs.statHdrBits)] →
      step (s.doing (.host (.readReg p.1 32))) = .next { s with reads := .reg p.1 p.2 :: s.reads }) ∧
    (∀ v : Word, step (s.doing (.host (.writeReg 2 32 v))) = .next { s with regs := { s.regs with inLen := v } }) ∧
    (∀ num, 3 ≤ num → num ≤ 6 → ∀ v : Word, step (s.doing (.host (.writeReg num 32 v))) = .next s)

/-- R234, R21. While BUSY: STATUS reads BUSY with ERR 0 (in a state whose ERR is 0, as in every state of the invariant);
CTRL reads as 0;
writes of CTRL and IN_LEN and of every other register are ignored; reads of the other registers and of the buffers
return a free value; writes of the buffers are refused. How the free value is drawn is the model's choice
(notes/assumptions/4.md, 25.md). -/
def Obligations.HandsOffWhileBusy : Prop :=
  ∀ s : State, s.regs.runState = .busy →
    (s.regs.err = 0 →
      step (s.doing (.host (.readReg 1 32))) = .next { s with reads := .reg 1 1 :: s.reads }) ∧
    step (s.doing (.host (.readReg 0 32))) = .next { s with reads := .reg 0 0 :: s.reads } ∧
    (∀ num (v : Word), step (s.doing (.host (.writeReg num 32 v))) = .next s) ∧
    (∀ num, 2 ≤ num → num ≤ 6 → step (s.doing (.host (.readReg num 32))) =
      .next { s with reads := .reg num (Config.freeWord s.draws) :: s.reads, draws := s.draws + 1 }) ∧
    (∀ a, a < s.params.ibufCap → step (s.doing (.host (.readIbuf a))) =
      .next { s with reads := .ibuf a ((Config.freeWord s.draws).setWidth 8) :: s.reads, draws := s.draws + 1 }) ∧
    (∀ a, a < s.params.obufCap → step (s.doing (.host (.readObuf a))) =
      .next { s with reads := .obuf a ((Config.freeWord s.draws).setWidth 8) :: s.reads, draws := s.draws + 1 }) ∧
    (∀ a v, a < s.params.ibufCap → step (s.doing (.host (.writeIbuf a v))) = .refused .bufferWriteWhileBusy) ∧
    (∀ a v, a < s.params.obufCap → step (s.doing (.host (.writeObuf a v))) = .refused .bufferWriteWhileBusy)

/-- R31, R32, R66, R68. Outside BUSY a host write of a buffer byte stores it and changes no other byte and nothing else;
a host read returns the byte and changes nothing; an index at or above the capacity is refused in every state. -/
def Obligations.HostBufferAccess : Prop :=
  (∀ (s : State) a v, s.regs.runState ≠ .busy → a < s.params.ibufCap →
    step (s.doing (.host (.readIbuf a))) = .next { s with reads := .ibuf a (s.ibufByte a) :: s.reads } ∧
    ∃ m t, step (s.doing (.host (.writeIbuf a v))) = .next t ∧ t = { s with ibuf := m } ∧
      t.ibufByte a = v ∧ ∀ b, b ≠ a → t.ibufByte b = s.ibufByte b) ∧
  (∀ (s : State) a v, s.regs.runState ≠ .busy → a < s.params.obufCap →
    step (s.doing (.host (.readObuf a))) = .next { s with reads := .obuf a (s.obufByte a) :: s.reads } ∧
    ∃ m t, step (s.doing (.host (.writeObuf a v))) = .next t ∧ t = { s with obuf := m } ∧
      t.obufByte a = v ∧ ∀ b, b ≠ a → t.obufByte b = s.obufByte b) ∧
  (∀ (s : State) a v, s.params.ibufCap ≤ a →
    step (s.doing (.host (.readIbuf a))) = .refused .bufferOutside ∧
    step (s.doing (.host (.writeIbuf a v))) = .refused .bufferOutside) ∧
  (∀ (s : State) a v, s.params.obufCap ≤ a →
    step (s.doing (.host (.readObuf a))) = .refused .bufferOutside ∧
    step (s.doing (.host (.writeObuf a v))) = .refused .bufferOutside)

/-- R69. On a bus whose three windows do not overlap, register `i` is at `REG_BASE + 4*i`, IBUF byte `a` at
`IBUF_BASE + a`, OBUF byte `a` at `OBUF_BASE + a`. The widths of the accesses are the model's choice
(notes/assumptions/15.md). -/
def Obligations.AddressMap : Prop :=
  ∀ s : State, let p := s.params
    (p.regBase + 28 ≤ p.ibufBase ∨ p.ibufBase + p.ibufCap ≤ p.regBase) →
    (p.regBase + 28 ≤ p.obufBase ∨ p.obufBase + p.obufCap ≤ p.regBase) →
    (p.ibufBase + p.ibufCap ≤ p.obufBase ∨ p.obufBase + p.obufCap ≤ p.ibufBase) →
    (∀ i v, i < 7 →
      step (s.doing (.host (.busWrite (p.regBase + 4 * i) 32 v))) = step (s.doing (.host (.writeReg i 32 v))) ∧
      step (s.doing (.host (.busRead (p.regBase + 4 * i) 32))) = step (s.doing (.host (.readReg i 32)))) ∧
    (∀ a (v : Word), a < p.ibufCap →
      step (s.doing (.host (.busWrite (p.ibufBase + a) 8 v))) =
        step (s.doing (.host (.writeIbuf a (v.setWidth 8)))) ∧
      step (s.doing (.host (.busRead (p.ibufBase + a) 8))) = step (s.doing (.host (.readIbuf a)))) ∧
    (∀ a (v : Word), a < p.obufCap →
      step (s.doing (.host (.busWrite (p.obufBase + a) 8 v))) =
        step (s.doing (.host (.writeObuf a (v.setWidth 8)))) ∧
      step (s.doing (.host (.busRead (p.obufBase + a) 8))) = step (s.doing (.host (.readObuf a))))

/-- R230, R231. RESET in any state: the registers and PHASE; the buffers are not written, but a RESET while BUSY leaves
OBUF unspecified; then the engine does nothing. The unspecified bytes are free values of the next epoch, the model's
choice (notes/assumptions/2.md). -/
def Obligations.ResetAction : Prop :=
  ∀ s : State, ∃ t, step (s.doing (.host .reset)) = .next t ∧
    t.regs = { runState := .idle, err := 0, inLen := 0, outLen := 0, statOrig := 0, statComp := 0, statHdrBits := 0 } ∧
    t.phase = .none ∧ (∀ a, t.ibufByte a = s.ibufByte a) ∧
    (s.regs.runState ≠ .busy → ∀ a, t.obufByte a = s.obufByte a) ∧
    (s.regs.runState = .busy → t.epoch = s.epoch + 1 ∧ ∀ a, t.obufByte a = Config.freeObufByte (s.epoch + 1) a) ∧
    t.params = s.params ∧ t.script = s.script ∧ t.reads = s.reads ∧ engineTurn t = .next t

/-- R49. The values the spec gives for reset, for every choice of the parameters: the registers and PHASE; every byte of
the buffers unspecified. The unspecified bytes are free values, the model's choice (notes/assumptions/2.md). -/
def Obligations.ResetValues : Prop :=
  ∀ p, let s := State.resetWith p
    s.params = p ∧ s.regs.runState = .idle ∧ s.regs.err = 0 ∧ s.regs.inLen = 0 ∧ s.regs.outLen = 0 ∧
    s.regs.statOrig = 0 ∧ s.regs.statComp = 0 ∧ s.regs.statHdrBits = 0 ∧ s.regs.status = 0 ∧ s.register 0 = 0 ∧
    s.phase = .none ∧ (∀ a, s.ibufByte a = Config.freeIbufByte a) ∧ (∀ a, s.obufByte a = Config.freeObufByte 0 a)

/-- R98. WAIT ends, with STATUS read, when STATE is DONE or ERROR; until then the engine moves and the WAIT stays.
That the engine moves between two polls is the model's choice (notes/assumptions/16.md). -/
def Obligations.WaitPollsStatus : Prop :=
  ∀ s : State, ((s.regs.runState = .done ∨ s.regs.runState = .error) →
      step (s.doing (.host .wait)) = .next { s with reads := .reg 1 s.regs.status :: s.reads }) ∧
    ((s.regs.runState = .idle ∨ s.regs.runState = .busy) →
      step (s.doing (.host .wait)) = engineTurn (s.doing (.host .wait)))

/-! ## Errors -/

/-- R209. Completion with an error, whatever the error and the state: the registers, PHASE, OBUF unspecified, IBUF and
IN_LEN unchanged. -/
def Obligations.ErrorCompletion : Prop :=
  ∀ k (s : State), FailedWith k s (completeWithError k s) ∧ (completeWithError k s).regs.err ≠ 0

/-- R108. BUILD on an all-zero FREQ raises EMPTY_INPUT (code 1); no ENCODE ends so, the host silent. -/
def Obligations.BuildOfNothingIsEmptyInput : Prop :=
  (∀ s : State, s.pq = [] → (∀ v, s.freqAt v = 0) → ∃ t, exec .build s = .next t ∧ FailedWith .emptyInput s t) ∧
  (∀ s : State, s.params.Legal → s.regs.runState ≠ .busy → s.Silent →
    ∀ s₀ k t, exec .encode s = .next s₀ → runSteps k s₀ = .next t → t.regs.err ≠ 1)

/-- R169. In the payload phase a byte without a code is INVARIANT (code 3). -/
def Obligations.MissingCodeIsInvariant : Prop :=
  ∀ s : State, s.phase = .ePayload → s.Silent → s.eidx < s.regs.inLen.toNat → s.eidx < s.params.ibufCap →
    s.codeAt (s.ibufByte s.eidx) = [] → ∃ t, step s = .next t ∧ FailedWith .invariant s t ∧ t.regs.err = 3

/-! ## COUNT, the queue, BUILD, DERIVE -/

/-- R100, R101. COUNT from an all-zero FREQ: each entry is the number of its occurrences in the input, the entries sum
to IN_LEN, and none is non-zero exactly for the empty input; nothing but FREQ and EIDX changes. -/
def Obligations.CountCounts : Prop :=
  ∀ s : State, s.regs.inLen.toNat ≤ s.params.ibufCap → (∀ v, s.freqAt v = 0) →
    ∃ t, exec .count s = .next t ∧
      (∃ f e, t = { s with freq := f, eidx := e, result := .nothing }) ∧
      (∀ v, (t.freqAt v).toNat = s.input.count v) ∧
      (byteValues.map fun v => (t.freqAt v).toNat).sum = s.regs.inLen.toNat ∧
      (t.presentValues = [] ↔ s.regs.inLen = 0)

/-- R102. PQ_INSERT adds its operand to the set and changes nothing else; the set keeps its one form. Outside R102's
operand condition (an id that is not allocated or is a member already, a queue of 256) that it does so is the model's
choice (notes/assumptions/30.md). -/
def Obligations.PqInsertAdds : Prop :=
  ∀ (s : State) i, ∃ q, exec (.pqInsert i) s = .next { s with pq := q, result := .nothing } ∧
    (∀ j, j ∈ q ↔ j = i ∨ j ∈ s.pq) ∧ (s.pq.Pairwise (· < ·) → q.Pairwise (· < ·))

/-- R103. PQ_EXTRACT_MIN returns and removes the member whose (weight, node id) pair is least, and changes nothing
else. -/
def Obligations.PqExtractMinTakesLeast : Prop :=
  ∀ s : State, s.pq ≠ [] → s.pq.Pairwise (· < ·) →
    ∃ m q, exec .pqExtractMin s = .next { s with pq := q, result := .node m } ∧ m ∈ s.pq ∧
      (∀ j ∈ s.pq, s.arena.node[m].weight < s.arena.node[j].weight ∨
        (s.arena.node[m].weight = s.arena.node[j].weight ∧ m ≤ j)) ∧
      (∀ j, j ∈ q ↔ j ∈ s.pq ∧ j ≠ m) ∧ q.Pairwise (· < ·)

/-- R110. BUILD with `n >= 1` distinct byte values: `n - 1` merges, `NODE_CNT = 2n - 1`, `ROOT = 2n - 2`, leaves below
internal nodes, one leaf for each value present, a tree in the sense of R36, no leaf deeper than `n - 1`; nothing but
the arena, the queue and the draws changes. For counts whose sum does not fit 32 bits, which no command has (R109), that
BUILD runs is the model's choice (notes/assumptions/29.md). -/
def Obligations.BuildShape : Prop :=
  ∀ s : State, s.arena.nodeCnt = 0 → s.pq = [] → s.presentValues ≠ [] →
    let n := s.presentValues.length
    ∃ t tr, exec .build s = .next t ∧
      (∃ a q d, t = { s with arena := a, pq := q, draws := d, result := .nothing }) ∧
      t.arena.nodeCnt.val = 2 * n - 1 ∧ t.arena.root.val = 2 * n - 2 ∧
      t.arena.tree t.arena.root = some tr ∧ tr.values.Perm s.presentValues ∧ tr.depth ≤ n - 1 ∧ n - 1 ≤ 255 ∧
      t.arena.IsTree t.arena.root ∧
      ∀ i : NodeId, i.val < 2 * n - 1 → (t.arena.node[i].leaf = true ↔ i.val < n)

/-- R104, R105, R106, R109. From the counts of a non-empty input, BUILD makes the tree that merging the two least
(weight, id) entries makes, first extracted on the left; the root's weight is the length of the input; no left child is
heavier than its sibling. -/
def Obligations.BuildIsHuffman : Prop :=
  ∀ (s : State) (d : List Byte), s.arena.nodeCnt = 0 → s.pq = [] → d ≠ [] → d.length < 2 ^ 32 →
    (∀ v, (s.freqAt v).toNat = d.count v) →
    ∃ t, exec .build s = .next t ∧ t.arena.tree t.arena.root = Reference.huffmanTree d ∧
      t.arena.node[t.arena.root].weight.toNat = d.length ∧
      ∀ i : NodeId, i.val < t.arena.nodeCnt.val → t.arena.node[i].leaf = false →
        t.arena.node[t.arena.node[i].left].weight ≤ t.arena.node[t.arena.node[i].right].weight

/-- R111, R112, R115. DERIVE of a tree: the code of a value in the tree leads from the root to a leaf of that value
and has 1 to 255 bits; the code of a single leaf is `0`; no other entry of CODE and nothing else changes. On a CODE
table that is not empty, against R111's precondition, that DERIVE runs so is the model's choice
(notes/assumptions/30.md). -/
def Obligations.DeriveGivesPaths : Prop :=
  ∀ (s : State) tr, s.arena.tree s.arena.root = some tr →
    ∃ t c, exec .derive s = .next t ∧ t = { s with code := c, result := .nothing } ∧
      (∀ v, v ∈ tr.values →
        tr.readCode (t.codeAt v) = some (v, []) ∧ 1 ≤ (t.codeAt v).length ∧ (t.codeAt v).length ≤ 255) ∧
      (∀ v, v ∉ tr.values → t.codeAt v = s.codeAt v) ∧
      (∀ v, tr = .leaf v → t.codeAt v = [false])

/-- R114. BUILD and then DERIVE from an empty code table: the codes are prefix-free, and a value has one exactly when it
occurs in FREQ. For counts whose sum does not fit 32 bits, which no command has (R109), that BUILD runs is the model's
choice (notes/assumptions/29.md). -/
def Obligations.CodesArePrefixFree : Prop :=
  ∀ s : State, s.arena.nodeCnt = 0 → s.pq = [] → s.presentValues ≠ [] → (∀ v, s.codeAt v = []) →
    ∃ t u, exec .build s = .next t ∧ exec .derive t = .next u ∧
      (∀ v w, v ≠ w → 0 < (u.codeAt v).length → 0 < (u.codeAt w).length → ¬ u.codeAt v <+: u.codeAt w) ∧
      (∀ v, 0 < (u.codeAt v).length ↔ s.freqAt v ≠ 0)

/-! ## The writer -/

/-- R121, R122, R125. WRITE_BIT and WRITE_BITS in an open session, when the bytes they complete fit: the bits follow
those written before, most significant bit first; OBUF changes only in the bytes completed; nothing but the writer and
OBUF changes. -/
def Obligations.WriteAppendsBits : Prop :=
  ∀ (s : State) (bs : Bits), s.writer.flushed = false → s.RoomFor bs.length →
    ∀ i, (i = Instr.writeBits bs ∨ ∃ b, bs = [b] ∧ i = Instr.writeBit b) →
    ∃ t w m, exec i s = .next t ∧ t = { s with writer := w, obuf := m, result := .nothing } ∧
      t.written = s.written ++ bs ∧ w.wbits = s.writer.wbits + bs.length ∧
      w.wptr = s.writer.wptr + s.bytesFor bs.length ∧ w.wcnt.val = (s.writer.wcnt.val + bs.length) % 8 ∧
      w.flushed = false ∧
      ∀ a, a < s.writer.wptr ∨ w.wptr ≤ a → t.obufByte a = s.obufByte a

/-- R122, R205. WRITE_BIT and WRITE_BITS fail with OUTPUT_OVERFLOW when a byte they complete does not fit. -/
def Obligations.WriteOverflows : Prop :=
  ∀ (s : State) (bs : Bits), s.writer.flushed = false → ¬ s.RoomFor bs.length →
    ∀ i, (i = Instr.writeBits bs ∨ ∃ b, bs = [b] ∧ i = Instr.writeBit b) →
    ∃ t, exec i s = .next t ∧ FailedWith .outputOverflow s t

/-- R123, R124, R235. FLUSH ends an open session: on a byte boundary it writes nothing; otherwise it emits WACC, or fails
with OUTPUT_OVERFLOW when that byte does not fit. After it, also where it failed, a write or a second FLUSH is refused. -/
def Obligations.FlushEmitsPartialByte : Prop :=
  (∀ s : State, s.writer.flushed = false → s.writer.wcnt.val = 0 →
    exec .flush s = .next { s with writer := { s.writer with flushed := true }, result := .nothing }) ∧
  (∀ s : State, s.writer.flushed = false → s.writer.wcnt.val ≠ 0 → s.writer.wptr < s.params.obufCap →
    ∃ t w m, exec .flush s = .next t ∧ t = { s with writer := w, obuf := m, result := .nothing } ∧
      t.obufByte s.writer.wptr = s.writer.wacc ∧ (∀ a, a ≠ s.writer.wptr → t.obufByte a = s.obufByte a) ∧
      w = { wacc := 0, wcnt := 0, wptr := s.writer.wptr + 1, wbits := s.writer.wbits, flushed := true }) ∧
  (∀ s : State, s.writer.flushed = false → s.writer.wcnt.val ≠ 0 → s.params.obufCap ≤ s.writer.wptr →
    ∃ t, exec .flush s = .next t ∧ FailedWith .outputOverflow s t ∧ t.writer.flushed = true) ∧
  (∀ (s : State) b bs, s.writer.flushed = true →
    exec .flush s = .refused .secondFlush ∧ exec (.writeBit b) s = .refused .writeAfterFlush ∧
      exec (.writeBits (b :: bs)) s = .refused .writeAfterFlush)

/-- R126. What a session produces: the bits packed, most significant bit first, and zero padding; or an overflow exactly
when they need more than OBUF_CAP bytes: raised by a WRITE_BIT where the bits complete byte number OBUF_CAP, else by
FLUSH. -/
def Obligations.SessionPacksBits : Prop :=
  ∀ (s : State) (bs : Bits), s.WriterOpen →
    ((bs.length + 7) / 8 ≤ s.params.obufCap →
      ∃ t u, exec (.writeBits bs) s = .next t ∧ exec .flush t = .next u ∧ u.writer.wbits = bs.length ∧
        u.writer.wptr = (bs.length + 7) / 8 ∧
        u.output u.writer.wptr = pack (bs ++ zeros ((8 - bs.length % 8) % 8))) ∧
    (8 * (s.params.obufCap + 1) ≤ bs.length →
      ∃ t, exec (.writeBits bs) s = .next t ∧ FailedWith .outputOverflow s t) ∧
    (s.params.obufCap < (bs.length + 7) / 8 → bs.length < 8 * (s.params.obufCap + 1) →
      ∃ t u, exec (.writeBits bs) s = .next t ∧ t.writer.wbits = bs.length ∧ t.regs = s.regs ∧
        exec .flush t = .next u ∧ FailedWith .outputOverflow t u)

/-- R141. WRITE_TREE writes `ser` of the tree of its operand and nothing more, whatever the arena; a tree with `n`
leaves takes `10n - 1` bits. -/
def Obligations.WriteTreeSerialises : Prop :=
  (∀ (s : State) i tr, s.arena.tree i = some tr → exec (.writeTree i) s = exec (.writeBits tr.ser) s) ∧
  (∀ (s : State) i tr, s.arena.tree i = some tr → s.writer.flushed = false → s.RoomFor tr.ser.length →
    ∃ t w m, exec (.writeTree i) s = .next t ∧ t = { s with writer := w, obuf := m, result := .nothing } ∧
      t.written = s.written ++ tr.ser ∧ w.wbits = s.writer.wbits + tr.ser.length ∧
      ∀ a, a < s.writer.wptr ∨ w.wptr ≤ a → t.obufByte a = s.obufByte a) ∧
  (∀ tr : ByteTree, tr.ser.length = 10 * tr.leaves - 1)

/-- R166. E_LEN from the open session: 32 bits, four bytes, IN_LEN in big-endian order; then E_TREE, or E_FLUSH for the
empty input (R163). -/
def Obligations.LenFieldIsBigEndian : Prop :=
  ∀ s : State, s.phase = .eLen → s.Silent → s.WriterOpen → 4 ≤ s.params.obufCap →
    ∃ t, step s = .next t ∧ t.writer.wbits = 32 ∧ t.writer.wcnt.val = 0 ∧ t.writer.wptr = 4 ∧
      t.obufByte 0 = s.regs.inLen.extractLsb' 24 8 ∧ t.obufByte 1 = s.regs.inLen.extractLsb' 16 8 ∧
      t.obufByte 2 = s.regs.inLen.extractLsb' 8 8 ∧ t.obufByte 3 = s.regs.inLen.extractLsb' 0 8 ∧
      (∀ a, 4 ≤ a → t.obufByte a = s.obufByte a) ∧
      t.phase = if s.regs.inLen = 0 then .eFlush else .eTree

/-! ## The reader -/

/-- R128, R129, R130. READ_BIT returns the next bit of the input and READ_BITS the value of the next `k`; at the end of
the input READ_BIT answers EOS and changes nothing, and READ_BITS consumes what is left and answers EOS. Nothing but the
reader changes. -/
def Obligations.ReadTakesNextBits : Prop :=
  ∀ s : State, s.regs.inLen.toNat ≤ s.params.ibufCap →
    (∀ b rest, s.bitsAhead = b :: rest →
      ∃ r t, exec .readBit s = .next t ∧ t = { s with reader := r, result := .bit b } ∧ t.bitsAhead = rest ∧
        r.rbits = s.reader.rbits + 1) ∧
    (s.bitsAhead = [] → exec .readBit s = .next { s with result := .eos }) ∧
    (∀ k, 1 ≤ k → k ≤ s.bitsAhead.length →
      ∃ r t, exec (.readBits k) s = .next t ∧
        t = { s with reader := r, result := .value (valueOf (s.bitsAhead.take k)) } ∧
        t.bitsAhead = s.bitsAhead.drop k ∧ r.rbits = s.reader.rbits + k) ∧
    (∀ k, s.bitsAhead.length < k →
      ∃ r t, exec (.readBits k) s = .next t ∧ t = { s with reader := r, result := .eos } ∧ t.bitsAhead = [] ∧
        r.rbits = s.reader.rbits + s.bitsAhead.length)

/-- R42. `RBITS = 8 * RPTR - RCNT` in the open reader and after every READ_BIT, and then the bits still to come are
those of the input from bit RBITS on. -/
def Obligations.ReaderPosition : Prop :=
  (∀ s : State, s.reader.rcnt = 0 → s.reader.rptr = 0 → s.reader.rbits = 0 → s.ReaderOk) ∧
  (∀ s t : State, s.ReaderOk → exec .readBit s = .next t → t.ReaderOk ∧ t.input = s.input) ∧
  (∀ s : State, s.ReaderOk → s.reader.rbits = 8 * s.reader.rptr - s.reader.rcnt.val ∧
    s.bitsAhead = (unpack s.input).drop s.reader.rbits)

/-- R149, R143, R144. READ_TREE is the inverse of `ser`: over `ser(t)` and anything after it, for a tree of at most 511
nodes, it returns node 0 with the tree `t`, numbered in pre-order, leaves the reader at the first bit after it, writes
no weight, and changes nothing but the reader and the arena's first entries. -/
def Obligations.ReadTreeInvertsSer : Prop :=
  ∀ (s : State) (tr : ByteTree) (x : Bits), s.regs.inLen.toNat ≤ s.params.ibufCap → s.arena.nodeCnt = 0 → tr.size ≤ 511 →
    s.bitsAhead = tr.ser ++ x →
    ∃ t r a d, exec .readTree s = .next t ∧
      t = { s with reader := r, arena := a, draws := d, result := .node 0 } ∧
      a.tree 0 = some tr ∧ a.nodeCnt.val = tr.size ∧ a.root = s.arena.root ∧ t.bitsAhead = x ∧
      r.rbits = s.reader.rbits + tr.ser.length ∧
      (∀ i : NodeId, i.val < tr.size → a.node[i].leaf = false → a.node[i].left.val = i.val + 1) ∧
      (∀ i : NodeId, a.node[i].weight = s.arena.node[i].weight) ∧
      (∀ i : NodeId, tr.size ≤ i.val → a.node[i] = s.arena.node[i])

/-- R145, R146, R147. READ_TREE fails with CORRUPT_HEADER exactly when no `ser(t)` of a tree of at most 511 nodes is a
prefix of the bits ahead. -/
def Obligations.ReadTreeRejectsTheRest : Prop :=
  ∀ s : State, s.regs.inLen.toNat ≤ s.params.ibufCap → s.arena.nodeCnt = 0 →
    ((∃ t, exec .readTree s = .next t ∧ FailedWith .corruptHeader s t) ↔
      ¬ ∃ tr : ByteTree, tr.size ≤ 511 ∧ tr.ser <+: s.bitsAhead)

/-- R182, R183. D_LEN: a stream of fewer than 32 bits is CORRUPT_HEADER; otherwise the count, most significant bit
first, is loaded into SYMREM, and a count of 0 completes the command with empty results. -/
def Obligations.LenFieldIsRead : Prop :=
  ∀ s : State, s.phase = .dLen → s.Silent → s.regs.runState = .busy → s.regs.inLen.toNat ≤ s.params.ibufCap →
    s.hdrBits = 0 → s.decoder.optr = 0 →
    (s.bitsAhead.length < 32 → ∃ t, step s = .next t ∧ FailedWith .corruptHeader s t) ∧
    (∀ (n : Word) x, n ≠ 0 → s.bitsAhead = bitsOf 32 n.toNat ++ x →
      ∃ t, step s = .next t ∧ t.decoder.symrem = n.toNat ∧ t.phase = .dTree ∧ t.bitsAhead = x ∧
        t.regs = s.regs ∧ t.obuf = s.obuf ∧ t.ibuf = s.ibuf) ∧
    (∀ x, s.bitsAhead = zeros 32 ++ x →
      ∃ t, step s = .next t ∧ t.phase = .none ∧
        t.regs = { runState := .done, err := 0, inLen := s.regs.inLen, outLen := 0, statOrig := 0,
                   statComp := s.regs.inLen, statHdrBits := 0 })

/-- R186, R187, R190. WALK takes one CODE of the tree below ROOT from the bits ahead and returns its leaf's value, or
fails with TRUNCATED_PAYLOAD when they end first. Nothing but the reader and CUR changes. -/
def Obligations.WalkReadsOneCode : Prop :=
  ∀ (s : State) tr, s.regs.inLen.toNat ≤ s.params.ibufCap → s.arena.tree s.arena.root = some tr →
    (∀ v rest, tr.readCode s.bitsAhead = some (v, rest) →
      ∃ t r c, exec .walk s = .next t ∧
        t = { s with reader := r, decoder := { s.decoder with cur := c }, result := .byte v } ∧
        t.bitsAhead = rest ∧ r.rbits + rest.length = s.reader.rbits + s.bitsAhead.length) ∧
    (tr.readCode s.bitsAhead = none → ∃ t, exec .walk s = .next t ∧ FailedWith .truncatedPayload s t)

/-! ## Elements of the stream, as DECODE takes them -/

/-- R85, R193. LEN loads the symbol count and PAD has no effect; nothing else changes. The meaning of an element alone
is the model's choice (notes/assumptions/10.md). -/
def Obligations.LenAndPadElements : Prop :=
  (∀ (s : State) (n : Word), exec (.len n) s = .next { s with decoder := { s.decoder with symrem := n.toNat } }) ∧
  (∀ (s : State) k, exec (.pad k) s = .next s)

/-- R86, R142, R144, R146. TREE_LEAF allocates the next entry for a leaf with its value, writing no weight and no other
entry; a 512th node is CORRUPT_HEADER. The meaning of an element alone is the model's choice
(notes/assumptions/10.md). -/
def Obligations.TreeLeafElement : Prop :=
  ∀ (s : State) v,
    (∀ h : s.arena.nodeCnt.val < 511, let i : NodeId := ⟨s.arena.nodeCnt.val, h⟩
      ∃ t a d, exec (.treeLeaf v) s = .next t ∧ t = { s with arena := a, draws := d, result := .node i } ∧
        a.node[i].leaf = true ∧ a.node[i].value = v ∧ a.node[i].weight = s.arena.node[i].weight ∧
        a.nodeCnt.val = s.arena.nodeCnt.val + 1 ∧ a.root = s.arena.root ∧
        ∀ j : NodeId, j ≠ i → a.node[j] = s.arena.node[j]) ∧
    (s.arena.nodeCnt.val = 511 → ∃ t, exec (.treeLeaf v) s = .next t ∧ FailedWith .corruptHeader s t)

/-- R87, R88, R142, R145, R146. TREE_NODE allocates the next entry and reads the two subtrees that follow; below its id
the tree is `Node(l, r)`, the reader stands after them, and nothing but the reader and the new entries changes. It fails
with CORRUPT_HEADER exactly when no two subtrees follow for whose nodes there is room. The meaning of an element alone is
the model's choice (notes/assumptions/10.md). -/
def Obligations.TreeNodeElement : Prop :=
  (∀ (s : State) (l r : ByteTree) (x : Bits), s.regs.inLen.toNat ≤ s.params.ibufCap →
    s.bitsAhead = l.ser ++ r.ser ++ x → s.arena.nodeCnt.val + (ByteTree.node l r).size ≤ 511 →
    ∃ t rd a d i, exec .treeNode s = .next t ∧
      t = { s with reader := rd, arena := a, draws := d, result := .node i } ∧
      i.val = s.arena.nodeCnt.val ∧ a.tree i = some (.node l r) ∧
      a.nodeCnt.val = s.arena.nodeCnt.val + (ByteTree.node l r).size ∧ a.root = s.arena.root ∧ t.bitsAhead = x ∧
      ∀ j : NodeId, j.val < s.arena.nodeCnt.val ∨ a.nodeCnt.val ≤ j.val → a.node[j] = s.arena.node[j]) ∧
  (∀ s : State, s.regs.inLen.toNat ≤ s.params.ibufCap →
    ((∃ t, exec .treeNode s = .next t ∧ FailedWith .corruptHeader s t) ↔
      ¬ ∃ l r : ByteTree, s.arena.nodeCnt.val + (ByteTree.node l r).size ≤ 511 ∧ l.ser ++ r.ser <+: s.bitsAhead))

/-- R90, R185, R188, R191. CODE emits the value of the leaf it leads to at `OBUF[OPTR]` while symbols remain, or fails
with OUTPUT_OVERFLOW when it does not fit; no other byte and nothing but OPTR and SYMREM changes. The meaning of an
element alone is the model's choice (notes/assumptions/10.md). -/
def Obligations.CodeElement : Prop :=
  ∀ (s : State) tr c v, s.arena.tree s.arena.root = some tr → tr.readCode c = some (v, []) → 0 < s.decoder.symrem →
    (s.decoder.optr < s.params.obufCap →
      ∃ t m, exec (.code c) s = .next t ∧
        t = { s with obuf := m, result := .nothing, decoder := { s.decoder with
          optr := s.decoder.optr + 1, symrem := s.decoder.symrem - 1 } } ∧
        t.obufByte s.decoder.optr = v ∧ ∀ a, a ≠ s.decoder.optr → t.obufByte a = s.obufByte a) ∧
    (s.params.obufCap ≤ s.decoder.optr → ∃ t, exec (.code c) s = .next t ∧ FailedWith .outputOverflow s t)

/-- R145, R182, R189, R190, R193, R97. Bits that are no element where they stand: an element that LEN's or the tree's place
cuts short is CORRUPT_HEADER, one that the payload cuts short is TRUNCATED_PAYLOAD; after the last symbol, and at PAD's
place, whatever stands there has no effect. Only two codes given as one, and an identifier that names no operation, are
refused. The meaning of an element alone is the model's choice (notes/assumptions/10.md, 26.md, 27.md). -/
def Obligations.ElementsCutShort : Prop :=
  ∀ s : State,
    (∀ bs : Bits, bs.length < 32 →
      ∃ t, step (s.doing (.element .len bs)) = .next t ∧ FailedWith .corruptHeader s t) ∧
    (∀ bs : Bits, (bs = [] ∨ ∃ v, bs = true :: v ∧ v.length < 8) →
      ∃ t, step (s.doing (.element .tree bs)) = .next t ∧ FailedWith .corruptHeader s t) ∧
    (∀ tr bs, 0 < s.decoder.symrem → s.arena.tree s.arena.root = some tr → tr.readCode bs = none →
      ∃ t, step (s.doing (.element .payload bs)) = .next t ∧ exec (.code bs) s = .next t ∧
        FailedWith .truncatedPayload s t) ∧
    (∀ bs, s.decoder.symrem = 0 →
      step (s.doing (.element .payload bs)) = .next s ∧ exec (.code bs) s = .next s) ∧
    (∀ bs, step (s.doing (.element .pad bs)) = .next s) ∧
    (∀ tr bs v b rest, 0 < s.decoder.symrem → s.arena.tree s.arena.root = some tr →
      tr.readCode bs = some (v, b :: rest) → exec (.code bs) s = .refused .notASymbol) ∧
    (∀ c : UopCall, 13 ≤ c.op.toNat → step (s.doing (.call c)) = .refused .unusedOperation)

/-! ## The encoding -/

/-- Every well-formed instruction is the decoding of its encoding, at any place it can stand; an element is told from
what follows it by its own bits (R82, R85 to R91, R97, R99). -/
def Obligations.DecodeInvertsEncode : Prop :=
  (∀ (i : Instr) (p : Place), i.wf = true → p.Admits i → decode p (encode i) = .ok (i, [])) ∧
  (∀ (i : Instr) (p : Place) (bs x : Bits), i.wf = true → p.Admits i → p ≠ .pad → encode i = .element bs →
    decodeElement p (bs ++ x) = .ok (i, x))

/-- R88. The tree section is self-delimiting: `ser(t)` and anything after it reads back as `t`, and what is left is what
was after it. -/
def Obligations.TreeSectionIsSelfDelimiting : Prop :=
  ∀ (t : ByteTree) (x : Bits), t.size ≤ 511 → readTreeSection (t.ser ++ x) = some (t, x)

/-- Words written out from R82, R86, R97: the three command words, a reserved one, identifiers of operations, and a
TREE_LEAF. The numbering of the nine bits is the model's choice (notes/assumptions/19.md). -/
def Obligations.TableWordsDecode : Prop :=
  decodeTableWord 32 0x00000000 = some .nop ∧ decodeTableWord 32 0x00000001 = some .encode ∧
  decodeTableWord 32 0x00000002 = some .decode ∧ decodeTableWord 32 0x80000001 = none ∧
  decodeTableWord 8 0x0 = some .count ∧ decodeTableWord 8 0x7 = some .flush ∧
  decodeTableWord 8 0xC = some .walk ∧ decodeTableWord 8 0xD = none ∧
  decodeTableWord 16 0b101100001 = some (.treeLeaf 0x61)

/-- A step runs the instruction its turn decodes to: a CTRL write its command word, a call its identifier, an element
its bits at their place, and `withFetchWord` the instruction `decodeTableWord` gives. What a turn is, is the model's
choice (notes/assumptions/5.md, 9.md). -/
def Obligations.StepRunsDecoded : Prop :=
  (∀ (s : State) w i, decodeCommand w = .ok i → step (s.doing (.host (.writeReg 0 32 w))) = exec i s) ∧
  (∀ (s : State) c i, decodeCall c = .ok i → step (s.doing (.call c)) = exec i s) ∧
  (∀ (s : State) k p bs i x, placeIn k s = some p → decodeElement p bs = .ok (i, x) →
    step (s.doing (.element k bs)) = exec i s) ∧
  (∀ (s : State) nbits w i, decodeTableWord nbits w = some i → step (s.withFetchWord nbits w) = exec i s)

/-! ## The commands as functions -/

/-- R173. ENCODE of a checked input, the host silent: it ends in DONE with `encode(d)` in OBUF and its statistics, or,
when that does not fit, in ERROR with code 5; IBUF and IN_LEN are unchanged. -/
def Obligations.EncodeComputesEncode : Prop :=
  ∀ s : State, s.params.Legal → s.regs.runState ≠ .busy → s.Silent → s.regs.inLen.toNat ≤ s.params.ibufCap →
    let d := s.input
    let e := Reference.encodeBytes d
    ∃ s₀ k t, exec .encode s = .next s₀ ∧ runSteps k s₀ = .next t ∧ t.phase = .none ∧
      t.ibuf = s.ibuf ∧ t.regs.inLen = s.regs.inLen ∧
      (e.length ≤ s.params.obufCap →
        t.regs.runState = .done ∧ t.regs.err = 0 ∧ t.regs.outLen.toNat = e.length ∧ t.output e.length = e ∧
        t.regs.statOrig = s.regs.inLen ∧ t.regs.statComp = t.regs.outLen ∧
        t.regs.statHdrBits.toNat = (match Reference.huffmanTree d with
          | none => 0
          | some tr => tr.ser.length)) ∧
      (s.params.obufCap < e.length → t.regs.runState = .error ∧ t.regs.err = 5 ∧ t.regs.outLen = 0)

/-- R194. DECODE of a checked stream, the host silent: it ends as `decode(s)` says, in DONE with the output in OBUF and
its statistics, or in ERROR with the code it names. -/
def Obligations.DecodeComputesDecode : Prop :=
  ∀ s : State, s.params.Legal → s.regs.runState ≠ .busy → s.Silent → s.regs.inLen.toNat ≤ s.params.ibufCap →
    ∃ s₀ k t, exec .decode s = .next s₀ ∧ runSteps k s₀ = .next t ∧ t.phase = .none ∧
      t.ibuf = s.ibuf ∧ t.regs.inLen = s.regs.inLen ∧
      (∀ out, Reference.decodeBytes s.params.obufCap s.input = .ok out →
        t.regs.runState = .done ∧ t.regs.err = 0 ∧ t.regs.outLen.toNat = out.length ∧ t.output out.length = out ∧
        t.regs.statOrig = t.regs.outLen ∧ t.regs.statComp = s.regs.inLen ∧
        (out = [] → t.regs.statHdrBits = 0) ∧
        (∀ tr payload, out ≠ [] → readTreeSection ((unpack s.input).drop 32) = some (tr, payload) →
          t.regs.statHdrBits.toNat = tr.ser.length)) ∧
      (∀ e, Reference.decodeBytes s.params.obufCap s.input = .error e →
        t.regs.runState = .error ∧ t.regs.err = e.errCode ∧ t.regs.outLen = 0)

/-- R195. Round trip: DECODE of the encoding of any byte sequence that fits ends in DONE with that sequence. -/
def Obligations.RoundTrip : Prop :=
  ∀ (s : State) (d : List Byte), s.params.Legal → s.regs.runState ≠ .busy → s.Silent →
    d.length ≤ s.params.ibufCap → d.length ≤ s.params.obufCap →
    (Reference.encodeBytes d).length ≤ s.params.ibufCap → (Reference.encodeBytes d).length ≤ s.params.obufCap →
    s.input = Reference.encodeBytes d →
    ∃ s₀ k t, exec .decode s = .next s₀ ∧ runSteps k s₀ = .next t ∧
      t.regs.runState = .done ∧ t.regs.outLen.toNat = d.length ∧ t.output d.length = d

/-- R219. The errors each command can end with, the host silent: ENCODE only OUTPUT_OVERFLOW and BAD_LENGTH, DECODE only
CORRUPT_HEADER, TRUNCATED_PAYLOAD, OUTPUT_OVERFLOW and BAD_LENGTH; a reserved command word only ILLEGAL_CMD; and an
ENCODE whose input fits IBUF and whose OBUF has the size of R175 with none. -/
def Obligations.CommandErrors : Prop :=
  ∀ s : State, s.params.Legal → s.regs.runState ≠ .busy → s.Silent →
    (∀ s₀ k t, exec .encode s = .next s₀ → runSteps k s₀ = .next t → t.regs.err ∈ [0#4, 5#4, 7#4]) ∧
    (∀ s₀ k t, exec .decode s = .next s₀ → runSteps k s₀ = .next t → t.regs.err ∈ [0#4, 2#4, 4#4, 5#4, 7#4]) ∧
    (∀ k t, runSteps k (startIllegal s) = .next t → t.regs.err ∈ [0#4, 6#4]) ∧
    (s.regs.inLen.toNat ≤ s.params.ibufCap → 4 + (2559 + 255 * s.regs.inLen.toNat + 7) / 8 ≤ s.params.obufCap →
      ∀ s₀ k t, exec .encode s = .next s₀ → runSteps k s₀ = .next t → t.regs.err = 0)

/-- R46, R210. What a command ends with depends on nothing but its input, its word and the two capacities: from two
states that agree in these, the host silent, ENCODE, and DECODE, ends with the same registers and the same result,
whatever the internal state, the output buffer and the last results were. -/
def Obligations.ResultDependsOnInputOnly : Prop :=
  ∀ s s' : State, s.params.Legal → s'.params.ibufCap = s.params.ibufCap → s'.params.obufCap = s.params.obufCap →
    s.regs.runState ≠ .busy → s'.regs.runState ≠ .busy → s.Silent → s'.Silent → s'.regs.inLen = s.regs.inLen →
    (∀ a, a < s.regs.inLen.toNat → s'.ibufByte a = s.ibufByte a) →
    ∀ i, i = Instr.encode ∨ i = Instr.decode →
      ∃ s₀ s₀' k k' t t', exec i s = .next s₀ ∧ exec i s' = .next s₀' ∧ runSteps k s₀ = .next t ∧
        runSteps k' s₀' = .next t' ∧ t.phase = .none ∧ t'.phase = .none ∧ t'.regs = t.regs ∧
        t'.output t.regs.outLen.toNat = t.output t.regs.outLen.toNat

/-- R92, R93. The stream of the empty input is four zero bytes, an empty stream is not valid; the stream of one repeated
value is LEN, one leaf and a zero bit for each symbol. -/
def Obligations.DegenerateStreams : Prop :=
  Reference.encodeBytes [] = [0, 0, 0, 0] ∧
  (∀ cap, Reference.decodeBytes cap [] = .error .corruptHeader) ∧
  (∀ cap, Reference.decodeBytes cap [0, 0, 0, 0] = .ok []) ∧
  (∀ n (v : Byte), 1 ≤ n →
    Reference.encodeBytes (List.replicate n v) =
      let b := bitsOf 32 n ++ true :: bitsOf 8 v.toNat ++ zeros n
      pack (b ++ zeros ((8 - b.length % 8) % 8)))

/-- R94. The size of a stream: LEN, a tree section of `10n - 1` bits and the codes of the input, in whole bytes. -/
def Obligations.StreamSize : Prop :=
  Reference.encodeBytes [] = [0, 0, 0, 0] ∧
  ∀ d : List Byte, d ≠ [] → ∃ tr, Reference.huffmanTree d = some tr ∧
    (Reference.encodeBytes d).length =
      (32 + (10 * (Reference.present d).length - 1) +
        ((Reference.present d).map fun v => d.count v * ((Reference.codeOf tr v).getD []).length).sum + 7) / 8

/-- R196. A stream that decodes to `N > 0` bytes has at least 32 + 9 + N bits. -/
def Obligations.DecodeIsBounded : Prop :=
  ∀ cap (stream out : List Byte), Reference.decodeBytes cap stream = .ok out → out ≠ [] →
    32 + 9 + out.length ≤ 8 * stream.length

/-- R197. Truncation is detected: a stream cut inside LEN or the tree section is CORRUPT_HEADER, cut later
TRUNCATED_PAYLOAD, provided the output buffer holds the input. -/
def Obligations.TruncationIsDetected : Prop :=
  (∀ cap k, k < 4 → Reference.decodeBytes cap ((Reference.encodeBytes []).take k) = .error .corruptHeader) ∧
  ∀ (d : List Byte) cap k, d ≠ [] → d.length < 2 ^ 32 → d.length ≤ cap →
    let header := (32 + (10 * (Reference.present d).length - 1) + 7) / 8
    (k < header → Reference.decodeBytes cap ((Reference.encodeBytes d).take k) = .error .corruptHeader) ∧
    (header ≤ k → k < (Reference.encodeBytes d).length →
      Reference.decodeBytes cap ((Reference.encodeBytes d).take k) = .error .truncatedPayload)

/-! ## The machine as a whole -/

/-- The invariant holds at reset, for every legal choice of the parameters. The internal state there is the model's
choice (notes/assumptions/3.md). -/
def Obligations.ResetMeetsInvariant : Prop :=
  (∀ p : Config.Params, p.Legal → (State.resetWith p).Inv) ∧ State.reset.Inv

/-- Every step keeps the invariant: STATUS, PHASE and the result registers agree; the buffers stay canonical and inside
their capacities; the writer, the reader and the counters stay in their ranges. -/
def Obligations.StepKeepsInvariant : Prop :=
  ∀ s t : State, s.Inv → step s = .next t → t.Inv

/-- R44. From a state of the invariant a step leaves PHASE, moves it to a successor of its phase, or ends the command. -/
def Obligations.PhaseOnlyAdvances : Prop :=
  ∀ s t : State, s.Inv → step s = .next t → t.phase = s.phase ∨ t.phase = .none ∨ t.phase ∈ s.phase.successors

/-- R21, R23. Only a host write of CTRL, by number or by system address, makes the engine BUSY; only RESET makes it
IDLE; only a move of the engine with a command running, made in a WAIT or without one, ends in DONE; only such a move,
or an operation or an element run alone (the model's own turns, notes/assumptions/9.md), ends in ERROR. -/
def Obligations.StateTransitions : Prop :=
  ∀ s t : State, step s = .next t → t.regs.runState ≠ s.regs.runState →
    (t.regs.runState = .busy → s.regs.runState ≠ .busy ∧
      ∃ rest v, s.script = .host (.writeReg 0 32 v) :: rest ∨
        s.script = .host (.busWrite s.params.regBase 32 v) :: rest) ∧
    (t.regs.runState = .idle → ∃ rest, s.script = .host .reset :: rest) ∧
    (t.regs.runState = .done → s.phase ≠ .none ∧
      (s.script = [] ∨ ∃ rest, s.script = .engine :: rest ∨ s.script = .host .wait :: rest)) ∧
    (t.regs.runState = .error →
      (s.phase ≠ .none ∧
        (s.script = [] ∨ ∃ rest, s.script = .engine :: rest ∨ s.script = .host .wait :: rest)) ∨
      ∃ rest, (∃ c, s.script = .call c :: rest) ∨ ∃ k bs, s.script = .element k bs :: rest)

/-- R25, R31, R8. The engine writes neither IBUF nor IN_LEN, and nothing writes the parameters: a step changes IBUF only
when the host writes one of its bytes outside BUSY, and IN_LEN only when the host writes it outside BUSY or resets. -/
def Obligations.InputsBelongToTheHost : Prop :=
  ∀ s t : State, step s = .next t → t.params = s.params ∧
    (t.ibuf ≠ s.ibuf → s.regs.runState ≠ .busy ∧ ∃ a rest, a < s.params.ibufCap ∧
      ((∃ v, s.script = .host (.writeIbuf a v) :: rest) ∨
        ∃ v, s.script = .host (.busWrite (s.params.ibufBase + a) 8 v) :: rest)) ∧
    (t.regs.inLen ≠ s.regs.inLen → (∃ rest, s.script = .host .reset :: rest) ∨
      s.regs.runState ≠ .busy ∧ ∃ v rest, s.script = .host (.writeReg 2 32 v) :: rest ∨
        s.script = .host (.busWrite (s.params.regBase + 8) 32 v) :: rest)

/-- R71. An idle engine does nothing: with no command running and a silent host, a step changes nothing. -/
def Obligations.IdleEngineRests : Prop :=
  ∀ s : State, s.phase = .none → s.Silent → step s = .next s
end

