-- ==== Sys2Proof/Laws/Bits.lean ====
section
/-! SUPPORT. Bit sequences: lengths, the value of `bits_n`, packing and unpacking. -/

namespace Sys2Proof

@[simp] theorem length_bitsOf (n v : Nat) : (bitsOf n v).length = n := by
  induction n with
  | zero => rfl
  | succ n ih => simp [bitsOf, ih]

@[simp] theorem length_zeros (k : Nat) : (zeros k).length = k := List.length_replicate

theorem bitsOf_zero (n : Nat) : bitsOf n 0 = zeros n := by
  induction n with
  | zero => rfl
  | succ n ih => simp [bitsOf, ih, zeros, List.replicate_succ]

theorem valueFrom_append (v : Nat) (xs ys : Bits) : valueFrom v (xs ++ ys) = valueFrom (valueFrom v xs) ys := by
  induction xs generalizing v with
  | nil => rfl
  | cons x xs ih => simp [valueFrom, ih]

theorem valueFrom_eq (v : Nat) (bs : Bits) : valueFrom v bs = v * 2 ^ bs.length + valueOf bs := by
  induction bs generalizing v with
  | nil => simp [valueFrom, valueOf]
  | cons b bs ih =>
    simp only [valueOf, valueFrom, List.length_cons]
    rw [ih, ih (2 * 0 + b.toNat), Nat.pow_succ]
    ring

theorem valueOf_cons (b : Bool) (bs : Bits) : valueOf (b :: bs) = b.toNat * 2 ^ bs.length + valueOf bs := by
  rw [valueOf, valueFrom, valueFrom_eq]
  simp

theorem valueOf_lt (bs : Bits) : valueOf bs < 2 ^ bs.length := by
  induction bs with
  | nil => simp [valueOf, valueFrom]
  | cons b bs ih =>
    rw [valueOf_cons, List.length_cons, Nat.pow_succ]
    cases b <;> simp <;> omega

/-- Reading back `bits_n(v)` gives the `n` low bits of `v`. -/
theorem valueOf_bitsOf (n v : Nat) : valueOf (bitsOf n v) = v % 2 ^ n := by
  induction n with
  | zero => simp [bitsOf, valueOf, valueFrom, Nat.mod_one]
  | succ n ih =>
    rw [bitsOf, valueOf_cons, ih, length_bitsOf, Nat.mod_pow_succ, Nat.testBit_eq_decide_div_mod_eq]
    rcases Nat.mod_two_eq_zero_or_one (v / 2 ^ n) with h | h
    · simp [h]
    · simp [h]; ring

/-- Writing the value of a bit sequence gives the sequence back. -/
theorem bitsOf_valueOf (bs : Bits) : bitsOf bs.length (valueOf bs) = bs := by
  have key : ∀ (bs : Bits) (k : Nat), bitsOf bs.length (k * 2 ^ bs.length + valueOf bs) = bs := by
    intro bs
    induction bs with
    | nil => intro k; rfl
    | cons b bs ih =>
      intro k
      have hlt := valueOf_lt bs
      have e : k * 2 ^ (b :: bs).length + valueOf (b :: bs) = (2 * k + b.toNat) * 2 ^ bs.length + valueOf bs := by
        rw [valueOf_cons, List.length_cons, Nat.pow_succ]
        ring
      rw [e, List.length_cons, bitsOf, ih, Nat.testBit_eq_decide_div_mod_eq]
      have hd : ((2 * k + b.toNat) * 2 ^ bs.length + valueOf bs) / 2 ^ bs.length = 2 * k + b.toNat := by
        rw [Nat.mul_comm, Nat.mul_add_div (Nat.two_pow_pos _), Nat.div_eq_of_lt hlt, Nat.add_zero]
      rw [hd]
      cases b <;> simp
  simpa using key bs 0

/-- A byte is the value of its eight bits. -/
theorem byte_of_bits (v : Byte) : BitVec.ofNat 8 (valueOf (bitsOf 8 v.toNat)) = v := by
  rw [valueOf_bitsOf]
  apply BitVec.eq_of_toNat_eq
  simp [v.isLt]

@[simp] theorem unpack_nil : unpack [] = [] := rfl

@[simp] theorem unpack_cons (b : Byte) (bs : List Byte) : unpack (b :: bs) = bitsOf 8 b.toNat ++ unpack bs := rfl

@[simp] theorem unpack_append (xs ys : List Byte) : unpack (xs ++ ys) = unpack xs ++ unpack ys := by
  simp [unpack]

@[simp] theorem length_unpack (bs : List Byte) : (unpack bs).length = 8 * bs.length := by
  induction bs with
  | nil => rfl
  | cons b bs ih => simp [ih]; omega

/-- `pack` takes the first eight bits as one byte. -/
theorem pack_append (x y : Bits) (h : x.length = 8) : pack (x ++ y) = BitVec.ofNat 8 (valueOf x) :: pack y := by
  match x, h with
  | [_, _, _, _, _, _, _, _], _ => rfl

/-- `pack` is the inverse of `unpack` (00_scope.md R10). -/
theorem pack_unpack (bs : List Byte) : pack (unpack bs) = bs := by
  induction bs with
  | nil => rfl
  | cons b bs ih => rw [unpack_cons, pack_append _ _ (length_bitsOf _ _), byte_of_bits, ih]

/-- `unpack` is the inverse of `pack` on whole bytes (00_scope.md R10). -/
theorem unpack_pack (n : Nat) : ∀ s : Bits, s.length = 8 * n → unpack (pack s) = s := by
  induction n with
  | zero => intro s h; rw [List.length_eq_zero_iff.mp h]; rfl
  | succ n ih =>
    intro s h
    have ht : (s.take 8).length = 8 := by rw [List.length_take]; omega
    have hd : (s.drop 8).length = 8 * n := by rw [List.length_drop]; omega
    rw [← List.take_append_drop 8 s, pack_append _ _ ht, unpack_cons, ih _ hd]
    congr 1
    have hv : (BitVec.ofNat 8 (valueOf (s.take 8))).toNat = valueOf (s.take 8) := by
      have := valueOf_lt (s.take 8)
      rw [ht] at this
      simp only [BitVec.toNat_ofNat]
      exact Nat.mod_eq_of_lt this
    rw [hv]
    have := bitsOf_valueOf (s.take 8)
    rwa [ht] at this

theorem padLength_fills (n : Nat) : (n + padLength n) % 8 = 0 := by
  unfold padLength
  omega

end Sys2Proof
end

