-- ==== Sys2Proof/Laws/State.lean ====
section
/-! SUPPORT. One lemma per field of State for every named update of it, true by rfl, so that no later proof unfolds an
update. -/

namespace Sys2Proof.Machine

variable (s : State)

/-! ### setPhase -/

@[simp] theorem setPhase_params (p : Phase) : (setPhase p s).params = s.params := rfl
@[simp] theorem setPhase_regs (p : Phase) : (setPhase p s).regs = s.regs := rfl
@[simp] theorem setPhase_ibuf (p : Phase) : (setPhase p s).ibuf = s.ibuf := rfl
@[simp] theorem setPhase_obuf (p : Phase) : (setPhase p s).obuf = s.obuf := rfl
@[simp] theorem setPhase_phase (p : Phase) : (setPhase p s).phase = p := rfl
@[simp] theorem setPhase_freq (p : Phase) : (setPhase p s).freq = s.freq := rfl
@[simp] theorem setPhase_arena (p : Phase) : (setPhase p s).arena = s.arena := rfl
@[simp] theorem setPhase_pq (p : Phase) : (setPhase p s).pq = s.pq := rfl
@[simp] theorem setPhase_code (p : Phase) : (setPhase p s).code = s.code := rfl
@[simp] theorem setPhase_writer (p : Phase) : (setPhase p s).writer = s.writer := rfl
@[simp] theorem setPhase_reader (p : Phase) : (setPhase p s).reader = s.reader := rfl
@[simp] theorem setPhase_decoder (p : Phase) : (setPhase p s).decoder = s.decoder := rfl
@[simp] theorem setPhase_eidx (p : Phase) : (setPhase p s).eidx = s.eidx := rfl
@[simp] theorem setPhase_hdrBits (p : Phase) : (setPhase p s).hdrBits = s.hdrBits := rfl
@[simp] theorem setPhase_result (p : Phase) : (setPhase p s).result = s.result := rfl
@[simp] theorem setPhase_draws (p : Phase) : (setPhase p s).draws = s.draws := rfl
@[simp] theorem setPhase_epoch (p : Phase) : (setPhase p s).epoch = s.epoch := rfl
@[simp] theorem setPhase_script (p : Phase) : (setPhase p s).script = s.script := rfl
@[simp] theorem setPhase_reads (p : Phase) : (setPhase p s).reads = s.reads := rfl

/-! ### logRead -/

@[simp] theorem logRead_params (r : HostRead) : (logRead r s).params = s.params := rfl
@[simp] theorem logRead_regs (r : HostRead) : (logRead r s).regs = s.regs := rfl
@[simp] theorem logRead_ibuf (r : HostRead) : (logRead r s).ibuf = s.ibuf := rfl
@[simp] theorem logRead_obuf (r : HostRead) : (logRead r s).obuf = s.obuf := rfl
@[simp] theorem logRead_phase (r : HostRead) : (logRead r s).phase = s.phase := rfl
@[simp] theorem logRead_freq (r : HostRead) : (logRead r s).freq = s.freq := rfl
@[simp] theorem logRead_arena (r : HostRead) : (logRead r s).arena = s.arena := rfl
@[simp] theorem logRead_pq (r : HostRead) : (logRead r s).pq = s.pq := rfl
@[simp] theorem logRead_code (r : HostRead) : (logRead r s).code = s.code := rfl
@[simp] theorem logRead_writer (r : HostRead) : (logRead r s).writer = s.writer := rfl
@[simp] theorem logRead_reader (r : HostRead) : (logRead r s).reader = s.reader := rfl
@[simp] theorem logRead_decoder (r : HostRead) : (logRead r s).decoder = s.decoder := rfl
@[simp] theorem logRead_eidx (r : HostRead) : (logRead r s).eidx = s.eidx := rfl
@[simp] theorem logRead_hdrBits (r : HostRead) : (logRead r s).hdrBits = s.hdrBits := rfl
@[simp] theorem logRead_result (r : HostRead) : (logRead r s).result = s.result := rfl
@[simp] theorem logRead_draws (r : HostRead) : (logRead r s).draws = s.draws := rfl
@[simp] theorem logRead_epoch (r : HostRead) : (logRead r s).epoch = s.epoch := rfl
@[simp] theorem logRead_script (r : HostRead) : (logRead r s).script = s.script := rfl
@[simp] theorem logRead_reads (r : HostRead) : (logRead r s).reads = r :: s.reads := rfl

/-! ### pqInsert -/

@[simp] theorem pqInsert_params (i : NodeId) : (pqInsert i s).params = s.params := rfl
@[simp] theorem pqInsert_regs (i : NodeId) : (pqInsert i s).regs = s.regs := rfl
@[simp] theorem pqInsert_ibuf (i : NodeId) : (pqInsert i s).ibuf = s.ibuf := rfl
@[simp] theorem pqInsert_obuf (i : NodeId) : (pqInsert i s).obuf = s.obuf := rfl
@[simp] theorem pqInsert_phase (i : NodeId) : (pqInsert i s).phase = s.phase := rfl
@[simp] theorem pqInsert_freq (i : NodeId) : (pqInsert i s).freq = s.freq := rfl
@[simp] theorem pqInsert_arena (i : NodeId) : (pqInsert i s).arena = s.arena := rfl
@[simp] theorem pqInsert_pq (i : NodeId) : (pqInsert i s).pq = queueInsert i s.pq := rfl
@[simp] theorem pqInsert_code (i : NodeId) : (pqInsert i s).code = s.code := rfl
@[simp] theorem pqInsert_writer (i : NodeId) : (pqInsert i s).writer = s.writer := rfl
@[simp] theorem pqInsert_reader (i : NodeId) : (pqInsert i s).reader = s.reader := rfl
@[simp] theorem pqInsert_decoder (i : NodeId) : (pqInsert i s).decoder = s.decoder := rfl
@[simp] theorem pqInsert_eidx (i : NodeId) : (pqInsert i s).eidx = s.eidx := rfl
@[simp] theorem pqInsert_hdrBits (i : NodeId) : (pqInsert i s).hdrBits = s.hdrBits := rfl
@[simp] theorem pqInsert_result (i : NodeId) : (pqInsert i s).result = s.result := rfl
@[simp] theorem pqInsert_draws (i : NodeId) : (pqInsert i s).draws = s.draws := rfl
@[simp] theorem pqInsert_epoch (i : NodeId) : (pqInsert i s).epoch = s.epoch := rfl
@[simp] theorem pqInsert_script (i : NodeId) : (pqInsert i s).script = s.script := rfl
@[simp] theorem pqInsert_reads (i : NodeId) : (pqInsert i s).reads = s.reads := rfl

/-! ### setFreq -/

@[simp] theorem setFreq_params (b : Byte) (c : Word) : (setFreq b c s).params = s.params := rfl
@[simp] theorem setFreq_regs (b : Byte) (c : Word) : (setFreq b c s).regs = s.regs := rfl
@[simp] theorem setFreq_ibuf (b : Byte) (c : Word) : (setFreq b c s).ibuf = s.ibuf := rfl
@[simp] theorem setFreq_obuf (b : Byte) (c : Word) : (setFreq b c s).obuf = s.obuf := rfl
@[simp] theorem setFreq_phase (b : Byte) (c : Word) : (setFreq b c s).phase = s.phase := rfl
@[simp] theorem setFreq_freq (b : Byte) (c : Word) :
    (setFreq b c s).freq =
      s.freq.set b.toNat c b.isLt := rfl
@[simp] theorem setFreq_arena (b : Byte) (c : Word) : (setFreq b c s).arena = s.arena := rfl
@[simp] theorem setFreq_pq (b : Byte) (c : Word) : (setFreq b c s).pq = s.pq := rfl
@[simp] theorem setFreq_code (b : Byte) (c : Word) : (setFreq b c s).code = s.code := rfl
@[simp] theorem setFreq_writer (b : Byte) (c : Word) : (setFreq b c s).writer = s.writer := rfl
@[simp] theorem setFreq_reader (b : Byte) (c : Word) : (setFreq b c s).reader = s.reader := rfl
@[simp] theorem setFreq_decoder (b : Byte) (c : Word) : (setFreq b c s).decoder = s.decoder := rfl
@[simp] theorem setFreq_eidx (b : Byte) (c : Word) : (setFreq b c s).eidx = s.eidx := rfl
@[simp] theorem setFreq_hdrBits (b : Byte) (c : Word) : (setFreq b c s).hdrBits = s.hdrBits := rfl
@[simp] theorem setFreq_result (b : Byte) (c : Word) : (setFreq b c s).result = s.result := rfl
@[simp] theorem setFreq_draws (b : Byte) (c : Word) : (setFreq b c s).draws = s.draws := rfl
@[simp] theorem setFreq_epoch (b : Byte) (c : Word) : (setFreq b c s).epoch = s.epoch := rfl
@[simp] theorem setFreq_script (b : Byte) (c : Word) : (setFreq b c s).script = s.script := rfl
@[simp] theorem setFreq_reads (b : Byte) (c : Word) : (setFreq b c s).reads = s.reads := rfl

/-! ### setCode -/

@[simp] theorem setCode_params (v : Byte) (path : Bits) : (setCode v path s).params = s.params := rfl
@[simp] theorem setCode_regs (v : Byte) (path : Bits) : (setCode v path s).regs = s.regs := rfl
@[simp] theorem setCode_ibuf (v : Byte) (path : Bits) : (setCode v path s).ibuf = s.ibuf := rfl
@[simp] theorem setCode_obuf (v : Byte) (path : Bits) : (setCode v path s).obuf = s.obuf := rfl
@[simp] theorem setCode_phase (v : Byte) (path : Bits) : (setCode v path s).phase = s.phase := rfl
@[simp] theorem setCode_freq (v : Byte) (path : Bits) : (setCode v path s).freq = s.freq := rfl
@[simp] theorem setCode_arena (v : Byte) (path : Bits) : (setCode v path s).arena = s.arena := rfl
@[simp] theorem setCode_pq (v : Byte) (path : Bits) : (setCode v path s).pq = s.pq := rfl
@[simp] theorem setCode_code (v : Byte) (path : Bits) :
    (setCode v path s).code =
      s.code.set v.toNat path v.isLt := rfl
@[simp] theorem setCode_writer (v : Byte) (path : Bits) : (setCode v path s).writer = s.writer := rfl
@[simp] theorem setCode_reader (v : Byte) (path : Bits) : (setCode v path s).reader = s.reader := rfl
@[simp] theorem setCode_decoder (v : Byte) (path : Bits) : (setCode v path s).decoder = s.decoder := rfl
@[simp] theorem setCode_eidx (v : Byte) (path : Bits) : (setCode v path s).eidx = s.eidx := rfl
@[simp] theorem setCode_hdrBits (v : Byte) (path : Bits) : (setCode v path s).hdrBits = s.hdrBits := rfl
@[simp] theorem setCode_result (v : Byte) (path : Bits) : (setCode v path s).result = s.result := rfl
@[simp] theorem setCode_draws (v : Byte) (path : Bits) : (setCode v path s).draws = s.draws := rfl
@[simp] theorem setCode_epoch (v : Byte) (path : Bits) : (setCode v path s).epoch = s.epoch := rfl
@[simp] theorem setCode_script (v : Byte) (path : Bits) : (setCode v path s).script = s.script := rfl
@[simp] theorem setCode_reads (v : Byte) (path : Bits) : (setCode v path s).reads = s.reads := rfl

/-! ### setCur -/

@[simp] theorem setCur_params (i : NodeId) : (setCur i s).params = s.params := rfl
@[simp] theorem setCur_regs (i : NodeId) : (setCur i s).regs = s.regs := rfl
@[simp] theorem setCur_ibuf (i : NodeId) : (setCur i s).ibuf = s.ibuf := rfl
@[simp] theorem setCur_obuf (i : NodeId) : (setCur i s).obuf = s.obuf := rfl
@[simp] theorem setCur_phase (i : NodeId) : (setCur i s).phase = s.phase := rfl
@[simp] theorem setCur_freq (i : NodeId) : (setCur i s).freq = s.freq := rfl
@[simp] theorem setCur_arena (i : NodeId) : (setCur i s).arena = s.arena := rfl
@[simp] theorem setCur_pq (i : NodeId) : (setCur i s).pq = s.pq := rfl
@[simp] theorem setCur_code (i : NodeId) : (setCur i s).code = s.code := rfl
@[simp] theorem setCur_writer (i : NodeId) : (setCur i s).writer = s.writer := rfl
@[simp] theorem setCur_reader (i : NodeId) : (setCur i s).reader = s.reader := rfl
@[simp] theorem setCur_decoder (i : NodeId) : (setCur i s).decoder = { s.decoder with cur := i } := rfl
@[simp] theorem setCur_eidx (i : NodeId) : (setCur i s).eidx = s.eidx := rfl
@[simp] theorem setCur_hdrBits (i : NodeId) : (setCur i s).hdrBits = s.hdrBits := rfl
@[simp] theorem setCur_result (i : NodeId) : (setCur i s).result = s.result := rfl
@[simp] theorem setCur_draws (i : NodeId) : (setCur i s).draws = s.draws := rfl
@[simp] theorem setCur_epoch (i : NodeId) : (setCur i s).epoch = s.epoch := rfl
@[simp] theorem setCur_script (i : NodeId) : (setCur i s).script = s.script := rfl
@[simp] theorem setCur_reads (i : NodeId) : (setCur i s).reads = s.reads := rfl

/-! ### clearAcc -/

@[simp] theorem clearAcc_params : (clearAcc s).params = s.params := rfl
@[simp] theorem clearAcc_regs : (clearAcc s).regs = s.regs := rfl
@[simp] theorem clearAcc_ibuf : (clearAcc s).ibuf = s.ibuf := rfl
@[simp] theorem clearAcc_obuf : (clearAcc s).obuf = s.obuf := rfl
@[simp] theorem clearAcc_phase : (clearAcc s).phase = s.phase := rfl
@[simp] theorem clearAcc_freq : (clearAcc s).freq = s.freq := rfl
@[simp] theorem clearAcc_arena : (clearAcc s).arena = s.arena := rfl
@[simp] theorem clearAcc_pq : (clearAcc s).pq = s.pq := rfl
@[simp] theorem clearAcc_code : (clearAcc s).code = s.code := rfl
@[simp] theorem clearAcc_writer : (clearAcc s).writer = { s.writer with wacc := 0, wcnt := 0 } := rfl
@[simp] theorem clearAcc_reader : (clearAcc s).reader = s.reader := rfl
@[simp] theorem clearAcc_decoder : (clearAcc s).decoder = s.decoder := rfl
@[simp] theorem clearAcc_eidx : (clearAcc s).eidx = s.eidx := rfl
@[simp] theorem clearAcc_hdrBits : (clearAcc s).hdrBits = s.hdrBits := rfl
@[simp] theorem clearAcc_result : (clearAcc s).result = s.result := rfl
@[simp] theorem clearAcc_draws : (clearAcc s).draws = s.draws := rfl
@[simp] theorem clearAcc_epoch : (clearAcc s).epoch = s.epoch := rfl
@[simp] theorem clearAcc_script : (clearAcc s).script = s.script := rfl
@[simp] theorem clearAcc_reads : (clearAcc s).reads = s.reads := rfl

/-! ### endSession -/

@[simp] theorem endSession_params : (endSession s).params = s.params := rfl
@[simp] theorem endSession_regs : (endSession s).regs = s.regs := rfl
@[simp] theorem endSession_ibuf : (endSession s).ibuf = s.ibuf := rfl
@[simp] theorem endSession_obuf : (endSession s).obuf = s.obuf := rfl
@[simp] theorem endSession_phase : (endSession s).phase = s.phase := rfl
@[simp] theorem endSession_freq : (endSession s).freq = s.freq := rfl
@[simp] theorem endSession_arena : (endSession s).arena = s.arena := rfl
@[simp] theorem endSession_pq : (endSession s).pq = s.pq := rfl
@[simp] theorem endSession_code : (endSession s).code = s.code := rfl
@[simp] theorem endSession_writer : (endSession s).writer = { s.writer with flushed := true } := rfl
@[simp] theorem endSession_reader : (endSession s).reader = s.reader := rfl
@[simp] theorem endSession_decoder : (endSession s).decoder = s.decoder := rfl
@[simp] theorem endSession_eidx : (endSession s).eidx = s.eidx := rfl
@[simp] theorem endSession_hdrBits : (endSession s).hdrBits = s.hdrBits := rfl
@[simp] theorem endSession_result : (endSession s).result = s.result := rfl
@[simp] theorem endSession_draws : (endSession s).draws = s.draws := rfl
@[simp] theorem endSession_epoch : (endSession s).epoch = s.epoch := rfl
@[simp] theorem endSession_script : (endSession s).script = s.script := rfl
@[simp] theorem endSession_reads : (endSession s).reads = s.reads := rfl

/-! ### setNode -/

@[simp] theorem setNode_params (i : NodeId) (r : NodeRec) : (setNode i r s).params = s.params := rfl
@[simp] theorem setNode_regs (i : NodeId) (r : NodeRec) : (setNode i r s).regs = s.regs := rfl
@[simp] theorem setNode_ibuf (i : NodeId) (r : NodeRec) : (setNode i r s).ibuf = s.ibuf := rfl
@[simp] theorem setNode_obuf (i : NodeId) (r : NodeRec) : (setNode i r s).obuf = s.obuf := rfl
@[simp] theorem setNode_phase (i : NodeId) (r : NodeRec) : (setNode i r s).phase = s.phase := rfl
@[simp] theorem setNode_freq (i : NodeId) (r : NodeRec) : (setNode i r s).freq = s.freq := rfl
@[simp] theorem setNode_arena (i : NodeId) (r : NodeRec) :
    (setNode i r s).arena =
      { s.arena with node := s.arena.node.set i.val r } := rfl
@[simp] theorem setNode_pq (i : NodeId) (r : NodeRec) : (setNode i r s).pq = s.pq := rfl
@[simp] theorem setNode_code (i : NodeId) (r : NodeRec) : (setNode i r s).code = s.code := rfl
@[simp] theorem setNode_writer (i : NodeId) (r : NodeRec) : (setNode i r s).writer = s.writer := rfl
@[simp] theorem setNode_reader (i : NodeId) (r : NodeRec) : (setNode i r s).reader = s.reader := rfl
@[simp] theorem setNode_decoder (i : NodeId) (r : NodeRec) : (setNode i r s).decoder = s.decoder := rfl
@[simp] theorem setNode_eidx (i : NodeId) (r : NodeRec) : (setNode i r s).eidx = s.eidx := rfl
@[simp] theorem setNode_hdrBits (i : NodeId) (r : NodeRec) : (setNode i r s).hdrBits = s.hdrBits := rfl
@[simp] theorem setNode_result (i : NodeId) (r : NodeRec) : (setNode i r s).result = s.result := rfl
@[simp] theorem setNode_draws (i : NodeId) (r : NodeRec) : (setNode i r s).draws = s.draws := rfl
@[simp] theorem setNode_epoch (i : NodeId) (r : NodeRec) : (setNode i r s).epoch = s.epoch := rfl
@[simp] theorem setNode_script (i : NodeId) (r : NodeRec) : (setNode i r s).script = s.script := rfl
@[simp] theorem setNode_reads (i : NodeId) (r : NodeRec) : (setNode i r s).reads = s.reads := rfl

/-! ### writeLeaf -/

@[simp] theorem writeLeaf_params (i : NodeId) (v : Byte) (w : Word) : (writeLeaf i v w s).params = s.params := rfl
@[simp] theorem writeLeaf_regs (i : NodeId) (v : Byte) (w : Word) : (writeLeaf i v w s).regs = s.regs := rfl
@[simp] theorem writeLeaf_ibuf (i : NodeId) (v : Byte) (w : Word) : (writeLeaf i v w s).ibuf = s.ibuf := rfl
@[simp] theorem writeLeaf_obuf (i : NodeId) (v : Byte) (w : Word) : (writeLeaf i v w s).obuf = s.obuf := rfl
@[simp] theorem writeLeaf_phase (i : NodeId) (v : Byte) (w : Word) : (writeLeaf i v w s).phase = s.phase := rfl
@[simp] theorem writeLeaf_freq (i : NodeId) (v : Byte) (w : Word) : (writeLeaf i v w s).freq = s.freq := rfl
@[simp] theorem writeLeaf_arena (i : NodeId) (v : Byte) (w : Word) :
    (writeLeaf i v w s).arena =
      { s.arena with node := s.arena.node.set i.val (leafRecord v w s.draws) } := rfl
@[simp] theorem writeLeaf_pq (i : NodeId) (v : Byte) (w : Word) : (writeLeaf i v w s).pq = s.pq := rfl
@[simp] theorem writeLeaf_code (i : NodeId) (v : Byte) (w : Word) : (writeLeaf i v w s).code = s.code := rfl
@[simp] theorem writeLeaf_writer (i : NodeId) (v : Byte) (w : Word) : (writeLeaf i v w s).writer = s.writer := rfl
@[simp] theorem writeLeaf_reader (i : NodeId) (v : Byte) (w : Word) : (writeLeaf i v w s).reader = s.reader := rfl
@[simp] theorem writeLeaf_decoder (i : NodeId) (v : Byte) (w : Word) : (writeLeaf i v w s).decoder = s.decoder := rfl
@[simp] theorem writeLeaf_eidx (i : NodeId) (v : Byte) (w : Word) : (writeLeaf i v w s).eidx = s.eidx := rfl
@[simp] theorem writeLeaf_hdrBits (i : NodeId) (v : Byte) (w : Word) : (writeLeaf i v w s).hdrBits = s.hdrBits := rfl
@[simp] theorem writeLeaf_result (i : NodeId) (v : Byte) (w : Word) : (writeLeaf i v w s).result = s.result := rfl
@[simp] theorem writeLeaf_draws (i : NodeId) (v : Byte) (w : Word) : (writeLeaf i v w s).draws = s.draws + 1 := rfl
@[simp] theorem writeLeaf_epoch (i : NodeId) (v : Byte) (w : Word) : (writeLeaf i v w s).epoch = s.epoch := rfl
@[simp] theorem writeLeaf_script (i : NodeId) (v : Byte) (w : Word) : (writeLeaf i v w s).script = s.script := rfl
@[simp] theorem writeLeaf_reads (i : NodeId) (v : Byte) (w : Word) : (writeLeaf i v w s).reads = s.reads := rfl

/-! ### writeInner -/

@[simp] theorem writeInner_params (i l r : NodeId) (w : Word) : (writeInner i l r w s).params = s.params := rfl
@[simp] theorem writeInner_regs (i l r : NodeId) (w : Word) : (writeInner i l r w s).regs = s.regs := rfl
@[simp] theorem writeInner_ibuf (i l r : NodeId) (w : Word) : (writeInner i l r w s).ibuf = s.ibuf := rfl
@[simp] theorem writeInner_obuf (i l r : NodeId) (w : Word) : (writeInner i l r w s).obuf = s.obuf := rfl
@[simp] theorem writeInner_phase (i l r : NodeId) (w : Word) : (writeInner i l r w s).phase = s.phase := rfl
@[simp] theorem writeInner_freq (i l r : NodeId) (w : Word) : (writeInner i l r w s).freq = s.freq := rfl
@[simp] theorem writeInner_arena (i l r : NodeId) (w : Word) :
    (writeInner i l r w s).arena =
      { s.arena with node := s.arena.node.set i.val (innerRecord l r w s.draws) } := rfl
@[simp] theorem writeInner_pq (i l r : NodeId) (w : Word) : (writeInner i l r w s).pq = s.pq := rfl
@[simp] theorem writeInner_code (i l r : NodeId) (w : Word) : (writeInner i l r w s).code = s.code := rfl
@[simp] theorem writeInner_writer (i l r : NodeId) (w : Word) : (writeInner i l r w s).writer = s.writer := rfl
@[simp] theorem writeInner_reader (i l r : NodeId) (w : Word) : (writeInner i l r w s).reader = s.reader := rfl
@[simp] theorem writeInner_decoder (i l r : NodeId) (w : Word) : (writeInner i l r w s).decoder = s.decoder := rfl
@[simp] theorem writeInner_eidx (i l r : NodeId) (w : Word) : (writeInner i l r w s).eidx = s.eidx := rfl
@[simp] theorem writeInner_hdrBits (i l r : NodeId) (w : Word) : (writeInner i l r w s).hdrBits = s.hdrBits := rfl
@[simp] theorem writeInner_result (i l r : NodeId) (w : Word) : (writeInner i l r w s).result = s.result := rfl
@[simp] theorem writeInner_draws (i l r : NodeId) (w : Word) : (writeInner i l r w s).draws = s.draws + 1 := rfl
@[simp] theorem writeInner_epoch (i l r : NodeId) (w : Word) : (writeInner i l r w s).epoch = s.epoch := rfl
@[simp] theorem writeInner_script (i l r : NodeId) (w : Word) : (writeInner i l r w s).script = s.script := rfl
@[simp] theorem writeInner_reads (i l r : NodeId) (w : Word) : (writeInner i l r w s).reads = s.reads := rfl

/-! ### completeWithError -/

@[simp] theorem completeWithError_params (k : ErrorKind) : (completeWithError k s).params = s.params := rfl
@[simp] theorem completeWithError_regs (k : ErrorKind) :
    (completeWithError k s).regs =
      { s.regs with runState := .error, err := k.errCode, outLen := 0, statOrig := 0, statComp := 0, statHdrBits := 0 } := rfl
@[simp] theorem completeWithError_ibuf (k : ErrorKind) : (completeWithError k s).ibuf = s.ibuf := rfl
@[simp] theorem completeWithError_obuf (k : ErrorKind) : (completeWithError k s).obuf = [] := rfl
@[simp] theorem completeWithError_phase (k : ErrorKind) : (completeWithError k s).phase = .none := rfl
@[simp] theorem completeWithError_freq (k : ErrorKind) : (completeWithError k s).freq = s.freq := rfl
@[simp] theorem completeWithError_arena (k : ErrorKind) : (completeWithError k s).arena = s.arena := rfl
@[simp] theorem completeWithError_pq (k : ErrorKind) : (completeWithError k s).pq = s.pq := rfl
@[simp] theorem completeWithError_code (k : ErrorKind) : (completeWithError k s).code = s.code := rfl
@[simp] theorem completeWithError_writer (k : ErrorKind) : (completeWithError k s).writer = s.writer := rfl
@[simp] theorem completeWithError_reader (k : ErrorKind) : (completeWithError k s).reader = s.reader := rfl
@[simp] theorem completeWithError_decoder (k : ErrorKind) : (completeWithError k s).decoder = s.decoder := rfl
@[simp] theorem completeWithError_eidx (k : ErrorKind) : (completeWithError k s).eidx = s.eidx := rfl
@[simp] theorem completeWithError_hdrBits (k : ErrorKind) : (completeWithError k s).hdrBits = s.hdrBits := rfl
@[simp] theorem completeWithError_result (k : ErrorKind) : (completeWithError k s).result = s.result := rfl
@[simp] theorem completeWithError_draws (k : ErrorKind) : (completeWithError k s).draws = s.draws := rfl
@[simp] theorem completeWithError_epoch (k : ErrorKind) : (completeWithError k s).epoch = s.epoch + 1 := rfl
@[simp] theorem completeWithError_script (k : ErrorKind) : (completeWithError k s).script = s.script := rfl
@[simp] theorem completeWithError_reads (k : ErrorKind) : (completeWithError k s).reads = s.reads := rfl

/-! ### completeDone -/

@[simp] theorem completeDone_params (n : Nat) (o c : Word) : (completeDone n o c s).params = s.params := rfl
@[simp] theorem completeDone_regs (n : Nat) (o c : Word) :
    (completeDone n o c s).regs =
      { s.regs with runState := .done, err := 0, outLen := BitVec.ofNat 32 n, statOrig := o, statComp := c, statHdrBits := BitVec.ofNat 32 s.hdrBits } := rfl
@[simp] theorem completeDone_ibuf (n : Nat) (o c : Word) : (completeDone n o c s).ibuf = s.ibuf := rfl
@[simp] theorem completeDone_obuf (n : Nat) (o c : Word) : (completeDone n o c s).obuf = s.obuf.keepBelow n := rfl
@[simp] theorem completeDone_phase (n : Nat) (o c : Word) : (completeDone n o c s).phase = .none := rfl
@[simp] theorem completeDone_freq (n : Nat) (o c : Word) : (completeDone n o c s).freq = s.freq := rfl
@[simp] theorem completeDone_arena (n : Nat) (o c : Word) : (completeDone n o c s).arena = s.arena := rfl
@[simp] theorem completeDone_pq (n : Nat) (o c : Word) : (completeDone n o c s).pq = s.pq := rfl
@[simp] theorem completeDone_code (n : Nat) (o c : Word) : (completeDone n o c s).code = s.code := rfl
@[simp] theorem completeDone_writer (n : Nat) (o c : Word) : (completeDone n o c s).writer = s.writer := rfl
@[simp] theorem completeDone_reader (n : Nat) (o c : Word) : (completeDone n o c s).reader = s.reader := rfl
@[simp] theorem completeDone_decoder (n : Nat) (o c : Word) : (completeDone n o c s).decoder = s.decoder := rfl
@[simp] theorem completeDone_eidx (n : Nat) (o c : Word) : (completeDone n o c s).eidx = s.eidx := rfl
@[simp] theorem completeDone_hdrBits (n : Nat) (o c : Word) : (completeDone n o c s).hdrBits = s.hdrBits := rfl
@[simp] theorem completeDone_result (n : Nat) (o c : Word) : (completeDone n o c s).result = s.result := rfl
@[simp] theorem completeDone_draws (n : Nat) (o c : Word) : (completeDone n o c s).draws = s.draws := rfl
@[simp] theorem completeDone_epoch (n : Nat) (o c : Word) : (completeDone n o c s).epoch = s.epoch + 1 := rfl
@[simp] theorem completeDone_script (n : Nat) (o c : Word) : (completeDone n o c s).script = s.script := rfl
@[simp] theorem completeDone_reads (n : Nat) (o c : Word) : (completeDone n o c s).reads = s.reads := rfl

/-! ### enterPhase -/

@[simp] theorem enterPhase_params (p : Phase) : (enterPhase p s).params = s.params := rfl
@[simp] theorem enterPhase_regs (p : Phase) :
    (enterPhase p s).regs =
      { s.regs with runState := .busy, err := 0 } := rfl
@[simp] theorem enterPhase_ibuf (p : Phase) : (enterPhase p s).ibuf = s.ibuf := rfl
@[simp] theorem enterPhase_obuf (p : Phase) : (enterPhase p s).obuf = s.obuf := rfl
@[simp] theorem enterPhase_phase (p : Phase) : (enterPhase p s).phase = p := rfl
@[simp] theorem enterPhase_freq (p : Phase) : (enterPhase p s).freq = s.freq := rfl
@[simp] theorem enterPhase_arena (p : Phase) : (enterPhase p s).arena = s.arena := rfl
@[simp] theorem enterPhase_pq (p : Phase) : (enterPhase p s).pq = s.pq := rfl
@[simp] theorem enterPhase_code (p : Phase) : (enterPhase p s).code = s.code := rfl
@[simp] theorem enterPhase_writer (p : Phase) : (enterPhase p s).writer = s.writer := rfl
@[simp] theorem enterPhase_reader (p : Phase) : (enterPhase p s).reader = s.reader := rfl
@[simp] theorem enterPhase_decoder (p : Phase) : (enterPhase p s).decoder = s.decoder := rfl
@[simp] theorem enterPhase_eidx (p : Phase) : (enterPhase p s).eidx = s.eidx := rfl
@[simp] theorem enterPhase_hdrBits (p : Phase) : (enterPhase p s).hdrBits = s.hdrBits := rfl
@[simp] theorem enterPhase_result (p : Phase) : (enterPhase p s).result = s.result := rfl
@[simp] theorem enterPhase_draws (p : Phase) : (enterPhase p s).draws = s.draws := rfl
@[simp] theorem enterPhase_epoch (p : Phase) : (enterPhase p s).epoch = s.epoch := rfl
@[simp] theorem enterPhase_script (p : Phase) : (enterPhase p s).script = s.script := rfl
@[simp] theorem enterPhase_reads (p : Phase) : (enterPhase p s).reads = s.reads := rfl

/-! ### clearInternal -/

@[simp] theorem clearInternal_params : (clearInternal s).params = s.params := rfl
@[simp] theorem clearInternal_regs : (clearInternal s).regs = s.regs := rfl
@[simp] theorem clearInternal_ibuf : (clearInternal s).ibuf = s.ibuf := rfl
@[simp] theorem clearInternal_obuf : (clearInternal s).obuf = s.obuf := rfl
@[simp] theorem clearInternal_phase : (clearInternal s).phase = s.phase := rfl
@[simp] theorem clearInternal_freq : (clearInternal s).freq = Vector.replicate 256 0 := rfl
@[simp] theorem clearInternal_arena : (clearInternal s).arena = { s.arena with nodeCnt := 0 } := rfl
@[simp] theorem clearInternal_pq : (clearInternal s).pq = [] := rfl
@[simp] theorem clearInternal_code : (clearInternal s).code = Vector.replicate 256 [] := rfl
@[simp] theorem clearInternal_writer :
    (clearInternal s).writer =
      { wacc := 0, wcnt := 0, wptr := 0, wbits := 0, flushed := false } := rfl
@[simp] theorem clearInternal_reader :
    (clearInternal s).reader =
      { s.reader with rcnt := 0, rptr := 0, rbits := 0 } := rfl
@[simp] theorem clearInternal_decoder : (clearInternal s).decoder = { s.decoder with symrem := 0, optr := 0 } := rfl
@[simp] theorem clearInternal_eidx : (clearInternal s).eidx = 0 := rfl
@[simp] theorem clearInternal_hdrBits : (clearInternal s).hdrBits = 0 := rfl
@[simp] theorem clearInternal_result : (clearInternal s).result = s.result := rfl
@[simp] theorem clearInternal_draws : (clearInternal s).draws = s.draws := rfl
@[simp] theorem clearInternal_epoch : (clearInternal s).epoch = s.epoch := rfl
@[simp] theorem clearInternal_script : (clearInternal s).script = s.script := rfl
@[simp] theorem clearInternal_reads : (clearInternal s).reads = s.reads := rfl

/-! ### doing -/

@[simp] theorem doing_params (t : Turn) : (s.doing t).params = s.params := rfl
@[simp] theorem doing_regs (t : Turn) : (s.doing t).regs = s.regs := rfl
@[simp] theorem doing_ibuf (t : Turn) : (s.doing t).ibuf = s.ibuf := rfl
@[simp] theorem doing_obuf (t : Turn) : (s.doing t).obuf = s.obuf := rfl
@[simp] theorem doing_phase (t : Turn) : (s.doing t).phase = s.phase := rfl
@[simp] theorem doing_freq (t : Turn) : (s.doing t).freq = s.freq := rfl
@[simp] theorem doing_arena (t : Turn) : (s.doing t).arena = s.arena := rfl
@[simp] theorem doing_pq (t : Turn) : (s.doing t).pq = s.pq := rfl
@[simp] theorem doing_code (t : Turn) : (s.doing t).code = s.code := rfl
@[simp] theorem doing_writer (t : Turn) : (s.doing t).writer = s.writer := rfl
@[simp] theorem doing_reader (t : Turn) : (s.doing t).reader = s.reader := rfl
@[simp] theorem doing_decoder (t : Turn) : (s.doing t).decoder = s.decoder := rfl
@[simp] theorem doing_eidx (t : Turn) : (s.doing t).eidx = s.eidx := rfl
@[simp] theorem doing_hdrBits (t : Turn) : (s.doing t).hdrBits = s.hdrBits := rfl
@[simp] theorem doing_result (t : Turn) : (s.doing t).result = s.result := rfl
@[simp] theorem doing_draws (t : Turn) : (s.doing t).draws = s.draws := rfl
@[simp] theorem doing_epoch (t : Turn) : (s.doing t).epoch = s.epoch := rfl
@[simp] theorem doing_script (t : Turn) : (s.doing t).script = t :: s.script := rfl
@[simp] theorem doing_reads (t : Turn) : (s.doing t).reads = s.reads := rfl

end Sys2Proof.Machine
end

