-- ==== Sys2Proof/Laws/Memory.lean ====
section
/-! SUPPORT. The buffers: reading after writing, and the canonical form, which every operation keeps. -/

namespace Sys2Proof.Machine

namespace Memory

@[simp] theorem known_nil (a : Nat) : known [] a = none := rfl

/-- Reading after a write to the same place gives the value written. -/
@[simp] theorem known_write_same (m : Memory) (a : Nat) (v : Byte) : known (write m a v) a = some v := by
  induction m with
  | nil => simp [write, known]
  | cons c m ih =>
    obtain ⟨b, w⟩ := c
    simp only [write]
    split
    · simp [known]
    · split
      · simp [known]
      · rename_i h1 h2
        simp [known, h2, ih]

/-- A write leaves every other place alone. -/
theorem known_write_other (m : Memory) {a b : Nat} (v : Byte) (h : b ≠ a) : known (write m a v) b = known m b := by
  induction m with
  | nil => simp [write, known, h]
  | cons c m ih =>
    obtain ⟨k, w⟩ := c
    simp only [write]
    split
    · simp [known, h]
    · split
      · rename_i h1 h2
        subst h2
        simp [known, h]
      · simp [known, ih]

theorem known_keepBelow (n : Nat) (m : Memory) (a : Nat) :
    known (keepBelow n m) a = if a < n then known m a else none := by
  induction m with
  | nil => simp [keepBelow, known]
  | cons c m ih =>
    obtain ⟨b, w⟩ := c
    simp only [keepBelow] at ih
    by_cases hb : b < n
    · simp only [keepBelow, List.filter_cons, hb, decide_true, if_true, known, ih]
      by_cases hab : a = b <;> simp [hab, hb]
    · simp only [keepBelow, List.filter_cons, hb, decide_false, Bool.false_eq_true, if_false, known, ih]
      by_cases hab : a = b <;> simp [hab, hb]

/-- The canonical form as a statement about all pairs of entries. -/
theorem wf_iff (m : Memory) : wf m = true ↔ m.Pairwise (fun c d => c.1 < d.1) := by
  induction m with
  | nil => simp [wf]
  | cons c m ih =>
    obtain ⟨a, v⟩ := c
    cases m with
    | nil => simp [wf]
    | cons d m =>
      obtain ⟨b, w⟩ := d
      simp only [wf, Bool.and_eq_true, decide_eq_true_eq, ih]
      constructor
      · rintro ⟨h, hp⟩
        refine List.pairwise_cons.mpr ⟨fun e he => ?_, hp⟩
        rcases List.mem_cons.mp he with rfl | he
        · exact h
        · exact Nat.lt_trans h ((List.pairwise_cons.mp hp).1 e he)
      · intro hp
        have := List.pairwise_cons.mp hp
        exact ⟨this.1 (b, w) (List.mem_cons_self ..), this.2⟩

theorem mem_write {m : Memory} {a : Nat} {v : Byte} {c : Host.Cell} (h : c ∈ write m a v) : c = (a, v) ∨ c ∈ m := by
  induction m with
  | nil => simpa [write] using h
  | cons d m ih =>
    obtain ⟨b, w⟩ := d
    simp only [write] at h
    split at h
    · simpa using h
    · split at h
      · rcases List.mem_cons.mp h with h | h
        · exact .inl h
        · exact .inr (List.mem_cons_of_mem _ h)
      · rcases List.mem_cons.mp h with h | h
        · exact .inr (h ▸ List.mem_cons_self ..)
        · exact (ih h).imp_right (List.mem_cons_of_mem _)

/-- A write keeps the canonical form. -/
theorem wf_write {m : Memory} (a : Nat) (v : Byte) (h : wf m = true) : wf (write m a v) = true := by
  rw [wf_iff] at h ⊢
  induction m with
  | nil => simp [write]
  | cons d m ih =>
    obtain ⟨b, w⟩ := d
    obtain ⟨hb, hm⟩ := List.pairwise_cons.mp h
    simp only [write]
    split
    · rename_i hab
      refine List.pairwise_cons.mpr ⟨fun c hc => ?_, h⟩
      rcases List.mem_cons.mp hc with rfl | hc
      · exact hab
      · exact Nat.lt_trans hab (hb c hc)
    · split
      · rename_i _ hab
        subst hab
        exact List.pairwise_cons.mpr ⟨hb, hm⟩
      · rename_i h1 h2
        refine List.pairwise_cons.mpr ⟨fun c hc => ?_, ih hm⟩
        rcases mem_write hc with rfl | hc
        · show b < a
          omega
        · exact hb c hc

/-- Losing the bytes from an index upward keeps the canonical form. -/
theorem wf_keepBelow {m : Memory} (n : Nat) (h : wf m = true) : wf (keepBelow n m) = true := by
  rw [wf_iff] at h ⊢
  exact h.filter _

theorem write_below {m : Memory} {a cap : Nat} {v : Byte} (h : ∀ c ∈ m, c.1 < cap) (ha : a < cap) :
    ∀ c ∈ write m a v, c.1 < cap := fun c hc => by
  rcases mem_write hc with rfl | hc
  · exact ha
  · exact h c hc

theorem keepBelow_below {m : Memory} {n cap : Nat} (h : ∀ c ∈ m, c.1 < cap) : ∀ c ∈ keepBelow n m, c.1 < cap :=
  fun c hc => h c (List.mem_filter.mp hc).1

end Memory

/-- What OBUF reads after a write of one byte. -/
theorem obufByte_write (s : State) (a b : Nat) (v : Byte) :
    ({ s with obuf := s.obuf.write a v } : State).obufByte b = if b = a then v else s.obufByte b := by
  by_cases h : b = a
  · subst h
    simp [State.obufByte]
  · simp [State.obufByte, Memory.known_write_other _ _ h, h]

/-- What IBUF reads after a write of one byte. -/
theorem ibufByte_write (s : State) (a b : Nat) (v : Byte) :
    ({ s with ibuf := s.ibuf.write a v } : State).ibufByte b = if b = a then v else s.ibufByte b := by
  by_cases h : b = a
  · subst h
    simp [State.ibufByte]
  · simp [State.ibufByte, Memory.known_write_other _ _ h, h]

/-- The result of a completed command is kept, the bytes above it are free values. -/
theorem obufByte_completeDone (n : Nat) (o c : Word) (s : State) (a : Nat) :
    (completeDone n o c s).obufByte a =
      if a < n then (s.obuf.known a).getD (Config.freeObufByte (s.epoch + 1) a)
      else Config.freeObufByte (s.epoch + 1) a := by
  simp only [State.obufByte, completeDone_obuf, completeDone_epoch, Memory.known_keepBelow]
  split <;> simp

/-- The buffers are in canonical form at reset. -/
theorem reset_buffers_wf (p : Config.Params) :
    (State.resetWith p).ibuf.wf = true ∧ (State.resetWith p).obuf.wf = true := ⟨rfl, rfl⟩

end Sys2Proof.Machine
end

