-- ==== Sys2Proof/Laws/Ops.lean ====
section
/-! SUPPORT. The shared operations: how a sequence of operations ends, and for each operation one lemma that says
everything it can do. -/

namespace Sys2Proof.Machine

/-! ## Sequences of operations -/

namespace OpResult

variable {α β γ : Type}

@[simp] theorem ok_bind (a : α) (s : State) (f : α → State → OpResult β) : (ok a s).bind f = f a s := rfl

@[simp] theorem raised_bind (k : ErrorKind) (s : State) (f : α → State → OpResult β) :
    (raised k s).bind f = raised k s := rfl

@[simp] theorem stuck_bind (e : Fault) (f : α → State → OpResult β) : (stuck e).bind f = stuck e := rfl

@[simp] theorem refused_bind (r : Refusal) (f : α → State → OpResult β) : (refused r).bind f = refused r := rfl

/-- A sequence may be regrouped. -/
theorem bind_assoc (x : OpResult α) (f : α → State → OpResult β) (g : β → State → OpResult γ) :
    (x.bind f).bind g = x.bind fun a s => (f a s).bind g := by
  cases x <;> rfl

/-- A sequence returns when each part returns. -/
theorem bind_eq_ok {x : OpResult α} {f : α → State → OpResult β} {b : β} {t : State} :
    x.bind f = ok b t ↔ ∃ a s, x = ok a s ∧ f a s = ok b t := by
  cases x <;> simp [bind]

/-- A sequence raises when its first part does, or when that returns and the rest raises. -/
theorem bind_eq_raised {x : OpResult α} {f : α → State → OpResult β} {k : ErrorKind} {t : State} :
    x.bind f = raised k t ↔ x = raised k t ∨ ∃ a s, x = ok a s ∧ f a s = raised k t := by
  cases x <;> simp [bind]

/-- What an instruction answers when it answers a next state: its operation returned, or raised an error that
completed the command. -/
theorem finish_eq_next {x : OpResult α} {r : α → UopResult} {t : State} :
    x.finish r = .next t ↔
      (∃ a s, x = ok a s ∧ t = { s with result := r a }) ∨ (∃ k s, x = raised k s ∧ t = completeWithError k s) := by
  cases x <;> simp [finish, eq_comm]

/-- Wherever the operation ends with a state, that state satisfies `P`. -/
def Ends (P : State → Prop) : OpResult α → Prop
  | ok _ t => P t
  | raised _ t => P t
  | stuck _ => True
  | refused _ => True

theorem Ends.mono {P Q : State → Prop} {x : OpResult α} (h : x.Ends P) (hpq : ∀ t, P t → Q t) : x.Ends Q := by
  cases x <;> simp_all [Ends]

/-- The end of a sequence: its first part may raise, and the rest starts where the first part returned. -/
theorem Ends.bind {P Q : State → Prop} {x : OpResult α} {f : α → State → OpResult β} (h : x.Ends P)
    (hr : ∀ t, P t → Q t) (hf : ∀ a t, P t → (f a t).Ends Q) : (x.bind f).Ends Q := by
  cases x <;> simp_all [Ends, OpResult.bind]

end OpResult

/-- What follows a phase's operation: nothing after a completed command. -/
theorem andThen_next_cases {o : Host.Outcome State Fault Refusal} {f : State → Host.Outcome State Fault Refusal}
    {t : State} (h : andThen o f = .next t) :
    ∃ u, o = .next u ∧ ((u.phase = .none ∧ t = u) ∨ (u.phase ≠ .none ∧ f u = .next t)) := by
  cases o with
  | next u =>
    refine ⟨u, rfl, ?_⟩
    simp only [andThen] at h
    split at h
    · exact .inl ⟨‹_›, by cases h; rfl⟩
    · exact .inr ⟨‹_›, h⟩
  | fault e => cases h
  | refused r => cases h

/-! ## Memory accesses and allocation -/

/-- READ of IBUF: below the capacity the byte, with no change of state; else the engine is stuck. -/
theorem readIbuf_cases (a : Nat) (s : State) :
    (a < s.params.ibufCap ∧ readIbuf a s = .ok (s.ibufByte a) s) ∨
      (s.params.ibufCap ≤ a ∧ readIbuf a s = .stuck .ibufOutside) := by
  unfold readIbuf
  split
  · exact .inl ⟨‹_›, rfl⟩
  · exact .inr ⟨by omega, rfl⟩

theorem readIbuf_ok {a : Nat} {s : State} (h : a < s.params.ibufCap) : readIbuf a s = .ok (s.ibufByte a) s := by
  simp [readIbuf, h]

/-- WRITE of OBUF: below the capacity the byte is stored; else OUTPUT_OVERFLOW and no change of state. -/
theorem writeObuf_cases (a : Nat) (v : Byte) (s : State) :
    (a < s.params.obufCap ∧ writeObuf a v s = .ok () { s with obuf := s.obuf.write a v }) ∨
      (s.params.obufCap ≤ a ∧ writeObuf a v s = .raised .outputOverflow s) := by
  unfold writeObuf
  split
  · exact .inr ⟨‹_›, rfl⟩
  · exact .inl ⟨by omega, rfl⟩

/-- Allocation: the next id while there is one, else what the caller says a full arena does. -/
theorem allocate_cases (full : OpResult NodeId) (s : State) :
    (∃ (h : s.arena.nodeCnt.val < 511) (n : Fin 512), n.val = s.arena.nodeCnt.val + 1 ∧
        allocate full s = .ok ⟨s.arena.nodeCnt.val, h⟩ { s with arena := { s.arena with nodeCnt := n } }) ∨
      (s.arena.nodeCnt.val = 511 ∧ allocate full s = full) := by
  unfold allocate
  split
  · exact .inl ⟨‹_›, ⟨s.arena.nodeCnt.val + 1, by omega⟩, rfl, rfl⟩
  · exact .inr ⟨by omega, rfl⟩

/-- A sum of counts or weights: exact where it fits 32 bits, with no change of state; else the next free value. -/
theorem addWeight_cases (a b : Word) (s : State) :
    (a.toNat + b.toNat < 2 ^ 32 ∧ addWeight a b s = (a + b, s)) ∨
      (2 ^ 32 ≤ a.toNat + b.toNat ∧ addWeight a b s = (Config.freeSum s.draws, { s with draws := s.draws + 1 })) := by
  unfold addWeight
  split
  · exact .inl ⟨‹_›, rfl⟩
  · exact .inr ⟨by omega, rfl⟩

/-- A sum that fits is the sum of the numbers. -/
theorem addWeight_toNat {a b : Word} {s : State} (h : a.toNat + b.toNat < 2 ^ 32) :
    (addWeight a b s).1.toNat = a.toNat + b.toNat ∧ (addWeight a b s).2 = s := by
  rcases addWeight_cases a b s with ⟨_, e⟩ | ⟨h', _⟩
  · rw [e]
    exact ⟨by simp only [BitVec.toNat_add]; omega, rfl⟩
  · omega

/-- COUNT of one byte whose count fits: that entry is one higher, no other changes. -/
theorem freqAt_bump {b : Byte} {s : State} (h : (s.freqAt b).toNat + 1 < 2 ^ 32) (v : Byte) :
    (bump b s).freqAt v = if v = b then s.freqAt b + 1 else s.freqAt v := by
  have e : addWeight (s.freqAt b) 1 s = (s.freqAt b + 1, s) := by
    rcases addWeight_cases (s.freqAt b) 1 s with ⟨_, e⟩ | ⟨h', _⟩
    · exact e
    · simp at h'; omega
  unfold bump
  rw [e]
  simp only [setFreq, State.freqAt, Vector.getElem_set]
  by_cases hv : v = b
  · simp [hv]
  · have : b.toNat ≠ v.toNat := fun h => hv (BitVec.eq_of_toNat_eq h.symm)
    simp [hv, this]

/-- EMIT: the byte at WPTR and WPTR advanced, or OUTPUT_OVERFLOW and no change of state. -/
theorem emit_cases (v : Byte) (s : State) :
    (s.writer.wptr < s.params.obufCap ∧
        emit v s = .ok () { s with
          obuf := s.obuf.write s.writer.wptr v, writer := { s.writer with wptr := s.writer.wptr + 1 } }) ∨
      (s.params.obufCap ≤ s.writer.wptr ∧ emit v s = .raised .outputOverflow s) := by
  unfold emit
  rcases writeObuf_cases s.writer.wptr v s with ⟨h, e⟩ | ⟨h, e⟩
  · exact .inl ⟨h, by rw [e]; rfl⟩
  · exact .inr ⟨h, by rw [e]; rfl⟩

/-- FLUSH is refused after a FLUSH; otherwise it ends the session, and on a byte boundary writes nothing, else emits the
partial byte or overflows. -/
theorem flush_cases (s : State) :
    (s.writer.flushed = true ∧ flush s = .refused .secondFlush) ∨
      (s.writer.flushed = false ∧ s.writer.wcnt.val = 0 ∧ flush s = .ok () (endSession s)) ∨
      (s.writer.flushed = false ∧ s.writer.wcnt.val ≠ 0 ∧ s.writer.wptr < s.params.obufCap ∧
        flush s = .ok () { s with
          obuf := s.obuf.write s.writer.wptr s.writer.wacc
          writer := ⟨0, 0, s.writer.wptr + 1, s.writer.wbits, true⟩ }) ∨
      (s.writer.flushed = false ∧ s.writer.wcnt.val ≠ 0 ∧ s.params.obufCap ≤ s.writer.wptr ∧
        flush s = .raised .outputOverflow (endSession s)) := by
  unfold flush
  cases hf : s.writer.flushed with
  | true => exact .inl ⟨rfl, rfl⟩
  | false =>
    by_cases hc : s.writer.wcnt.val = 0
    · exact .inr (.inl ⟨rfl, hc, if_pos hc⟩)
    · rw [if_neg (by simp), if_neg hc]
      rcases emit_cases s.writer.wacc (endSession s) with ⟨h, e⟩ | ⟨h, e⟩ <;> rw [e]
      · exact .inr (.inr (.inl ⟨rfl, hc, h, rfl⟩))
      · exact .inr (.inr (.inr ⟨rfl, hc, h, rfl⟩))

/-- The start of a command: nothing while BUSY, else BUSY at the first phase with the internal state initialised. -/
theorem startCommand_cases (p : Phase) (s : State) :
    (s.regs.runState = .busy ∧ startCommand p s = s) ∨
      (s.regs.runState ≠ .busy ∧ startCommand p s = enterPhase p (clearInternal s)) := by
  by_cases h : s.regs.runState = .busy <;> simp [startCommand, State.isBusy, h]

/-! ## The queue -/

theorem mem_queueInsert (i j : NodeId) (q : List NodeId) : j ∈ queueInsert i q ↔ j = i ∨ j ∈ q := by
  induction q with
  | nil => simp [queueInsert]
  | cons k ks ih =>
    simp only [queueInsert]
    split
    · simp
    · split
      · rename_i _ h
        subst h
        simp
      · simp only [List.mem_cons, ih]
        tauto

/-- The queue keeps its one form: ids strictly rising. -/
theorem queueInsert_rising (i : NodeId) (q : List NodeId) (h : q.Pairwise (· < ·)) :
    (queueInsert i q).Pairwise (· < ·) := by
  induction q with
  | nil => simp [queueInsert]
  | cons k ks ih =>
    obtain ⟨hk, hks⟩ := List.pairwise_cons.mp h
    simp only [queueInsert]
    split
    · rename_i hik
      refine List.pairwise_cons.mpr ⟨fun j hj => ?_, h⟩
      rcases List.mem_cons.mp hj with rfl | hj
      · exact hik
      · exact lt_trans hik (hk j hj)
    · split
      · exact h
      · rename_i h1 h2
        refine List.pairwise_cons.mpr ⟨fun j hj => ?_, ih hks⟩
        rcases (mem_queueInsert i j ks).mp hj with rfl | hj
        · exact lt_of_le_of_ne (not_lt.mp h1) (Ne.symm h2)
        · exact hk j hj

/-- `least` answers a member of the list it is given. -/
theorem least_mem (t : Arena) (m : NodeId) (is : List NodeId) : t.least m is ∈ m :: is := by
  induction is generalizing m with
  | nil => simp [Arena.least]
  | cons i is ih =>
    simp only [Arena.least]
    split
    · exact List.mem_cons_of_mem _ (ih i)
    · rcases List.mem_cons.mp (ih m) with h | h
      · rw [h]; exact List.mem_cons_self ..
      · exact List.mem_cons_of_mem _ (List.mem_cons_of_mem _ h)

/-! ## Entries of NODE after a write -/

@[simp] theorem leafRecord_leaf (v : Byte) (w : Word) (d : Nat) : (leafRecord v w d).leaf = true := rfl
@[simp] theorem leafRecord_value (v : Byte) (w : Word) (d : Nat) : (leafRecord v w d).value = v := rfl
@[simp] theorem leafRecord_weight (v : Byte) (w : Word) (d : Nat) : (leafRecord v w d).weight = w := rfl
@[simp] theorem innerRecord_leaf (l r : NodeId) (w : Word) (d : Nat) : (innerRecord l r w d).leaf = false := rfl
@[simp] theorem innerRecord_left (l r : NodeId) (w : Word) (d : Nat) : (innerRecord l r w d).left = l := rfl
@[simp] theorem innerRecord_right (l r : NodeId) (w : Word) (d : Nat) : (innerRecord l r w d).right = r := rfl
@[simp] theorem innerRecord_weight (l r : NodeId) (w : Word) (d : Nat) : (innerRecord l r w d).weight = w := rfl

/-- An entry after one entry has been written. -/
theorem node_set (v : Vector NodeRec 511) (i j : NodeId) (r : NodeRec) :
    (v.set i.val r)[j] = if i = j then r else v[j] := by
  simp [Vector.getElem_set, Fin.ext_iff]

/-- CODE after one entry has been written. -/
theorem codeAt_setCode (v w : Byte) (path : Bits) (s : State) :
    (setCode v path s).codeAt w = if v = w then path else s.codeAt w := by
  simp [State.codeAt, Vector.getElem_set, BitVec.toNat_inj]

end Sys2Proof.Machine
end

