-- ==== Sys2Proof/Laws/Frames.lean ====
section
/-! SUPPORT. What each internal operation leaves alone, wherever it ends with a state: one frame per kind of operation,
reflexive and transitive, and one lemma per operation. -/

namespace Sys2Proof.Machine

open OpResult

/-! ## The writer's operations change only the writer and OBUF -/

/-- `t` differs from `s` at most in the writer and OBUF. -/
def WriterOnly (s t : State) : Prop := t = { s with writer := t.writer, obuf := t.obuf }

theorem WriterOnly.refl (s : State) : WriterOnly s s := rfl

theorem WriterOnly.trans {s t u : State} (h₁ : WriterOnly s t) (h₂ : WriterOnly t u) : WriterOnly s u := by
  unfold WriterOnly at *
  rw [h₂, h₁]

/-- Any change of the writer and OBUF is such a difference. -/
theorem WriterOnly.upd {s t : State} (h : WriterOnly s t) (w : Writer) (m : Memory) :
    WriterOnly s { t with writer := w, obuf := m } := h.trans rfl

theorem emit_frame (v : Byte) (s : State) : (emit v s).Ends (WriterOnly s) := by
  rcases emit_cases v s with ⟨_, e⟩ | ⟨_, e⟩ <;> rw [e] <;> rfl

theorem writeBit_frame (b : Bool) (s : State) : (writeBit b s).Ends (WriterOnly s) := by
  unfold writeBit
  split
  · trivial
  · dsimp only
    split
    · rfl
    · exact (emit_frame _ _).bind (fun t h => ((WriterOnly.refl s).upd _ _).trans h)
        fun _ t h => (((WriterOnly.refl s).upd _ _).trans h).upd _ _

theorem writeBits_frame (bs : Bits) (s : State) : (writeBits bs s).Ends (WriterOnly s) := by
  induction bs generalizing s with
  | nil => rfl
  | cons b bs ih => exact (writeBit_frame b s).bind (fun _ h => h) fun _ t h => (ih t).mono fun _ h' => h.trans h'

theorem flush_frame (s : State) : (flush s).Ends (WriterOnly s) := by
  unfold flush
  split
  · trivial
  · split
    · rfl
    · exact (emit_frame _ _).bind (fun t h => ((WriterOnly.refl s).upd _ _).trans h)
        fun _ t h => (((WriterOnly.refl s).upd _ _).trans h).upd _ _

theorem writeTreeLevels_frame (n : Nat) (i : NodeId) (s : State) :
    (writeTreeLevels n i s).Ends (WriterOnly s) := by
  induction n generalizing i s with
  | zero => trivial
  | succ n ih =>
    unfold writeTreeLevels
    split
    · exact (writeBit_frame _ s).bind (fun _ h => h) fun _ t h => (writeBits_frame _ t).mono fun _ h' => h.trans h'
    · exact (writeBit_frame _ s).bind (fun _ h => h) fun _ t h =>
        ((ih _ t).mono fun _ h' => h.trans h').bind (fun _ h => h) fun _ u h =>
          (ih _ u).mono fun _ h' => WriterOnly.trans h h'

/-! ## The reader's operations change only the reader -/

/-- `t` differs from `s` at most in the reader. -/
def ReaderOnly (s t : State) : Prop := t = { s with reader := t.reader }

theorem ReaderOnly.refl (s : State) : ReaderOnly s s := rfl

theorem ReaderOnly.trans {s t u : State} (h₁ : ReaderOnly s t) (h₂ : ReaderOnly t u) : ReaderOnly s u := by
  unfold ReaderOnly at *
  rw [h₂, h₁]

/-- Any change of the reader is such a difference. -/
theorem ReaderOnly.upd {s t : State} (h : ReaderOnly s t) (r : Reader) : ReaderOnly s { t with reader := r } :=
  h.trans rfl

theorem takeBit_frame (s : State) : ReaderOnly s (takeBit s).2 := by
  unfold takeBit
  split <;> rfl

theorem readBit_frame (s : State) : (readBit s).Ends (ReaderOnly s) := by
  unfold readBit
  split
  · split
    · rfl
    · rcases readIbuf_cases s.reader.rptr s with ⟨_, e⟩ | ⟨_, e⟩ <;> rw [e]
      · exact ((ReaderOnly.refl s).upd _).trans (takeBit_frame _)
      · trivial
  · exact takeBit_frame s

theorem readBitsLoop_frame (k v : Nat) (s : State) : (readBitsLoop k v s).Ends (ReaderOnly s) := by
  induction k generalizing v s with
  | zero => rfl
  | succ k ih =>
    unfold readBitsLoop
    refine (readBit_frame s).bind (fun _ h => h) fun b t h => ?_
    cases b with
    | none => exact h
    | some b => exact (ih _ t).mono fun _ h' => h.trans h'

/-! ## READ_TREE changes only the reader, the arena and the draws -/

/-- `t` differs from `s` at most in the reader, the arena but for ROOT, and the counter of draws. -/
def TreeReadOnly (s t : State) : Prop :=
  t = { s with reader := t.reader, arena := t.arena, draws := t.draws } ∧ t.arena.root = s.arena.root

theorem TreeReadOnly.refl (s : State) : TreeReadOnly s s := ⟨rfl, rfl⟩

theorem TreeReadOnly.trans {s t u : State} (h₁ : TreeReadOnly s t) (h₂ : TreeReadOnly t u) : TreeReadOnly s u := by
  refine ⟨?_, h₂.2.trans h₁.2⟩
  rw [h₂.1, h₁.1]

theorem ReaderOnly.treeReadOnly {s t : State} (h : ReaderOnly s t) : TreeReadOnly s t := by
  unfold ReaderOnly at h
  rw [h]
  exact ⟨rfl, rfl⟩

theorem allocateRead_frame (s : State) : (allocateRead s).Ends (TreeReadOnly s) := by
  unfold allocateRead
  rcases allocate_cases (.raised .corruptHeader s) s with ⟨_, n, _, e⟩ | ⟨_, e⟩ <;> rw [e] <;> exact ⟨rfl, rfl⟩

theorem readTreeLevels_frame (n : Nat) (s : State) : (readTreeLevels n s).Ends (TreeReadOnly s) := by
  induction n generalizing s with
  | zero => exact .refl s
  | succ n ih =>
    unfold readTreeLevels
    refine ((readBit_frame s).mono fun _ h => h.treeReadOnly).bind (fun _ h => h) fun flag s₁ h₁ => ?_
    cases flag with
    | none => exact h₁
    | some f =>
      refine ((allocateRead_frame s₁).mono fun _ h => h₁.trans h).bind (fun _ h => h) fun i s₂ h₂ => ?_
      cases f with
      | true =>
        refine ((readBitsLoop_frame 8 0 s₂).mono fun _ h => h₂.trans h.treeReadOnly).bind (fun _ h => h)
          fun v s₃ h₃ => ?_
        cases v with
        | none => exact h₃
        | some v => exact h₃.trans ⟨rfl, rfl⟩
      | false =>
        refine ((ih s₂).mono fun _ h => h₂.trans h).bind (fun _ h => h) fun l s₃ h₃ => ?_
        exact ((ih s₃).mono fun _ h => h₃.trans h).bind (fun _ h => h) fun r s₄ h₄ => h₄.trans ⟨rfl, rfl⟩

/-! ## WALK changes only the reader and CUR -/

/-- `t` differs from `s` at most in the reader and CUR. -/
def WalkOnly (s t : State) : Prop :=
  t = { s with reader := t.reader, decoder := { s.decoder with cur := t.decoder.cur } }

theorem WalkOnly.trans {s t u : State} (h₁ : WalkOnly s t) (h₂ : WalkOnly t u) : WalkOnly s u := by
  unfold WalkOnly at *
  rw [h₂, h₁]

theorem WalkOnly.refl (s : State) : WalkOnly s s := rfl

/-- Setting CUR is such a difference. -/
theorem WalkOnly.setCur (s : State) (i : NodeId) : WalkOnly s (Machine.setCur i s) := rfl

theorem ReaderOnly.walkOnly {s t : State} (h : ReaderOnly s t) : WalkOnly s t := by
  unfold ReaderOnly at h
  rw [h]
  rfl

theorem walkLoop_frame (n : Nat) (s : State) : (walkLoop n s).Ends (WalkOnly s) := by
  induction n generalizing s with
  | zero => rfl
  | succ n ih =>
    unfold walkLoop
    split
    · rfl
    · refine ((readBit_frame s).mono fun _ h => h.walkOnly).bind (fun _ h => h) fun b t h => ?_
      cases b with
      | none => exact h
      | some b => exact (ih _).mono fun _ h' => h.trans ((WalkOnly.setCur t _).trans h')

theorem walk_frame (s : State) : (walk s).Ends (WalkOnly s) := by
  unfold walk
  split
  · refine ((readBit_frame _).mono fun _ h => (WalkOnly.setCur s _).trans h.walkOnly).bind (fun _ h => h)
      fun b t h => ?_
    cases b <;> exact h
  · exact (walkLoop_frame _ _).mono fun _ h => (WalkOnly.setCur s _).trans h

/-! ## COUNT changes only FREQ, EIDX and the draws -/

/-- `t` differs from `s` at most in FREQ, EIDX and the counter of draws. -/
def CountOnly (s t : State) : Prop := t = { s with freq := t.freq, eidx := t.eidx, draws := t.draws }

theorem CountOnly.trans {s t u : State} (h₁ : CountOnly s t) (h₂ : CountOnly t u) : CountOnly s u := by
  unfold CountOnly at *
  rw [h₂, h₁]

/-- Counting a byte is such a difference. -/
theorem CountOnly.bump (b : Byte) (s : State) : CountOnly s { Machine.bump b s with eidx := s.eidx + 1 } := by
  rcases addWeight_cases (s.freqAt b) 1 s with ⟨_, e⟩ | ⟨_, e⟩ <;> rw [Machine.bump, e] <;> rfl

theorem countLoop_frame (n : Nat) (s : State) : (countLoop n s).Ends (CountOnly s) := by
  induction n generalizing s with
  | zero => rfl
  | succ n ih =>
    unfold countLoop
    rcases readIbuf_cases s.eidx s with ⟨_, e⟩ | ⟨_, e⟩ <;> rw [e]
    · exact (ih _).mono fun _ h => (CountOnly.bump _ s).trans h
    · trivial

/-! ## BUILD changes only the arena, the queue and the draws -/

/-- `t` differs from `s` at most in the arena, PQ and the counter of draws. -/
def BuildOnly (s t : State) : Prop := t = { s with arena := t.arena, pq := t.pq, draws := t.draws }

theorem BuildOnly.trans {s t u : State} (h₁ : BuildOnly s t) (h₂ : BuildOnly t u) : BuildOnly s u := by
  unfold BuildOnly at *
  rw [h₂, h₁]

/-- Writing a leaf and inserting it is such a difference. -/
theorem BuildOnly.insertLeaf (s : State) (i : NodeId) (v : Byte) (w : Word) :
    BuildOnly s (pqInsert i (writeLeaf i v w s)) := rfl

theorem pqExtractMin_frame (s : State) : (pqExtractMin s).Ends (BuildOnly s) := by
  unfold pqExtractMin
  split
  · trivial
  · rfl

theorem allocateBuild_frame (s : State) : (allocate (.stuck .arenaFull) s).Ends (BuildOnly s) := by
  rcases allocate_cases (.stuck .arenaFull) s with ⟨_, n, _, e⟩ | ⟨_, e⟩ <;> rw [e] <;> trivial

theorem buildLeaves_frame (vs : List Byte) (s : State) : (buildLeaves vs s).Ends (BuildOnly s) := by
  induction vs generalizing s with
  | nil => rfl
  | cons v vs ih =>
    unfold buildLeaves
    split
    · exact ih s
    · exact (allocateBuild_frame s).bind (fun _ h => h) fun i t h =>
        (ih _).mono fun _ h' => h.trans ((BuildOnly.insertLeaf t _ _ _).trans h')

/-- Writing an internal node with a sum of weights and inserting it is such a difference. -/
theorem BuildOnly.insertSum (s : State) (i a b : NodeId) :
    BuildOnly s (pqInsert i (writeInner i a b
      (addWeight s.arena.node[a].weight s.arena.node[b].weight s).1
      (addWeight s.arena.node[a].weight s.arena.node[b].weight s).2)) := by
  rcases addWeight_cases s.arena.node[a].weight s.arena.node[b].weight s with ⟨_, e⟩ | ⟨_, e⟩ <;> rw [e] <;> rfl

theorem mergeOnce_frame (s : State) : (mergeOnce s).Ends (BuildOnly s) := by
  unfold mergeOnce
  exact (pqExtractMin_frame s).bind (fun _ h => h) fun a s₁ h₁ =>
    ((pqExtractMin_frame s₁).mono fun _ h => h₁.trans h).bind (fun _ h => h) fun b s₂ h₂ =>
      ((allocateBuild_frame s₂).mono fun _ h => h₂.trans h).bind (fun _ h => h) fun i t h =>
        h.trans (BuildOnly.insertSum t i a b)

theorem mergeLoop_frame (n : Nat) (s : State) : (mergeLoop n s).Ends (BuildOnly s) := by
  induction n generalizing s with
  | zero => rfl
  | succ n ih =>
    unfold mergeLoop
    split
    · rfl
    · exact (mergeOnce_frame s).bind (fun _ h => h) fun _ t h => (ih t).mono fun _ h' => h.trans h'

theorem buildTree_frame (s : State) : (buildTree s).Ends (BuildOnly s) := by
  unfold buildTree
  refine (buildLeaves_frame _ s).bind (fun _ h => h) fun _ t h => ?_
  unfold mergeAll
  split
  · exact h
  · refine ((mergeLoop_frame _ t).mono fun _ h' => h.trans h').bind (fun _ h => h) fun _ u hu => ?_
    split
    · trivial
    · exact hu.trans rfl

/-! ## DERIVE changes only CODE -/

/-- `t` differs from `s` at most in CODE. -/
def CodeOnly (s t : State) : Prop := t = { s with code := t.code }

theorem CodeOnly.trans {s t u : State} (h₁ : CodeOnly s t) (h₂ : CodeOnly t u) : CodeOnly s u := by
  unfold CodeOnly at *
  rw [h₂, h₁]

theorem visit_frame (n : Nat) (i : NodeId) (path : Bits) (s : State) : (visit n i path s).Ends (CodeOnly s) := by
  induction n generalizing i path s with
  | zero => trivial
  | succ n ih =>
    unfold visit
    split
    · rfl
    · exact (ih _ _ s).bind (fun _ h => h) fun _ t h => (ih _ _ t).mono fun _ h' => h.trans h'

theorem deriveCodes_frame (s : State) : (deriveCodes s).Ends (CodeOnly s) := by
  unfold deriveCodes
  split
  · rfl
  · exact visit_frame _ _ _ s

end Sys2Proof.Machine
end

