-- ==== Sys2Proof/Laws/PerInstr.lean ====
section
/-! SUPPORT. One family of statements made instruction by instruction: how long the encoding of a well-formed
instruction is (30_encoding.md R85 to R91, R97, R99). -/

namespace Sys2Proof.Laws.EncodedLength

/-- The lengths the opcode map gives: the least and the greatest number of bits of an instruction's encoding. -/
def range : Instr → Nat × Nat
  | .nop => (32, 32)
  | .encode => (32, 32)
  | .decode => (32, 32)
  | .len _ => (32, 32)
  | .treeLeaf _ => (9, 9)
  | .treeNode => (1, 1)
  | .code _ => (1, 255)
  | .pad _ => (0, 7)
  | .count => (4, 4)
  | .pqInsert _ => (4, 4)
  | .pqExtractMin => (4, 4)
  | .build => (4, 4)
  | .derive => (4, 4)
  | .writeBit _ => (4, 4)
  | .writeBits _ => (4, 4)
  | .flush => (4, 4)
  | .readBit => (4, 4)
  | .readBits _ => (4, 4)
  | .writeTree _ => (4, 4)
  | .readTree => (4, 4)
  | .walk => (4, 4)

/-- A well-formed instruction is encoded in as many bits as the opcode map gives its row. -/
def Statement (i : Instr) : Prop :=
  i.wf = true → (range i).1 ≤ (Sys2Proof.encode i).bitLength ∧ (Sys2Proof.encode i).bitLength ≤ (range i).2

/-- The lemma of every row whose length is fixed. -/
theorem fixed {i : Instr} (h : (range i).1 = (Sys2Proof.encode i).bitLength ∧
    (range i).2 = (Sys2Proof.encode i).bitLength) : Statement i :=
  fun _ => ⟨Nat.le_of_eq h.1, Nat.le_of_eq h.2.symm⟩

theorem nop : Statement .nop := fixed ⟨rfl, rfl⟩
theorem encode : Statement .encode := fixed ⟨rfl, rfl⟩
theorem decode : Statement .decode := fixed ⟨rfl, rfl⟩
theorem len (n : Word) : Statement (.len n) := fixed ⟨(length_bitsOf 32 _).symm, (length_bitsOf 32 _).symm⟩
theorem treeLeaf (v : Byte) : Statement (.treeLeaf v) := fixed ⟨rfl, rfl⟩
theorem treeNode : Statement .treeNode := fixed ⟨rfl, rfl⟩
theorem code (c : Bits) : Statement (.code c) := by
  intro h
  simpa [Instr.wf, range, Sys2Proof.encode, Encoded.bitLength] using h
theorem pad (k : Nat) : Statement (.pad k) := by
  intro h
  simpa [Instr.wf, range, Sys2Proof.encode, Encoded.bitLength, zeros] using h
theorem count : Statement .count := fixed ⟨rfl, rfl⟩
theorem pqInsert (i : NodeId) : Statement (.pqInsert i) := fixed ⟨rfl, rfl⟩
theorem pqExtractMin : Statement .pqExtractMin := fixed ⟨rfl, rfl⟩
theorem build : Statement .build := fixed ⟨rfl, rfl⟩
theorem derive : Statement .derive := fixed ⟨rfl, rfl⟩
theorem writeBit (b : Bool) : Statement (.writeBit b) := fixed ⟨rfl, rfl⟩
theorem writeBits (s : Bits) : Statement (.writeBits s) := fixed ⟨rfl, rfl⟩
theorem flush : Statement .flush := fixed ⟨rfl, rfl⟩
theorem readBit : Statement .readBit := fixed ⟨rfl, rfl⟩
theorem readBits (k : Nat) : Statement (.readBits k) := fixed ⟨rfl, rfl⟩
theorem writeTree (i : NodeId) : Statement (.writeTree i) := fixed ⟨rfl, rfl⟩
theorem readTree : Statement .readTree := fixed ⟨rfl, rfl⟩
theorem walk : Statement .walk := fixed ⟨rfl, rfl⟩

end Sys2Proof.Laws.EncodedLength
end

