-- ==== Sys2Proof/Tests/Slice0.lean ====
section
/-! SUPPORT. Tests of the model, one step each. Expected values are those of 95_test_vectors.md (V-…) or are written out
by hand from the rule cited; none was read off the model. Then, for every statement with hypotheses, a state and
operands that meet them. -/

namespace Sys2Proof.Tests

open Sys2Proof.Machine

set_option Elab.async false

/-! ## Helpers -/

/-- Bits from zeros and ones. -/
def bs (l : List Nat) : Bits := l.map fun n => decide (n = 1)

/-- Bytes from numbers. -/
def by8 (l : List Nat) : List Byte := l.map (BitVec.ofNat 8)

/-- The parameters of the test machine: 16 bytes in, `oc` bytes out, the windows at 0, 0x100 and 0x200. -/
def testParams (oc : Nat) : Config.Params :=
  { ibufCap := 16, obufCap := oc, regBase := 0, ibufBase := 0x100, obufBase := 0x200 }

/-- The test machine after reset. -/
def small : State := State.resetWith (testParams 16)

/-- The host has loaded `d` and written IN_LEN. -/
def loaded (d : List Nat) : State :=
  { small with
    ibuf := (List.range d.length).zip (by8 d)
    regs := { small.regs with inLen := BitVec.ofNat 32 d.length } }

/-- A command is running. -/
def running : State := startCommand .eCheck small

/-- A machine whose output buffer holds `oc` bytes. -/
def tight (oc : Nat) : State := State.resetWith (testParams oc)

/-- FREQ with the given counts. -/
def counted (l : List (Nat × Nat)) : State :=
  { small with
    freq := l.foldl (fun f p => f.set! p.1 (BitVec.ofNat 32 p.2)) small.freq }

/-- An arena whose first entries are given; the leaf flag, the value, the children, the weight. -/
def nodes (l : List (Bool × Nat × NodeId × NodeId × Nat)) : Vector NodeRec 511 :=
  (l.zipIdx).foldl (fun v p =>
    v.set! p.2 ⟨p.1.1, BitVec.ofNat 8 p.1.2.1, p.1.2.2.1, p.1.2.2.2.1, BitVec.ofNat 32 p.1.2.2.2.2⟩) small.arena.node

/-- The arena of V-B1: `TreeOf(4) = N(L(0x62), N(L(0x63), L(0x61)))`. -/
def arenaB1 : Arena where
  node := nodes [(true, 0x61, 0, 0, 2), (true, 0x62, 0, 0, 2), (true, 0x63, 0, 0, 1), (false, 0, 2, 0, 3), (false, 0, 1, 3, 5)]
  nodeCnt := 5
  root := 4

/-- The arena of V-B2: the single leaf `L(0x41)`. -/
def arenaB2 : Arena where
  node := nodes [(true, 0x41, 0, 0, 4)]
  nodeCnt := 1
  root := 0

/-- The test machine holding the tree of V-B1. -/
def treeB1 : State := { small with arena := arenaB1 }

/-- V-B1 as a tree. -/
def tB1 : ByteTree := .node (.leaf 0x62) (.node (.leaf 0x63) (.leaf 0x61))

/-- The outcome is a next state with the property `p`. -/
def ends (o : Host.Outcome State Fault Refusal) (p : State → Bool) : Bool :=
  match o with
  | .next s => p s
  | .fault _ => false
  | .refused _ => false

/-- The outcome is the refusal `r`. -/
def refuses (o : Host.Outcome State Fault Refusal) (r : Refusal) : Bool :=
  match o with
  | .next _ => false
  | .fault _ => false
  | .refused r' => decide (r' = r)

/-- STATUS is ERROR with this code and the results are cleared (60_exceptions.md R209). -/
def failed (code : BitVec 4) (s : State) : Bool :=
  decide (s.regs.runState = .error ∧ s.regs.err = code ∧ s.regs.outLen = 0 ∧ s.regs.statOrig = 0 ∧
    s.regs.statComp = 0 ∧ s.regs.statHdrBits = 0 ∧ s.phase = .none)

/-! ## Well-formedness: one ill-formed term for each check -/

/-- 30_encoding.md R90: a code is not empty. -/
theorem test_wf_code_empty : (Instr.code []).wf = false := by decide
/-- R90: a code has at most 255 bits. -/
theorem test_wf_code_long : (Instr.code (zeros 256)).wf = false ∧ (Instr.code (zeros 255)).wf = true := by decide +kernel
/-- R91: at most 7 bits of padding. -/
theorem test_wf_pad : (Instr.pad 8).wf = false ∧ (Instr.pad 7).wf = true ∧ (Instr.pad 0).wf = true := by decide
/-- 41_bitstream.md R130: a count of at least 1. -/
theorem test_wf_readBits : (Instr.readBits 0).wf = false ∧ (Instr.readBits 1).wf = true := by decide

/-! ## Decoding, words written out from the spec -/

/-- R82, R83: the three command words; a word that differs from ENCODE's in one high bit is reserved (V-X3). -/
theorem test_decode_commands :
    decodeCommand 0b00000000000000000000000000000000#32 = .ok .nop ∧
    decodeCommand 0b00000000000000000000000000000001#32 = .ok .encode ∧
    decodeCommand 0b00000000000000000000000000000010#32 = .ok .decode ∧
    decodeCommand 0b00000000000000000000000000000011#32 = .error .reservedCommand ∧
    decodeCommand 0b10000000000000000000000000000001#32 = .error .reservedCommand := by decide

/-- R85: 32 bits, most significant first, here 5 (V-E1); what follows is left over. -/
theorem test_decode_len :
    decodeElement .len
      (bs [0,0,0,0,0,0,0,0, 0,0,0,0,0,0,0,0, 0,0,0,0,0,0,0,0, 0,0,0,0,0,1,0,1, 1,0]) = .ok (.len 5, bs [1,0]) ∧
    decodeElement .len
      (bs [1,0,0,0,0,0,0,0, 0,0,0,0,0,0,0,0, 0,0,0,0,0,0,0,0, 0,0,0,0,0,0,0,0]) = .ok (.len 0x80000000, []) ∧
    decodeElement .len
      (bs [0,0,0,0,0,0,0,0, 0,0,0,0,0,0,0,0, 0,0,0,0,0,0,0,0, 0,0,0,0,0,0,0]) = .error .endInLen := by decide

/-- R86, R87: the flag 1 and the value, its bit 7 first; the flag 0. -/
theorem test_decode_tree_elements :
    decodeElement .tree (bs [1, 0,1,1,0,0,0,0,1, 0]) = .ok (.treeLeaf 0x61, bs [0]) ∧
    decodeElement .tree (bs [0, 1, 1]) = .ok (.treeNode, bs [1, 1]) ∧
    decodeElement .tree (bs [1, 0,1,0,0,0,0,0]) = .error .endInTree ∧
    decodeElement .tree [] = .error .endInTree := by decide

/-- R90: the codes of V-K1 in the tree of V-B1; R93: one bit in a single-leaf tree; R91: padding. -/
theorem test_decode_code_pad :
    decodeElement (.payload tB1) (bs [1,1,0]) = .ok (.code (bs [1,1]), bs [0]) ∧
    decodeElement (.payload tB1) (bs [0,1,1]) = .ok (.code (bs [0]), bs [1,1]) ∧
    decodeElement (.payload tB1) (bs [1]) = .error .endInCode ∧
    decodeElement (.payload (.leaf 0x41)) (bs [0,0]) = .ok (.code (bs [0]), bs [0]) ∧
    decodeElement .pad (bs [0,0,0]) = .ok (.pad 3, []) ∧
    decodeElement .pad (bs [0,0,1]) = .error .notPadding := by decide

/-- R97: the thirteen identifiers with their operands; 0xD to 0xF are unused. -/
theorem test_decode_calls :
    decodeCall { op := 0b0000 } = .ok .count ∧ decodeCall { op := 0b0001, node := 2 } = .ok (.pqInsert 2) ∧
    decodeCall { op := 0b0010 } = .ok .pqExtractMin ∧ decodeCall { op := 0b0011 } = .ok .build ∧
    decodeCall { op := 0b0100 } = .ok .derive ∧ decodeCall { op := 0b0101, bit := true } = .ok (.writeBit true) ∧
    decodeCall { op := 0b0110, bits := bs [1,0] } = .ok (.writeBits (bs [1,0])) ∧
    decodeCall { op := 0b0111 } = .ok .flush ∧ decodeCall { op := 0b1000 } = .ok .readBit ∧
    decodeCall { op := 0b1001, more := 7 } = .ok (.readBits 8) ∧
    decodeCall { op := 0b1010, node := 4 } = .ok (.writeTree 4) ∧ decodeCall { op := 0b1011 } = .ok .readTree ∧
    decodeCall { op := 0b1100 } = .ok .walk ∧ decodeCall { op := 0b1101 } = .error .unusedOperation ∧
    decodeCall { op := 0b1110 } = .error .unusedOperation ∧ decodeCall { op := 0b1111 } = .error .unusedOperation := by
  decide

/-- V-E1: the whole stream of "aabbc" as its elements. -/
theorem test_decode_stream :
    decodeStream (by8 [0x00, 0x00, 0x00, 0x05, 0x58, 0x96, 0x3B, 0x0F, 0x90]) =
      .ok [.len 5, .treeNode, .treeLeaf 0x62, .treeNode, .treeLeaf 0x63, .treeLeaf 0x61,
        .code (bs [1,1]), .code (bs [1,1]), .code (bs [0]), .code (bs [0]), .code (bs [1,0]), .pad 3] := by
  decide +kernel

/-! ## One step of each instruction -/

/-- V-X1: NOP through CTRL leaves an ERROR and everything else as it is. -/
theorem test_nop :
    step ((completeWithError .corruptHeader small).withFetchWord 32 0) =
      .next (completeWithError .corruptHeader small) := rfl

/-- R160, R46: ENCODE starts. -/
theorem test_encode_starts :
    ends (step ({ loaded [0x61] with eidx := 3, pq := [7] }.withFetchWord 32 1)) (fun t =>
      decide (t.regs.status = 1 ∧ t.phase = .eCheck ∧ t.eidx = 0 ∧ t.pq = [] ∧ t.regs.inLen = 1)) = true := by
  decide +kernel

/-- R180: DECODE starts from an ERROR and clears it (V-X9). -/
theorem test_decode_starts :
    ends (step ((completeWithError .badLength small).withFetchWord 32 2)) (fun t =>
      decide (t.regs.status = 1 ∧ t.phase = .dCheck)) = true := by decide +kernel

/-- R182, R85: LEN as an element of a stream. -/
theorem test_len :
    ends (step (small.doing (.element .len (bitsOf 32 5)))) (fun t => decide (t.decoder.symrem = 5)) = true := by
  decide +kernel

/-- R86, R143: a leaf takes the next node id. -/
theorem test_treeLeaf :
    ends (exec (.treeLeaf 0x61) small) (fun t =>
      decide (t.arena.nodeCnt = 1 ∧ t.arena.node[0].leaf = true ∧ t.arena.node[0].value = 0x61 ∧
        t.result = .node 0)) = true := by decide +kernel

/-- R146: a 512th node. -/
theorem test_treeLeaf_full :
    ends (exec (.treeLeaf 0x61) { small with arena := { small.arena with nodeCnt := 511 } }) (failed 2) = true := by
  decide +kernel

/-- R87: after the flag of V-T2's node come its two leaves, `1 01100001 1 01100010` padded to 24 bits. -/
theorem test_treeNode :
    ends (exec .treeNode (loaded [0b10110000, 0b11011000, 0b10000000])) (fun t =>
      decide (t.arena.tree 0 = some (.node (.leaf 0x61) (.leaf 0x62)) ∧ t.arena.nodeCnt = 3 ∧ t.reader.rbits = 18)) =
      true := by decide +kernel

/-- V-T10: the right subtree is missing. -/
theorem test_treeNode_truncated :
    ends (exec .treeNode (loaded [0b10110000])) (failed 2) = true := by decide +kernel

/-- V-D11, R185: the code `11` of V-B1 gives 0x61. -/
theorem test_code :
    ends (exec (.code (bs [1,1])) { treeB1 with decoder := { symrem := 2, cur := 0, optr := 3 } }) (fun t =>
      decide (t.obuf = [(3, 0x61)] ∧ t.decoder.symrem = 1 ∧ t.decoder.optr = 4)) = true := by decide +kernel

/-- R191: the byte does not fit. -/
theorem test_code_overflow :
    ends (exec (.code (bs [0])) { treeB1 with decoder := { symrem := 2, cur := 0, optr := 16 } }) (failed 5) = true := by
  decide +kernel

/-- V-D11's `1` and then nothing, as an element (R190); 31 bits at LEN's place (R182). -/
theorem test_element_cut :
    ends (step ({ treeB1 with decoder := { symrem := 1, cur := 0, optr := 0 } }.doing (.element .payload (bs [1]))))
      (failed 4) = true ∧
    ends (step (small.doing (.element .len (zeros 31)))) (failed 2) = true := by decide +kernel

/-- R193: padding has no effect. -/
theorem test_pad : step (small.doing (.element .pad (bs [0,0,0]))) = .next small := rfl

/-- V-C1. -/
theorem test_count :
    ends (exec .count (loaded [0x61, 0x61, 0x62, 0x62, 0x63])) (fun t =>
      decide (t.freqAt 0x61 = 2 ∧ t.freqAt 0x62 = 2 ∧ t.freqAt 0x63 = 1 ∧ t.freqAt 0x64 = 0 ∧ t.freqAt 0x00 = 0)) =
      true := by decide +kernel

/-- V-C3: the first and the last entry. -/
theorem test_count_ends :
    ends (exec .count (loaded [0x00, 0xFF, 0x00, 0xFF, 0xFF])) (fun t =>
      decide (t.freqAt 0x00 = 2 ∧ t.freqAt 0xFF = 3)) = true := by decide +kernel

/-- R102: a set. -/
theorem test_pqInsert :
    ends (step ({ small with pq := [0, 2] }.doing (.call { op := 1, node := 1 }))) (fun t => decide (t.pq = [0, 1, 2])) =
      true := by decide +kernel

/-- R103's example: weights 2, 2, 1 give 2 first. -/
theorem test_pqExtractMin :
    ends (exec .pqExtractMin { treeB1 with pq := [0, 1, 2] }) (fun t => decide (t.result = .node 2 ∧ t.pq = [0, 1])) =
      true := by decide +kernel

/-- V-B1: a tie at weight 2 between nodes 0 and 1 goes to 0. -/
theorem test_pqExtractMin_tie :
    ends (exec .pqExtractMin { treeB1 with pq := [0, 1] }) (fun t => decide (t.result = .node 0 ∧ t.pq = [1])) =
      true := by decide +kernel

/-- V-B1. -/
theorem test_build :
    ends (exec .build (counted [(0x61, 2), (0x62, 2), (0x63, 1)])) (fun t =>
      decide (t.arena.root = 4 ∧ t.arena.nodeCnt = 5 ∧ t.arena.tree 4 = some tB1 ∧ t.arena.node[4].weight = 5 ∧
        t.arena.node[3].left = 2 ∧ t.arena.node[3].right = 0)) = true := by decide +kernel

/-- V-B11. -/
theorem test_build_empty : ends (exec .build small) (failed 1) = true := by decide +kernel

/-- V-K1. -/
theorem test_derive :
    ends (exec .derive treeB1) (fun t =>
      decide (t.codeAt 0x61 = bs [1,1] ∧ t.codeAt 0x62 = bs [0] ∧ t.codeAt 0x63 = bs [1,0] ∧ t.codeAt 0x41 = [])) =
      true := by decide +kernel

/-- V-K2: the single leaf. -/
theorem test_derive_single :
    ends (exec .derive { small with arena := arenaB2 }) (fun t => decide (t.codeAt 0x41 = bs [0])) = true := by
  decide +kernel

/-- V-W1, its last bit. -/
theorem test_writeBit :
    ends (exec (.writeBit true) { small with writer := ⟨0x80, 2, 0, 2, false⟩ }) (fun t =>
      decide (t.writer = ⟨0xA0, 3, 0, 3, false⟩ ∧ t.obuf = [])) = true := by decide +kernel

/-- V-W10: with four bytes written and no room, the eighth bit raises. -/
theorem test_writeBit_overflow :
    ends (exec (.writeBit true) { tight 4 with writer := ⟨0xFE, 7, 4, 39, false⟩ }) (failed 5) = true := by decide +kernel

/-- V-W2 in one call. -/
theorem test_writeBits :
    ends (exec (.writeBits (bs [0,1,0,1,1,0,0,0])) small) (fun t =>
      decide (t.writer = ⟨0, 0, 1, 8, false⟩ ∧ t.obuf = [(0, 0x58)])) = true := by decide +kernel

/-- V-W8: a value across a byte boundary. -/
theorem test_writeBits_across :
    ends (exec (.writeBits (bitsOf 8 0x61)) { small with writer := ⟨0x80, 1, 0, 1, false⟩ }) (fun t =>
      decide (t.writer = ⟨0x80, 1, 1, 9, false⟩ ∧ t.obuf = [(0, 0xB0)])) = true := by decide +kernel

/-- V-W4, its FLUSH. -/
theorem test_flush :
    ends (exec .flush { small with writer := ⟨0xA0, 5, 0, 5, false⟩ }) (fun t =>
      decide (t.writer.wptr = 1 ∧ t.writer.wbits = 5 ∧ t.obuf = [(0, 0xA0)])) = true := by decide +kernel

/-- V-W5, and U6: nothing written, and a second FLUSH is refused, also after one that overflowed (R235). -/
theorem test_flush_empty :
    ends (exec .flush small) (fun t =>
      decide (t.writer.wptr = 0 ∧ t.obuf = []) && refuses (exec .flush t) .secondFlush) = true ∧
    ends (exec .flush { tight 4 with writer := ⟨0x80, 1, 4, 33, false⟩ }) (fun t =>
      failed 5 t && refuses (exec .flush t) .secondFlush && refuses (exec (.writeBit true) t) .writeAfterFlush) =
      true := by decide +kernel

/-- V-R1: the first bit of 0xA0. -/
theorem test_readBit :
    ends (exec .readBit (loaded [0xA0])) (fun t =>
      decide (t.result = .bit true ∧ t.reader = ⟨0xA0, 7, 1, 1⟩)) = true := by decide +kernel

/-- V-R2: EOS at once. -/
theorem test_readBit_eos :
    ends (exec .readBit small) (fun t => decide (t.result = .eos ∧ t.reader = small.reader)) = true := by decide +kernel

/-- V-R4. -/
theorem test_readBits :
    ends (exec (.readBits 32) (loaded [0, 0, 0, 5])) (fun t =>
      decide (t.result = .value 5 ∧ t.reader.rptr = 4 ∧ t.reader.rcnt = 0 ∧ t.reader.rbits = 32)) = true := by
  decide +kernel

/-- V-R5: EOS after 24 bits. -/
theorem test_readBits_eos :
    ends (exec (.readBits 32) (loaded [0, 0, 0])) (fun t => decide (t.result = .eos ∧ t.reader.rbits = 24)) = true := by
  decide +kernel

/-- V-T3, `0 1 01100010 0 1 01100011 1 01100001`: the bytes `58 96 3B` of V-E1, and five bits in WACC (P1's trace). -/
theorem test_writeTree :
    ends (exec (.writeTree 4) treeB1) (fun t =>
      decide (t.obuf = [(0, 0x58), (1, 0x96), (2, 0x3B)] ∧ t.writer = ⟨0x08, 5, 3, 29, false⟩)) = true := by
  decide +kernel

/-- V-T1: a single leaf, nine bits. -/
theorem test_writeTree_leaf :
    ends (exec (.writeTree 0) treeB1) (fun t => decide (t.obuf = [(0, 0b10110000)] ∧ t.writer.wbits = 9)) = true := by
  decide +kernel

/-- V-T3 read back: its numbering, and 29 bits consumed. -/
theorem test_readTree :
    ends (exec .readTree (loaded [0x58, 0x96, 0x3B, 0x0F])) (fun t =>
      decide (t.result = .node 0 ∧ t.arena.tree 0 = some tB1 ∧ t.arena.nodeCnt = 5 ∧ t.arena.node[2].left = 3 ∧
        t.arena.node[2].right = 4 ∧ t.reader.rbits = 29)) = true := by decide +kernel

/-- V-T9: the end of the input inside a leaf value. -/
theorem test_readTree_truncated : ends (exec .readTree (loaded [0b10100000])) (failed 2) = true := by decide +kernel

/-- V-D11: `11` gives 0x61 after two bits. -/
theorem test_walk :
    ends (exec .walk { loaded [0b11000000] with arena := arenaB1 }) (fun t =>
      decide (t.result = .byte 0x61 ∧ t.reader.rbits = 2)) = true := by decide +kernel

/-- V-D11: `1` and then EOS. -/
theorem test_walk_truncated :
    ends (exec .walk { loaded [0x01] with arena := arenaB1, reader := ⟨0x01, 1, 1, 7⟩ }) (failed 4) = true := by
  decide +kernel

/-- V-X2: a reserved word gives BUSY first. -/
theorem test_reserved :
    ends (step (small.withFetchWord 32 3)) (fun t =>
      decide (t.regs.status = 1) && ends (step t) (fun u => decide (u.regs.status = 0x63))) = true := by decide +kernel

/-! ## Witnesses: states and operands that meet the hypotheses of each statement, at the ends of their ranges -/

/-- The test machine is not BUSY and its host is silent; `running` is BUSY with ERR 0. -/
theorem witness_status :
    small.regs.runState ≠ .busy ∧ small.Silent ∧ running.regs.runState = .busy ∧ running.regs.err = 0 := by decide

theorem witness_CommandCodes : small.regs.runState ≠ .busy ∧ running.regs.runState = .busy := by decide

theorem witness_ReservedCommandIsIllegal :
    (small.regs.runState ≠ .busy ∧ small.Silent) ∧ ((3 : Word) ≠ 0 ∧ (3 : Word) ≠ 1 ∧ (3 : Word) ≠ 2) ∧
      ((0xFFFFFFFF : Word) ≠ 0 ∧ (0xFFFFFFFF : Word) ≠ 1 ∧ (0xFFFFFFFF : Word) ≠ 2) := by decide

theorem witness_CommandStart :
    small.regs.runState ≠ .busy ∧ (Instr.encode = .encode ∧ Phase.eCheck = .eCheck) ∧
      (Instr.decode = .decode ∧ Phase.dCheck = .dCheck) := by decide

/-- IN_LEN one above the capacity. -/
theorem witness_BadLengthFirst :
    let s := { small with regs := { small.regs with inLen := 17 } }
    s.regs.runState ≠ .busy ∧ s.Silent ∧ s.params.ibufCap < s.regs.inLen.toNat := by decide

theorem witness_AbsentRegisters : 7 ≤ 7 := by decide

/-- Other widths, by number and at a register's own address; the first and the last address of the register window that
is no register's own. -/
theorem witness_PartialRegisterRefused :
    (8 ≠ 32 ∧ 31 ≠ 32 ∧ 33 ≠ 32) ∧
      (busTargets small.params 0 = [.reg 0] ∧ 8 ≠ 32) ∧ (busTargets small.params 24 = [.reg 6] ∧ 16 ≠ 32) ∧
      (busTargets small.params 1 = [.reg 0] ∧ 1 ≠ regAddress small.params 0) ∧
      (busTargets small.params 27 = [.reg 6] ∧ 27 ≠ regAddress small.params 6) := by decide

theorem witness_RegistersOutsideBusy :
    small.regs.runState ≠ .busy ∧ (0, 0) ∈ [((0, 0) : Nat × Word)] ∧ (3 ≤ 3 ∧ 3 ≤ 6) ∧ (3 ≤ 6 ∧ 6 ≤ 6) := by decide

theorem witness_HandsOffWhileBusy :
    running.regs.runState = .busy ∧ running.regs.err = 0 ∧ (2 ≤ 2 ∧ 2 ≤ 6) ∧ (2 ≤ 6 ∧ 6 ≤ 6) ∧
      0 < running.params.ibufCap ∧ 15 < running.params.ibufCap ∧ 0 < running.params.obufCap ∧
      15 < running.params.obufCap := by decide

theorem witness_HostBufferAccess :
    small.regs.runState ≠ .busy ∧ 0 < small.params.ibufCap ∧ 15 < small.params.ibufCap ∧ 0 < small.params.obufCap ∧
      15 < small.params.obufCap ∧ small.params.ibufCap ≤ 16 ∧ small.params.obufCap ≤ 16 := by decide

theorem witness_AddressMap :
    let p := small.params
    (p.regBase + 28 ≤ p.ibufBase ∨ p.ibufBase + p.ibufCap ≤ p.regBase) ∧
    (p.regBase + 28 ≤ p.obufBase ∨ p.obufBase + p.obufCap ≤ p.regBase) ∧
    (p.ibufBase + p.ibufCap ≤ p.obufBase ∨ p.obufBase + p.obufCap ≤ p.ibufBase) ∧
    0 < 7 ∧ 6 < 7 ∧ 15 < p.ibufCap ∧ 15 < p.obufCap := by decide

theorem witness_ResetAction : small.regs.runState ≠ .busy ∧ running.regs.runState = .busy := by decide

theorem witness_WaitPollsStatus :
    (completeDone 0 0 0 small).regs.runState = .done ∧ (completeWithError .invariant small).regs.runState = .error ∧
      small.regs.runState = .idle ∧ running.regs.runState = .busy := by decide

/-- FREQ of the test machine is all zero. -/
theorem small_freq : ∀ v, small.freqAt v = 0 := fun v => by simp [small, State.resetWith, State.freqAt]

theorem small_code : ∀ v, small.codeAt v = [] := fun v => by simp [small, State.resetWith, State.codeAt]

theorem witness_BuildOfNothingIsEmptyInput :
    (small.pq = [] ∧ ∀ v, small.freqAt v = 0) ∧
    let s := loaded [0x61]
    s.params.Legal ∧ s.regs.runState ≠ .busy ∧ s.Silent ∧
      ∃ s₀ t, exec .encode s = .next s₀ ∧ runSteps 2 s₀ = .next t :=
  ⟨⟨rfl, small_freq⟩, by decide, by decide, rfl, _, _, rfl, rfl⟩

theorem witness_MissingCodeIsInvariant :
    let s := { loaded [0x61] with phase := .ePayload }
    s.phase = .ePayload ∧ s.Silent ∧ s.eidx < s.regs.inLen.toNat ∧ s.eidx < s.params.ibufCap ∧
      s.codeAt (s.ibufByte s.eidx) = [] := by
  refine ⟨rfl, rfl, by decide, by decide, small_code _⟩

/-- IN_LEN at both ends of its range. -/
theorem witness_CountCounts :
    (∀ n ∈ [0, 16], (loaded (List.replicate n 0x61)).regs.inLen.toNat ≤ (loaded (List.replicate n 0x61)).params.ibufCap) ∧
      ∀ l v, (loaded l).freqAt v = 0 :=
  ⟨by decide, fun _ v => small_freq v⟩

theorem witness_PqInsertAdds : small.pq.Pairwise (· < ·) := List.Pairwise.nil

theorem witness_PqExtractMinTakesLeast :
    let s := { treeB1 with pq := [0, 1, 2] }
    s.pq ≠ [] ∧ s.pq.Pairwise (· < ·) := by decide

/-- One value present, and three. -/
theorem witness_BuildShape :
    ∀ l ∈ [[(0x41, 1)], [(0x61, 2), (0x62, 2), (0x63, 1)]],
      (counted l).arena.nodeCnt = 0 ∧ (counted l).pq = [] ∧ (counted l).presentValues ≠ [] := by decide +kernel

theorem witness_BuildIsHuffman :
    let s := counted [(0x61, 2), (0x62, 2), (0x63, 1)]
    let d := by8 [0x61, 0x61, 0x62, 0x62, 0x63]
    s.arena.nodeCnt = 0 ∧ s.pq = [] ∧ d ≠ [] ∧ d.length < 2 ^ 32 ∧
      byteValues.all (fun v => decide ((s.freqAt v).toNat = d.count v)) = true := by decide +kernel

/-- A tree of three leaves, and a single leaf. -/
theorem witness_DeriveGivesPaths :
    (treeB1.arena.tree treeB1.arena.root = some tB1 ∧ 0x61 ∈ tB1.values ∧ 0x41 ∉ tB1.values) ∧
      arenaB2.tree arenaB2.root = some (.leaf 0x41) := by decide +kernel

theorem witness_CodesArePrefixFree :
    ((counted [(0x61, 2), (0x62, 2), (0x63, 1)]).arena.nodeCnt = 0 ∧
      (counted [(0x61, 2), (0x62, 2), (0x63, 1)]).pq = [] ∧
      (counted [(0x61, 2), (0x62, 2), (0x63, 1)]).presentValues ≠ []) ∧
    ∀ l v, (counted l).codeAt v = [] :=
  ⟨by decide +kernel, fun _ v => small_code v⟩

/-- No bit, one bit, and as many as OBUF holds. -/
theorem witness_WriteAppendsBits :
    small.writer.flushed = false ∧ ∀ n ∈ [0, 1, 128], small.RoomFor (zeros n).length := by decide +kernel

theorem witness_WriteOverflows :
    let s := { tight 4 with writer := ⟨0xFE, 7, 4, 39, false⟩ }
    s.writer.flushed = false ∧ ¬ s.RoomFor (bs [1]).length := by decide +kernel

theorem witness_FlushEmitsPartialByte :
    let fits := { tight 4 with writer := ⟨0x80, 1, 3, 25, false⟩ }
    let full := { tight 4 with writer := ⟨0x80, 1, 4, 33, false⟩ }
    (small.writer.flushed = false ∧ small.writer.wcnt.val = 0) ∧
    (fits.writer.flushed = false ∧ fits.writer.wcnt.val ≠ 0 ∧ fits.writer.wptr < fits.params.obufCap) ∧
    (full.writer.flushed = false ∧ full.writer.wcnt.val ≠ 0 ∧ full.params.obufCap ≤ full.writer.wptr) ∧
    (endSession small).writer.flushed = true := by decide

/-- As many bits as OBUF holds; one more, and the most that no WRITE_BIT overflows; the least that one does. -/
theorem witness_SessionPacksBits :
    small.WriterOpen ∧ ((zeros 128).length + 7) / 8 ≤ small.params.obufCap ∧
      8 * (small.params.obufCap + 1) ≤ (zeros 136).length ∧
      ∀ n ∈ [129, 135], small.params.obufCap < ((zeros n).length + 7) / 8 ∧
        (zeros n).length < 8 * (small.params.obufCap + 1) := by decide +kernel

theorem witness_WriteTreeSerialises :
    treeB1.arena.tree 4 = some tB1 ∧ treeB1.writer.flushed = false ∧ treeB1.RoomFor tB1.ser.length := by decide +kernel

theorem witness_LenFieldIsBigEndian :
    let s := { tight 4 with phase := .eLen, regs := { small.regs with inLen := 5 } }
    s.phase = .eLen ∧ s.Silent ∧ s.WriterOpen ∧ 4 ≤ s.params.obufCap := by decide

/-- A byte ahead, its first and its last bit count, one bit too many, and nothing ahead. -/
theorem witness_ReadTakesNextBits :
    let s := loaded [0xA0]
    (s.regs.inLen.toNat ≤ s.params.ibufCap ∧ s.bitsAhead = true :: bs [0,1,0,0,0,0,0]) ∧
      (1 ≤ 1 ∧ 1 ≤ s.bitsAhead.length) ∧ (1 ≤ 8 ∧ 8 ≤ s.bitsAhead.length) ∧ s.bitsAhead.length < 9 ∧
      (small.regs.inLen.toNat ≤ small.params.ibufCap ∧ small.bitsAhead = []) := by decide +kernel

theorem witness_ReaderPosition :
    (small.reader.rcnt = 0 ∧ small.reader.rptr = 0 ∧ small.reader.rbits = 0) ∧
      (loaded [0xA0]).ReaderOk ∧ ∃ t, exec .readBit (loaded [0xA0]) = .next t :=
  ⟨by decide, by decide, _, rfl⟩

theorem witness_ReadTreeInvertsSer :
    let s := loaded [0x58, 0x96, 0x3B, 0x0F]
    s.regs.inLen.toNat ≤ s.params.ibufCap ∧ s.arena.nodeCnt = 0 ∧ tB1.size ≤ 511 ∧
      s.bitsAhead = tB1.ser ++ bs [1,1,1] := by decide +kernel

theorem witness_ReadTreeRejectsTheRest :
    let s := loaded [0b10100000]
    s.regs.inLen.toNat ≤ s.params.ibufCap ∧ s.arena.nodeCnt = 0 := by decide

/-- D_LEN over a given input. -/
def atLen (l : List Nat) : State :=
  { loaded l with phase := .dLen, regs := { (loaded l).regs with runState := .busy } }

/-- One byte too few; a count of 5; a count of 0. -/
theorem witness_LenFieldIsRead :
    (∀ l ∈ [[0, 0, 0], [0, 0, 0, 5], [0, 0, 0, 0]],
      (atLen l).phase = .dLen ∧ (atLen l).Silent ∧ (atLen l).regs.runState = .busy ∧
        (atLen l).regs.inLen.toNat ≤ (atLen l).params.ibufCap ∧ (atLen l).hdrBits = 0 ∧ (atLen l).decoder.optr = 0) ∧
      (atLen [0, 0, 0]).bitsAhead.length < 32 ∧
      ((5 : Word) ≠ 0 ∧ (atLen [0, 0, 0, 5]).bitsAhead = bitsOf 32 (5 : Word).toNat ++ []) ∧
      (atLen [0, 0, 0, 0]).bitsAhead = zeros 32 ++ [] := by decide +kernel

theorem witness_WalkReadsOneCode :
    let s := { loaded [0b11000000] with arena := arenaB1 }
    let e := { loaded [] with arena := arenaB1 }
    (s.regs.inLen.toNat ≤ s.params.ibufCap ∧ s.arena.tree s.arena.root = some tB1 ∧
      tB1.readCode s.bitsAhead = some (0x61, bs [0,0,0,0,0,0])) ∧
    (e.regs.inLen.toNat ≤ e.params.ibufCap ∧ e.arena.tree e.arena.root = some tB1 ∧
      tB1.readCode e.bitsAhead = none) := by decide +kernel

/-- The last free entry, and none. -/
theorem witness_TreeLeafElement :
    ({ small.arena with nodeCnt := 510 } : Arena).nodeCnt.val < 511 ∧
      ({ small.arena with nodeCnt := 511 } : Arena).nodeCnt.val = 511 := by decide

/-- `1 01100001 1 01100010` and six more bits, with just room for the three nodes. -/
theorem witness_TreeNodeElement :
    let s := { loaded [0b10110000, 0b11011000, 0b10000000] with arena := { small.arena with nodeCnt := 508 } }
    s.regs.inLen.toNat ≤ s.params.ibufCap ∧
      s.bitsAhead = (ByteTree.leaf 0x61).ser ++ (ByteTree.leaf 0x62).ser ++ zeros 6 ∧
      s.arena.nodeCnt.val + (ByteTree.node (.leaf 0x61) (.leaf 0x62)).size ≤ 511 := by decide +kernel

/-- The last byte of OBUF, and one past it. -/
theorem witness_CodeElement :
    ∀ o ∈ [15, 16],
      let s := { treeB1 with decoder := { symrem := 1, cur := 0, optr := o } }
      s.arena.tree s.arena.root = some tB1 ∧ tB1.readCode (bs [1,1]) = some (0x61, []) ∧ 0 < s.decoder.symrem ∧
        (s.decoder.optr < s.params.obufCap ∨ s.params.obufCap ≤ s.decoder.optr) := by decide +kernel

/-- The longest LEN cut short; a tree section cut before a flag and inside a value; a code cut short, and two in one; the
two ends of the unused identifiers. -/
theorem witness_ElementsCutShort :
    let s := { treeB1 with decoder := { symrem := 1, cur := 0, optr := 0 } }
    (zeros 31).length < 32 ∧ ([] : Bits) = [] ∧ bs [1, 0,1,1,0,0,0,0] = true :: bs [0,1,1,0,0,0,0] ∧
      (bs [0,1,1,0,0,0,0]).length < 8 ∧ 0 < s.decoder.symrem ∧ s.arena.tree s.arena.root = some tB1 ∧
      tB1.readCode (bs [1]) = none ∧ tB1.readCode (bs [0,1]) = some (0x62, true :: []) ∧ small.decoder.symrem = 0 ∧
      13 ≤ ({ op := 0xD } : UopCall).op.toNat ∧ 13 ≤ ({ op := 0xF } : UopCall).op.toNat := by decide +kernel

/-- An instruction of each encoded space, and an element at its place. -/
theorem witness_DecodeInvertsEncode :
    (Instr.encode.wf = true ∧ Place.len.Admits .encode) ∧ ((Instr.readBits 1).wf = true ∧ Place.len.Admits (.readBits 1)) ∧
      ((Instr.pad 7).wf = true ∧ Place.pad.Admits (.pad 7)) ∧
      ((Instr.code (bs [1,1])).wf = true ∧ (Place.payload tB1).Admits (.code (bs [1,1])) ∧ Place.payload tB1 ≠ .pad ∧
        encode (.code (bs [1,1])) = .element (bs [1,1])) :=
  ⟨⟨rfl, trivial⟩, ⟨rfl, trivial⟩, ⟨rfl, rfl⟩, rfl, ⟨tB1, 0x61, rfl, rfl⟩, by decide, rfl⟩

theorem witness_TreeSectionIsSelfDelimiting : tB1.size ≤ 511 ∧ (ByteTree.leaf 0x41).size ≤ 511 := by decide

theorem witness_StepRunsDecoded :
    decodeCommand 1 = .ok .encode ∧ decodeCall { op := 7 } = .ok .flush ∧
      (placeIn .tree small = some .tree ∧ decodeElement .tree (bs [0]) = .ok (.treeNode, [])) ∧
      decodeTableWord 16 0b101100001 = some (.treeLeaf 0x61) := by decide

/-- "aabbc" fits, sixteen distinct values do not. -/
theorem witness_EncodeComputesEncode :
    let s := loaded [0x61, 0x61, 0x62, 0x62, 0x63]
    let o := loaded (List.range 16)
    (s.params.Legal ∧ s.regs.runState ≠ .busy ∧ s.Silent ∧ s.regs.inLen.toNat ≤ s.params.ibufCap ∧
      (Reference.encodeBytes s.input).length ≤ s.params.obufCap) ∧
    (o.params.Legal ∧ o.regs.runState ≠ .busy ∧ o.Silent ∧ o.regs.inLen.toNat ≤ o.params.ibufCap ∧
      o.params.obufCap < (Reference.encodeBytes o.input).length) := by decide +kernel

/-- V-D2: the whole stream, cut to eight bytes, and cut to seven. -/
theorem witness_DecodeComputesDecode :
    let s := loaded [0x00, 0x00, 0x00, 0x05, 0x58, 0x96, 0x3B, 0x0F, 0x90]
    (s.params.Legal ∧ s.regs.runState ≠ .busy ∧ s.Silent ∧ s.regs.inLen.toNat ≤ s.params.ibufCap ∧
        (Reference.decodeBytes 16 s.input).toOption = some (by8 [0x61, 0x61, 0x62, 0x62, 0x63])) ∧
      (Reference.decodeBytes 16 (by8 [0x00, 0x00, 0x00, 0x05, 0x58, 0x96, 0x3B, 0x0F])).toOption = none ∧
      (Reference.decodeBytes 16 (by8 [0x00, 0x00, 0x00, 0x05, 0x58, 0x96, 0x3B])).toOption = none := by decide +kernel

/-- P3: `00 00 00 04 A0 80` is the stream of "AAAA". -/
theorem witness_RoundTrip :
    let s := loaded [0x00, 0x00, 0x00, 0x04, 0xA0, 0x80]
    let d := by8 [0x41, 0x41, 0x41, 0x41]
    s.params.Legal ∧ s.regs.runState ≠ .busy ∧ s.Silent ∧ d.length ≤ s.params.ibufCap ∧ d.length ≤ s.params.obufCap ∧
      (Reference.encodeBytes d).length ≤ s.params.ibufCap ∧ (Reference.encodeBytes d).length ≤ s.params.obufCap ∧
      s.input = Reference.encodeBytes d := by decide +kernel

theorem witness_CommandErrors :
    (small.params.Legal ∧ small.regs.runState ≠ .busy ∧ small.Silent) ∧
      (∃ s₀ t, exec .encode small = .next s₀ ∧ runSteps 1 s₀ = .next t) ∧
      (∃ s₀ t, exec .decode small = .next s₀ ∧ runSteps 1 s₀ = .next t) ∧
      (∃ t, runSteps 1 (startIllegal small) = .next t) ∧
      (tight 324).regs.inLen.toNat ≤ (tight 324).params.ibufCap ∧
      4 + (2559 + 255 * (tight 324).regs.inLen.toNat + 7) / 8 ≤ (tight 324).params.obufCap :=
  ⟨by decide, ⟨_, _, rfl, rfl⟩, ⟨_, _, rfl, rfl⟩, ⟨_, rfl⟩, by decide, by decide⟩

/-- Two states with the same input that differ in the queue, in OBUF and in STATUS. -/
theorem witness_ResultDependsOnInputOnly :
    let s := loaded [0x61, 0x62]
    let s' := completeWithError .invariant { loaded [0x61, 0x62] with pq := [7], obuf := [(0, 1)] }
    s.params.Legal ∧ s'.params.ibufCap = s.params.ibufCap ∧ s'.params.obufCap = s.params.obufCap ∧
      s.regs.runState ≠ .busy ∧ s'.regs.runState ≠ .busy ∧ s.Silent ∧ s'.Silent ∧ s'.regs.inLen = s.regs.inLen ∧
      (∀ a, s'.ibufByte a = s.ibufByte a) ∧ Instr.encode = .encode ∧ Instr.decode = .decode :=
  ⟨by decide, rfl, rfl, by decide, by decide, rfl, rfl, rfl, fun _ => rfl, rfl, rfl⟩

theorem witness_DegenerateStreams : 1 ≤ 1 := by decide

theorem witness_StreamSize : by8 [0x41] ≠ [] := by decide

theorem witness_DecodeIsBounded :
    (Reference.decodeBytes 16 (by8 [0x00, 0x00, 0x00, 0x01, 0xA0, 0x80])).toOption = some (by8 [0x41]) ∧
      by8 [0x41] ≠ [] := by decide +kernel

/-- Nine copies of one value take 7 bytes, six of them for LEN and the tree: cut inside the header, and after it. -/
theorem witness_TruncationIsDetected :
    let d := List.replicate 9 (0x41 : Byte)
    let header := (32 + (10 * (Reference.present d).length - 1) + 7) / 8
    d ≠ [] ∧ d.length < 2 ^ 32 ∧ d.length ≤ 9 ∧ 5 < header ∧ header ≤ 6 ∧ 6 < (Reference.encodeBytes d).length ∧
      3 < 4 := by decide +kernel

theorem witness_ResetMeetsInvariant : (testParams 4).Legal ∧ Config.params.Legal := by decide

/-- A running command in the invariant, in its first phase and, its length checked, in a later one. -/
theorem witness_StepKeepsInvariant :
    ∀ p ∈ [Phase.eCheck, Phase.dCheck, Phase.eCount],
      (setPhase p running).Inv ∧ ∃ t, step (setPhase p running) = .next t := by
  intro p hp
  have hs : running.SessionOk := by
    refine ⟨⟨by decide, fun _ => ⟨by decide, fun k _ => by simp [running, startCommand, small, State.isBusy,
      State.resetWith, enterPhase, clearInternal]⟩, by decide⟩, by decide, by decide, by decide, fun _ _ => by decide⟩
  simp only [List.mem_cons, List.not_mem_nil, or_false] at hp
  rcases hp with rfl | rfl | rfl
  all_goals
    refine ⟨⟨by decide, ?_, ⟨by decide, by decide, fun c h => ?_, fun c h => ?_⟩, ⟨List.Pairwise.nil, fun v => ?_,
      by decide⟩, fun _ _ => ⟨hs.1, hs.2.1, hs.2.2.1, hs.2.2.2.1, fun _ _ => by decide⟩⟩, _, rfl⟩
    · unfold State.StatusOk
      decide
    · exact absurd h List.not_mem_nil
    · exact absurd h List.not_mem_nil
    · simp [setPhase, running, startCommand, small, State.isBusy, State.resetWith, enterPhase, clearInternal,
        State.codeAt]

/-- As for the invariant: the same states are states of a run. -/
theorem witness_PhaseOnlyAdvances :
    (setPhase .eCount running).Inv ∧ ∃ t, step (setPhase .eCount running) = .next t :=
  witness_StepKeepsInvariant .eCount (by decide)

/-- To BUSY by number and by address, to IDLE, to DONE; to ERROR by the engine and by an element. -/
theorem witness_StateTransitions :
    (∃ t, step (small.doing (.host (.writeReg 0 32 1))) = .next t ∧ t.regs.runState ≠ small.regs.runState ∧
      t.regs.runState = .busy) ∧
    (∃ t, step (small.doing (.host (.busWrite 0 32 2))) = .next t ∧ t.regs.runState = .busy) ∧
    (∃ t, step (running.doing (.host .reset)) = .next t ∧ t.regs.runState = .idle) ∧
    ends (step (atLen [0, 0, 0, 0])) (fun t => decide (t.regs.runState = .done)) = true ∧
    ends (step (startIllegal small)) (fun t => decide (t.regs.runState = .error)) = true ∧
    ends (step (small.doing (.element .tree []))) (fun t => decide (t.regs.runState = .error)) = true :=
  ⟨⟨_, rfl, by decide, by decide⟩, ⟨_, rfl, by decide⟩, ⟨_, rfl, by decide⟩, by decide +kernel, by decide +kernel,
    by decide +kernel⟩

/-- The host writes IBUF and IN_LEN, by number and by address, and resets IN_LEN. -/
theorem witness_InputsBelongToTheHost :
    small.regs.runState ≠ .busy ∧
      ends (step (small.doing (.host (.writeIbuf 15 1)))) (fun t => decide (t.ibuf = [(15, 1)])) = true ∧
      ends (step (small.doing (.host (.busWrite 0x10F 8 1)))) (fun t => decide (t.ibuf = [(15, 1)])) = true ∧
      ends (step (small.doing (.host (.writeReg 2 32 5)))) (fun t => decide (t.regs.inLen = 5)) = true ∧
      ends (step (small.doing (.host (.busWrite 8 32 5)))) (fun t => decide (t.regs.inLen = 5)) = true ∧
      ends (step ((loaded [0x61]).doing (.host .reset))) (fun t => decide (t.regs.inLen = 0)) = true := by
  decide +kernel

theorem witness_IdleEngineRests : small.phase = .none ∧ small.Silent := by decide

end Sys2Proof.Tests
end

section
/-! PROOFS. What the internal operations leave alone, in one frame for all of them, and what WRITE_BIT and READ_BIT
can do. -/

namespace Sys2Proof

/-- The instructions that start no command: what a call, a stream element or a phase of the sequencer runs. -/
def Instr.startsNothing : Instr → Bool
  | .encode => false
  | .decode => false
  | _ => true

theorem decodeCall_startsNothing {c : UopCall} {i : Instr} (h : decodeCall c = .ok i) : i.startsNothing = true := by
  unfold decodeCall at h
  split at h <;> cases h <;> rfl

theorem decodeElement_startsNothing {p : Place} {bs rest : Bits} {i : Instr}
    (h : decodeElement p bs = .ok (i, rest)) : i.startsNothing = true := by
  cases p with
  | len =>
    simp only [decodeElement] at h
    split at h <;> cases h
    rfl
  | tree =>
    simp only [decodeElement] at h
    split at h
    · cases h
    · cases h; rfl
    · split at h <;> cases h
      rfl
  | payload t =>
    simp only [decodeElement] at h
    split at h <;> cases h
    rfl
  | pad =>
    simp only [decodeElement] at h
    split at h <;> cases h
    rfl

end Sys2Proof

namespace Sys2Proof.Machine

/-! ## What an operation leaves alone -/

/-- What no internal operation changes, wherever it ends: the parameters, the registers, IBUF and PHASE. -/
structure OpFrame (s t : State) : Prop where
  params : t.params = s.params
  regs : t.regs = s.regs
  ibuf : t.ibuf = s.ibuf
  phase : t.phase = s.phase

namespace OpFrame

variable {s t u : State}

theorem refl (s : State) : OpFrame s s := ⟨rfl, rfl, rfl, rfl⟩

theorem trans (h₁ : OpFrame s t) (h₂ : OpFrame t u) : OpFrame s u :=
  ⟨h₂.params.trans h₁.params, h₂.regs.trans h₁.regs, h₂.ibuf.trans h₁.ibuf, h₂.phase.trans h₁.phase⟩

theorem of_eq (e : t = u) (h : OpFrame s u) : OpFrame s t := e ▸ h

theorem of_writerOnly (h : WriterOnly s t) : OpFrame s t := .of_eq h ⟨rfl, rfl, rfl, rfl⟩

theorem of_readerOnly (h : ReaderOnly s t) : OpFrame s t := .of_eq h ⟨rfl, rfl, rfl, rfl⟩

theorem of_treeReadOnly (h : TreeReadOnly s t) : OpFrame s t := .of_eq h.1 ⟨rfl, rfl, rfl, rfl⟩

theorem of_walkOnly (h : WalkOnly s t) : OpFrame s t := .of_eq h ⟨rfl, rfl, rfl, rfl⟩

theorem of_countOnly (h : CountOnly s t) : OpFrame s t := .of_eq h ⟨rfl, rfl, rfl, rfl⟩

theorem of_buildOnly (h : BuildOnly s t) : OpFrame s t := .of_eq h ⟨rfl, rfl, rfl, rfl⟩

theorem of_codeOnly (h : CodeOnly s t) : OpFrame s t := .of_eq h ⟨rfl, rfl, rfl, rfl⟩

end OpFrame

theorem countBytes_frame (s : State) : (countBytes s).Ends (CountOnly s) := by
  have start : CountOnly s { s with eidx := 0 } := rfl
  exact (countLoop_frame _ _).mono fun _ h => start.trans h

theorem emitSymbol_frame (v : Byte) (s : State) : (emitSymbol v s).Ends (OpFrame s) := by
  unfold emitSymbol
  rcases writeObuf_cases s.decoder.optr v s with ⟨_, e⟩ | ⟨_, e⟩ <;> rw [e] <;> exact ⟨rfl, rfl, rfl, rfl⟩

theorem treeLeaf_frame (v : Byte) (s : State) :
    ((allocateRead s).bind fun i t => .ok i (readLeaf i v t)).Ends (OpFrame s) :=
  ((allocateRead_frame s).mono fun _ => OpFrame.of_treeReadOnly).bind (fun _ h => h)
    fun _ _ h => h.trans ⟨rfl, rfl, rfl, rfl⟩

theorem treeNode_frame (s : State) :
    ((allocateRead s).bind fun i s₁ =>
      (readTree s₁).bind fun l s₂ =>
        (readTree s₂).bind fun r s₃ => .ok i (readInner i l r s₃)).Ends (OpFrame s) :=
  ((allocateRead_frame s).mono fun _ => OpFrame.of_treeReadOnly).bind (fun _ h => h) fun _ s₁ h₁ =>
    ((readTreeLevels_frame _ s₁).mono fun _ h => h₁.trans (.of_treeReadOnly h)).bind (fun _ h => h) fun _ s₂ h₂ =>
      ((readTreeLevels_frame _ s₂).mono fun _ h => h₂.trans (.of_treeReadOnly h)).bind (fun _ h => h)
        fun _ _ h => h.trans ⟨rfl, rfl, rfl, rfl⟩

/-! ## What READ_BIT and WRITE_BIT can do -/

/-- The first two lines of WRITE_BIT (41_bitstream.md R121): the bit stands in WACC and is counted in WBITS. -/
def placeInAcc (b : Bool) (s : State) : State :=
  { s with writer := { s.writer with
      wacc := placeBit s.writer.wacc s.writer.wcnt.val b, wbits := s.writer.wbits + 1 } }

/-- WRITE_BIT is refused after a FLUSH; otherwise the bit goes into WACC, or completes a byte, which is emitted or
overflows. -/
theorem writeBit_cases (b : Bool) (s : State) :
    (s.writer.flushed = true ∧ writeBit b s = .refused .writeAfterFlush) ∨
      (s.writer.flushed = false ∧ ∃ n : Fin 8, n.val = s.writer.wcnt.val + 1 ∧
        writeBit b s = .ok () { s with writer :=
          ⟨placeBit s.writer.wacc s.writer.wcnt.val b, n, s.writer.wptr, s.writer.wbits + 1, s.writer.flushed⟩ }) ∨
      (s.writer.flushed = false ∧ s.writer.wcnt.val = 7 ∧ s.writer.wptr < s.params.obufCap ∧
        writeBit b s = .ok () { s with
          obuf := s.obuf.write s.writer.wptr (placeBit s.writer.wacc s.writer.wcnt.val b)
          writer := ⟨0, 0, s.writer.wptr + 1, s.writer.wbits + 1, s.writer.flushed⟩ }) ∨
      (s.writer.flushed = false ∧ s.writer.wcnt.val = 7 ∧ s.params.obufCap ≤ s.writer.wptr ∧
        writeBit b s = .raised .outputOverflow (placeInAcc b s)) := by
  unfold writeBit
  by_cases hf : s.writer.flushed = true
  · exact .inl ⟨hf, if_pos hf⟩
  · have hopen : s.writer.flushed = false := Bool.eq_false_iff.mpr hf
    rw [if_neg hf]
    by_cases hc : s.writer.wcnt.val < 7
    · exact .inr (.inl ⟨hopen, ⟨s.writer.wcnt.val + 1, by omega⟩, rfl, dif_pos hc⟩)
    · have h7 : s.writer.wcnt.val = 7 := by omega
      refine .inr (.inr ?_)
      simp only [dif_neg hc]
      rcases emit_cases (placeBit s.writer.wacc s.writer.wcnt.val b) (placeInAcc b s) with ⟨hp, e⟩ | ⟨hp, e⟩
      · exact .inl ⟨hopen, h7, hp, congrArg (OpResult.bind · fun _ t => .ok () (clearAcc t)) e⟩
      · exact .inr ⟨hopen, h7, hp, congrArg (OpResult.bind · fun _ t => .ok () (clearAcc t)) e⟩

/-- READ_BIT: end of stream; the first bit of the next byte of IBUF, where there is one; the next bit of RCUR. -/
theorem readBit_cases (s : State) :
    (s.reader.rcnt.val = 0 ∧ s.regs.inLen.toNat ≤ s.reader.rptr ∧ readBit s = .ok none s) ∨
      (s.reader.rcnt.val = 0 ∧ s.reader.rptr < s.regs.inLen.toNat ∧ s.params.ibufCap ≤ s.reader.rptr ∧
        readBit s = .stuck .ibufOutside) ∨
      (s.reader.rcnt.val = 0 ∧ s.reader.rptr < s.regs.inLen.toNat ∧ s.reader.rptr < s.params.ibufCap ∧
        readBit s = .ok (some ((s.ibufByte s.reader.rptr).getLsbD 7)) { s with reader :=
          ⟨s.ibufByte s.reader.rptr, 7, s.reader.rptr + 1, s.reader.rbits + 1⟩ }) ∨
      (∃ n : Fin 9, s.reader.rcnt.val = n.val + 1 ∧
        readBit s = .ok (some (s.reader.rcur.getLsbD n.val)) { s with reader :=
          { s.reader with rcnt := n, rbits := s.reader.rbits + 1 } }) := by
  unfold readBit
  split
  next hc =>
    split
    next hl => exact .inl ⟨hc, hl, rfl⟩
    next hl =>
      rcases readIbuf_cases s.reader.rptr s with ⟨hp, e⟩ | ⟨hp, e⟩ <;> rw [e]
      · exact .inr (.inr (.inl ⟨hc, by omega, hp, rfl⟩))
      · exact .inr (.inl ⟨hc, by omega, hp, rfl⟩)
  next hc =>
    refine .inr (.inr (.inr ⟨⟨s.reader.rcnt.val - 1, by omega⟩, by simp only; omega, ?_⟩))
    simp [takeBit, hc]

end Sys2Proof.Machine
end

section
/-! PROOFS. The invariant: after an update of one part of the state, after a completion, and along every internal
operation. -/

namespace Sys2Proof.Machine

open OpResult

/-! ## The invariant after an update of one part of the state -/

/-- The part of the invariant that completion with an error needs of a state. -/
def State.Sound (s : State) : Prop := s.params.Legal ∧ s.BuffersOk ∧ s.TablesOk

namespace State.Inv

variable {s : State}

theorem legal (h : s.Inv) : s.params.Legal := h.1

theorem status (h : s.Inv) : s.StatusOk := h.2.1

theorem buffers (h : s.Inv) : s.BuffersOk := h.2.2.1

theorem tables (h : s.Inv) : s.TablesOk := h.2.2.2.1

theorem session (h : s.Inv) (hn : s.phase ≠ .none) (hx : s.phase ≠ .xIllegal) : s.SessionOk := h.2.2.2.2 hn hx

theorem sound (h : s.Inv) : s.Sound := ⟨h.legal, h.buffers, h.tables⟩

theorem running_iff (h : s.Inv) : s.phase ≠ .none ↔ s.regs.runState = .busy := h.status.2.2.1

theorem phase_of_not_busy (h : s.Inv) (hb : s.regs.runState ≠ .busy) : s.phase = .none :=
  not_not.mp fun hp => hb (h.running_iff.mp hp)

theorem setWriter (h : s.Inv) {w : Writer} (hw : s.WriterOk → State.WriterOk { s with writer := w }) :
    State.Inv { s with writer := w } :=
  ⟨h.legal, h.status, h.buffers, h.tables, fun hn hx =>
    let ⟨hwr, hrest⟩ := h.session hn hx
    ⟨hw hwr, hrest⟩⟩

theorem writeObuf (h : s.Inv) {a : Nat} (v : Byte) (ha : a < s.params.obufCap) :
    State.Inv { s with obuf := s.obuf.write a v } :=
  let ⟨hiw, how, hib, hob⟩ := h.buffers
  ⟨h.legal, h.status, ⟨hiw, Memory.wf_write a v how, hib, Memory.write_below hob ha⟩, h.tables, h.session⟩

theorem setReader (h : s.Inv) {r : Reader} (hr : s.ReaderOk → State.ReaderOk { s with reader := r }) :
    State.Inv { s with reader := r } :=
  ⟨h.legal, h.status, h.buffers, h.tables, fun hn hx =>
    let ⟨hwr, hrd, hrest⟩ := h.session hn hx
    ⟨hwr, hr hrd, hrest⟩⟩

theorem setDecoder (h : s.Inv) {d : Decoder} (hs : d.symrem < 2 ^ 32)
    (ho : s.decoder.optr ≤ s.params.obufCap → d.optr ≤ s.params.obufCap) : State.Inv { s with decoder := d } :=
  let ⟨hq, hc, _⟩ := h.tables
  ⟨h.legal, h.status, h.buffers, ⟨hq, hc, hs⟩, fun hn hx =>
    let ⟨hwr, hrd, hop, hrest⟩ := h.session hn hx
    ⟨hwr, hrd, ho hop, hrest⟩⟩

theorem setCur (h : s.Inv) (i : NodeId) : (setCur i s).Inv :=
  let ⟨_, _, hs⟩ := h.tables
  h.setDecoder hs id

theorem setEidx (h : s.Inv) {e : Nat} (he : e ≤ s.regs.inLen.toNat) : State.Inv { s with eidx := e } :=
  ⟨h.legal, h.status, h.buffers, h.tables, fun hn hx =>
    let ⟨hwr, hrd, hop, _, hlen⟩ := h.session hn hx
    ⟨hwr, hrd, hop, he, hlen⟩⟩

theorem setPq (h : s.Inv) {q : List NodeId} (hq : q.Pairwise (· < ·)) : State.Inv { s with pq := q } :=
  let ⟨_, hc, hs⟩ := h.tables
  ⟨h.legal, h.status, h.buffers, ⟨hq, hc, hs⟩, h.session⟩

theorem setCode (h : s.Inv) (v : Byte) {path : Bits} (hp : path.length ≤ 255) : (setCode v path s).Inv := by
  obtain ⟨hq, hc, hs⟩ := h.tables
  refine ⟨h.legal, h.status, h.buffers, ⟨hq, fun w => ?_, hs⟩, h.session⟩
  rw [codeAt_setCode]
  split
  · exact hp
  · exact hc w

theorem pqInsert (h : s.Inv) (i : NodeId) : (pqInsert i s).Inv := h.setPq (queueInsert_rising i s.pq h.tables.1)

theorem writeLeaf (h : s.Inv) (i : NodeId) (v : Byte) (w : Word) : (writeLeaf i v w s).Inv := h

theorem writeInner (h : s.Inv) (i l r : NodeId) (w : Word) : (writeInner i l r w s).Inv := h

theorem addWeight (h : s.Inv) (a b : Word) : (addWeight a b s).2.Inv := by
  rcases addWeight_cases a b s with ⟨_, e⟩ | ⟨_, e⟩ <;> rw [e] <;> exact h

end State.Inv

theorem errCode_ne_zero (k : ErrorKind) : k.errCode ≠ 0 := by cases k <;> decide

theorem errCode_le (k : ErrorKind) : k.errCode.toNat ≤ 7 := by cases k <;> decide

/-- Completion with an error establishes the invariant (60_exceptions.md R209). -/
theorem State.Sound.completeWithError {s : State} (h : s.Sound) (k : ErrorKind) : (completeWithError k s).Inv := by
  obtain ⟨hl, ⟨hiw, _, hib, _⟩, ht⟩ := h
  have hst : (Machine.completeWithError k s).StatusOk :=
    ⟨⟨fun _ => rfl, fun _ => errCode_ne_zero k⟩, errCode_le k, by simp, fun _ => ⟨rfl, rfl, rfl, rfl⟩, nofun⟩
  exact ⟨hl, hst, ⟨hiw, rfl, hib, nofun⟩, ht, fun hn => absurd rfl hn⟩

/-- Completion without an error establishes the invariant, the result being inside OBUF (10_state.md R26, R32). -/
theorem State.Inv.completeDone {s : State} (h : s.Inv) {n : Nat} (hn : n ≤ s.params.obufCap) (o c : Word) :
    (completeDone n o c s).Inv := by
  obtain ⟨hiw, how, hib, hob⟩ := h.buffers
  have hout : (BitVec.ofNat 32 n).toNat ≤ s.params.obufCap :=
    (BitVec.toNat_ofNat n 32).le.trans ((Nat.mod_le _ _).trans hn)
  have hst : (Machine.completeDone n o c s).StatusOk :=
    ⟨by simp, by simp, by simp, fun h => by simp at h, fun _ => hout⟩
  exact ⟨h.legal, hst, ⟨hiw, Memory.wf_keepBelow n how, hib, Memory.keepBelow_below hob⟩, h.tables,
    fun hn => absurd rfl hn⟩

/-! ## The invariant along an operation -/

/-- Where the operation returns, the invariant holds; where it raises, what completion with an error needs. -/
def OpResult.Keeps {α : Type} : OpResult α → Prop
  | .ok _ t => t.Inv
  | .raised _ t => t.Sound
  | .stuck _ => True
  | .refused _ => True

theorem OpResult.Keeps.bind {α β : Type} {x : OpResult α} {f : α → State → OpResult β} (h : x.Keeps)
    (hf : ∀ a t, t.Inv → (f a t).Keeps) : (x.bind f).Keeps := by
  cases x with
  | ok a t => exact hf a t h
  | raised k t => exact h
  | stuck e => trivial
  | refused r => trivial

theorem allocate_keeps {full : OpResult NodeId} {s : State} (h : s.Inv) (hf : full.Keeps) :
    (allocate full s).Keeps := by
  rcases allocate_cases full s with ⟨_, n, _, e⟩ | ⟨_, e⟩ <;> rw [e]
  · exact h
  · exact hf

theorem allocateBuild_keeps {s : State} (h : s.Inv) : (allocate (.stuck .arenaFull) s).Keeps :=
  allocate_keeps h trivial

theorem allocateRead_keeps {s : State} (h : s.Inv) : (allocateRead s).Keeps := allocate_keeps h h.sound

/-! ### COUNT, the queue, BUILD, DERIVE -/

@[simp] theorem bump_regs (b : Byte) (s : State) : (bump b s).regs = s.regs := by
  rcases addWeight_cases (s.freqAt b) 1 s with ⟨_, e⟩ | ⟨_, e⟩ <;> rw [bump, e] <;> rfl

theorem countLoop_keeps (n : Nat) {s : State} (h : s.Inv) (hn : s.eidx + n ≤ s.regs.inLen.toNat) :
    (countLoop n s).Keeps := by
  induction n generalizing s with
  | zero => exact h
  | succ n ih =>
    unfold countLoop
    rcases readIbuf_cases s.eidx s with ⟨_, e⟩ | ⟨_, e⟩ <;> rw [e]
    · have hb : (bump (s.ibufByte s.eidx) s).Inv := h.addWeight _ _
      refine ih (hb.setEidx ?_) ?_ <;> simp only [bump_regs] <;> omega
    · trivial

theorem countBytes_keeps {s : State} (h : s.Inv) : (countBytes s).Keeps :=
  countLoop_keeps _ (h.setEidx (Nat.zero_le _)) (Nat.zero_add _).le

theorem pqExtractMin_keeps {s : State} (h : s.Inv) : (pqExtractMin s).Keeps := by
  unfold pqExtractMin
  split
  · trivial
  next i is hq => exact h.setPq ((hq ▸ h.tables.1).sublist List.erase_sublist)

theorem buildLeaves_keeps (vs : List Byte) {s : State} (h : s.Inv) : (buildLeaves vs s).Keeps := by
  induction vs generalizing s with
  | nil => exact h
  | cons v vs ih =>
    unfold buildLeaves
    split
    · exact ih h
    · exact (allocateBuild_keeps h).bind fun i t ht => ih ((ht.writeLeaf i v _).pqInsert i)

theorem mergeOnce_keeps {s : State} (h : s.Inv) : (mergeOnce s).Keeps :=
  (pqExtractMin_keeps h).bind fun a _ h₁ => (pqExtractMin_keeps h₁).bind fun b _ h₂ =>
    (allocateBuild_keeps h₂).bind fun i _ ht => ((ht.addWeight _ _).writeInner i a b _).pqInsert i

theorem mergeLoop_keeps (n : Nat) {s : State} (h : s.Inv) : (mergeLoop n s).Keeps := by
  induction n generalizing s with
  | zero => exact h
  | succ n ih =>
    unfold mergeLoop
    split
    · exact h
    · exact (mergeOnce_keeps h).bind fun _ _ ht => ih ht

theorem buildTree_keeps {s : State} (h : s.Inv) : (buildTree s).Keeps := by
  refine (buildLeaves_keeps _ h).bind fun _ t ht => ?_
  unfold mergeAll
  split
  · exact ht.sound
  · refine (mergeLoop_keeps _ ht).bind fun _ u hu => ?_
    split
    · trivial
    · exact hu

theorem visit_keeps (levels : Nat) (i : NodeId) (path : Bits) {s : State} (h : s.Inv)
    (hp : path.length + levels ≤ 256) : (visit levels i path s).Keeps := by
  induction levels generalizing i path s with
  | zero => trivial
  | succ n ih =>
    have deeper (b : Bool) : (path ++ [b]).length + n ≤ 256 := by
      rw [List.length_append, List.length_singleton]
      omega
    unfold visit
    split
    · exact h.setCode _ (by omega)
    · exact (ih _ _ h (deeper _)).bind fun _ _ ht => ih _ _ ht (deeper _)

theorem deriveCodes_keeps {s : State} (h : s.Inv) : (deriveCodes s).Keeps := by
  unfold deriveCodes
  split
  · exact h.setCode _ (by simp)
  · exact visit_keeps _ _ _ h (by simp)

/-! ### The writer -/

/-- Placing a bit at bit `7 - k` leaves the bits below it alone. -/
theorem getLsbD_placeBit (acc : Byte) {j k : Nat} (b : Bool) (hj : j < 7 - k) :
    (placeBit acc k b).getLsbD j = acc.getLsbD j := by
  have hm : (BitVec.ofNat 8 (2 ^ (7 - k))).getLsbD j = false := by
    rw [BitVec.getLsbD_ofNat, Nat.testBit_two_pow_of_ne (by omega), Bool.and_false]
  have h8 : j < 8 := by omega
  unfold placeBit
  generalize BitVec.ofNat 8 (2 ^ (7 - k)) = m at hm ⊢
  cases b <;> simp [hm, h8, -BitVec.getLsbD_eq_getElem]

theorem writeBit_keeps (b : Bool) {s : State} (h : s.Inv) : (writeBit b s).Keeps := by
  rcases writeBit_cases b s with ⟨_, e⟩ | ⟨hopen, n, hn, e⟩ | ⟨hopen, h7, hp, e⟩ | ⟨_, _, _, e⟩ <;> rw [e]
  · trivial
  · refine h.setWriter fun ⟨hcap, hw, _⟩ => ⟨hcap, fun _ => ?_, fun hf => ?_⟩
    · obtain ⟨hbits, hzero⟩ := hw hopen
      refine ⟨by simp only; omega, fun k hk => ?_⟩
      simp only at hk ⊢
      rw [getLsbD_placeBit _ _ (by omega)]
      exact hzero k (by omega)
    · exact absurd (hopen.symm.trans hf) Bool.false_ne_true
  · refine (h.writeObuf _ hp).setWriter fun ⟨_, hw, _⟩ => ⟨hp, fun _ => ?_, fun hf => ?_⟩
    · obtain ⟨hbits, _⟩ := hw hopen
      exact ⟨by simp only at hbits ⊢; simp; omega, fun k _ => by simp⟩
    · exact absurd (hopen.symm.trans hf) Bool.false_ne_true
  · exact h.sound

theorem writeBits_keeps (bs : Bits) {s : State} (h : s.Inv) : (writeBits bs s).Keeps := by
  induction bs generalizing s with
  | nil => exact h
  | cons b bs ih => exact (writeBit_keeps b h).bind fun _ _ ht => ih ht

theorem flush_keeps {s : State} (h : s.Inv) : (flush s).Keeps := by
  rcases flush_cases s with ⟨_, e⟩ | ⟨hopen, h0, e⟩ | ⟨hopen, hc, hp, e⟩ | ⟨_, _, _, e⟩ <;> rw [e]
  · trivial
  · refine h.setWriter fun ⟨hcap, hw, _⟩ => ⟨hcap, fun hf => (by cases hf), fun _ => ⟨h0, ?_⟩⟩
    have := (hw hopen).1
    simp only
    omega
  · refine (h.writeObuf _ hp).setWriter fun ⟨_, hw, _⟩ => ⟨hp, fun hf => (by cases hf), fun _ => ⟨rfl, ?_⟩⟩
    have := (hw hopen).1
    simp only at this ⊢
    omega
  · exact h.sound

theorem writeTreeLevels_keeps (levels : Nat) (i : NodeId) {s : State} (h : s.Inv) :
    (writeTreeLevels levels i s).Keeps := by
  induction levels generalizing i s with
  | zero => trivial
  | succ n ih =>
    unfold writeTreeLevels
    split
    · exact (writeBit_keeps _ h).bind fun _ _ ht => writeBits_keeps _ ht
    · exact (writeBit_keeps _ h).bind fun _ _ ht => (ih _ ht).bind fun _ _ hu => ih _ hu

/-! ### The reader -/

/-- READ_BIT keeps the reader's registers in agreement (10_state.md R42). -/
theorem readBit_readerOk {s t : State} {b : Option Bool} (h : s.ReaderOk) (e : readBit s = .ok b t) : t.ReaderOk := by
  obtain ⟨hpos, hptr, hcur⟩ := h
  rcases readBit_cases s with ⟨_, _, e'⟩ | ⟨_, _, _, e'⟩ | ⟨hc, hlen, _, e'⟩ | ⟨n, hn, e'⟩ <;>
    rw [e'] at e <;> cases e
  · exact ⟨hpos, hptr, hcur⟩
  · exact ⟨by simp; omega, hlen, fun _ => rfl⟩
  · exact ⟨by simp only; omega, hptr, fun _ => hcur (by omega)⟩

/-- READ_BIT raises nothing and is never refused. -/
theorem readBit_ends (s : State) :
    (∃ b r, readBit s = .ok b { s with reader := r }) ∨ readBit s = .stuck .ibufOutside := by
  rcases readBit_cases s with ⟨_, _, e⟩ | ⟨_, _, _, e⟩ | ⟨_, _, _, e⟩ | ⟨_, _, e⟩
  · exact .inl ⟨_, _, e⟩
  · exact .inr e
  · exact .inl ⟨_, _, e⟩
  · exact .inl ⟨_, _, e⟩

theorem readBit_keeps {s : State} (h : s.Inv) : (readBit s).Keeps := by
  rcases readBit_ends s with ⟨b, r, e⟩ | e <;> rw [e]
  · exact h.setReader fun hr => readBit_readerOk hr e
  · trivial

theorem readBitsLoop_keeps (k v : Nat) {s : State} (h : s.Inv) : (readBitsLoop k v s).Keeps := by
  induction k generalizing v s with
  | zero => exact h
  | succ k ih =>
    refine (readBit_keeps h).bind fun b t ht => ?_
    cases b with
    | none => exact ht
    | some b => exact ih _ ht

theorem readTreeLevels_keeps (levels : Nat) {s : State} (h : s.Inv) : (readTreeLevels levels s).Keeps := by
  induction levels generalizing s with
  | zero => exact h.sound
  | succ n ih =>
    refine (readBit_keeps h).bind fun flag s₁ h₁ => ?_
    cases flag with
    | none => exact h₁.sound
    | some f =>
      refine (allocateRead_keeps h₁).bind fun i s₂ h₂ => ?_
      cases f with
      | true =>
        refine (readBitsLoop_keeps 8 0 h₂).bind fun v s₃ h₃ => ?_
        cases v with
        | none => exact h₃.sound
        | some v => exact h₃
      | false => exact (ih h₂).bind fun _ _ h₃ => (ih h₃).bind fun _ _ h₄ => h₄

/-! ### WALK and the decoded bytes -/

theorem walkLoop_keeps (rounds : Nat) {s : State} (h : s.Inv) : (walkLoop rounds s).Keeps := by
  induction rounds generalizing s with
  | zero => exact h.sound
  | succ n ih =>
    unfold walkLoop
    split
    · exact h
    · refine (readBit_keeps h).bind fun b t ht => ?_
      cases b with
      | none => exact ht.sound
      | some b => exact ih (ht.setCur _)

theorem walk_keeps {s : State} (h : s.Inv) : (walk s).Keeps := by
  unfold walk
  split
  · refine (readBit_keeps (h.setCur _)).bind fun b t ht => ?_
    cases b with
    | none => exact ht.sound
    | some b => exact ht
  · exact walkLoop_keeps _ (h.setCur _)

theorem emitSymbol_keeps (v : Byte) {s : State} (h : s.Inv) : (emitSymbol v s).Keeps := by
  unfold emitSymbol
  rcases writeObuf_cases s.decoder.optr v s with ⟨hp, e⟩ | ⟨_, e⟩ <;> rw [e]
  · have hs : s.decoder.symrem < 2 ^ 32 := h.tables.2.2
    exact (h.writeObuf v hp).setDecoder (by simp only; omega) fun _ => hp
  · exact h.sound

end Sys2Proof.Machine
end

section
/-! PROOFS. What an instruction that starts no command and what a move of the engine can do, each said once together
with the invariant. -/

namespace Sys2Proof.Machine

open OpResult

/-! ## What an instruction that starts no command can do -/

/-- `t` is what operations that returned make of `s`. -/
structure Worked (s t : State) : Prop where
  frame : OpFrame s t
  inv : s.Inv → t.Inv

theorem Worked.refl (s : State) : Worked s s := ⟨.refl s, id⟩

theorem Worked.trans {s t u : State} (h₁ : Worked s t) (h₂ : Worked t u) : Worked s u :=
  ⟨h₁.frame.trans h₂.frame, h₂.inv ∘ h₁.inv⟩

/-- An operation on `s` returned, or raised the error `k` in the state `u` and completion followed. -/
inductive OpEffect (s : State) : State → Prop
  | returns {t : State} (h : Worked s t) : OpEffect s t
  | fails (k : ErrorKind) {u : State} (hf : OpFrame s u) (hs : s.Inv → u.Sound) : OpEffect s (completeWithError k u)

theorem OpEffect.inv {s t : State} (h : OpEffect s t) (hs : s.Inv) : t.Inv := by
  cases h with
  | returns hw => exact hw.inv hs
  | fails k _ hu => exact (hu hs).completeWithError k

/-- An operation that leaves a command running has returned. -/
theorem OpEffect.worked {s t : State} (h : OpEffect s t) (hp : t.phase ≠ .none) : Worked s t := by
  cases h with
  | returns hw => exact hw
  | fails k _ _ => exact absurd rfl hp

theorem finish_effect {α : Type} {x : OpResult α} {r : α → UopResult} {s t : State} (hf : x.Ends (OpFrame s))
    (hk : s.Inv → x.Keeps) (e : x.finish r = .next t) : OpEffect s t := by
  rcases finish_eq_next.mp e with ⟨a, u, rfl, rfl⟩ | ⟨k, u, rfl, rfl⟩
  · exact .returns ⟨hf.trans ⟨rfl, rfl, rfl, rfl⟩, hk⟩
  · exact .fails k hf hk

/-- LEN loads SYMREM. -/
theorem execLen_worked (n : Word) (s : State) :
    Worked s { s with decoder := { s.decoder with symrem := n.toNat } } :=
  ⟨⟨rfl, rfl, rfl, rfl⟩, fun h => h.setDecoder n.isLt id⟩

theorem execCode_effect {c : Bits} {s t : State} (e : execCode c s = .next t) : OpEffect s t := by
  unfold execCode at e
  split at e
  · cases e; exact .returns (.refl s)
  · split at e
    · cases e
    · split at e
      · exact finish_effect (emitSymbol_frame _ s) (emitSymbol_keeps _) e
      · cases e
      · cases e; exact .fails _ (.refl s) State.Inv.sound

theorem execTreeLeaf_effect {v : Byte} {s t : State} (e : execTreeLeaf v s = .next t) : OpEffect s t :=
  finish_effect (treeLeaf_frame v s) (fun h => (allocateRead_keeps h).bind fun _ _ ht => ht) e

theorem execTreeNode_effect {s t : State} (e : execTreeNode s = .next t) : OpEffect s t :=
  finish_effect (treeNode_frame s) (fun h => (allocateRead_keeps h).bind fun _ _ h₁ =>
    (readTreeLevels_keeps _ h₁).bind fun _ _ h₂ => (readTreeLevels_keeps _ h₂).bind fun _ _ h₃ => h₃) e

theorem exec_effect {i : Instr} (hi : i.startsNothing = true) {s t : State} (e : exec i s = .next t) :
    OpEffect s t := by
  cases i with
  | nop => cases e; exact .returns (.refl s)
  | encode => cases hi
  | decode => cases hi
  | len n => cases e; exact .returns (execLen_worked n s)
  | treeLeaf v => exact execTreeLeaf_effect e
  | treeNode => exact execTreeNode_effect e
  | code c => exact execCode_effect e
  | pad k => cases e; exact .returns (.refl s)
  | count => exact finish_effect ((countBytes_frame s).mono fun _ => .of_countOnly) countBytes_keeps e
  | pqInsert i => cases e; exact .returns ⟨⟨rfl, rfl, rfl, rfl⟩, fun h => h.pqInsert i⟩
  | pqExtractMin => exact finish_effect ((pqExtractMin_frame s).mono fun _ => .of_buildOnly) pqExtractMin_keeps e
  | build => exact finish_effect ((buildTree_frame s).mono fun _ => .of_buildOnly) buildTree_keeps e
  | derive => exact finish_effect ((deriveCodes_frame s).mono fun _ => .of_codeOnly) deriveCodes_keeps e
  | writeBit b => exact finish_effect ((writeBit_frame b s).mono fun _ => .of_writerOnly) (writeBit_keeps b) e
  | writeBits bs => exact finish_effect ((writeBits_frame bs s).mono fun _ => .of_writerOnly) (writeBits_keeps bs) e
  | flush => exact finish_effect ((flush_frame s).mono fun _ => .of_writerOnly) flush_keeps e
  | readBit => exact finish_effect ((readBit_frame s).mono fun _ => .of_readerOnly) readBit_keeps e
  | readBits k =>
    exact finish_effect ((readBitsLoop_frame k 0 s).mono fun _ => .of_readerOnly) (readBitsLoop_keeps k 0) e
  | writeTree i =>
    exact finish_effect ((writeTreeLevels_frame _ i s).mono fun _ => .of_writerOnly) (writeTreeLevels_keeps _ i) e
  | readTree =>
    exact finish_effect ((readTreeLevels_frame _ s).mono fun _ => .of_treeReadOnly) (readTreeLevels_keeps _) e
  | walk => exact finish_effect ((walk_frame s).mono fun _ => .of_walkOnly) walk_keeps e

theorem runCall_effect {c : UopCall} {s t : State} (e : runCall c s = .next t) : OpEffect s t := by
  unfold runCall at e
  split at e
  next i hi => exact exec_effect (decodeCall_startsNothing hi) e
  next => cases e

theorem runBroken_effect {d : DecodeError} {s t : State} (e : runBroken d s = .next t) : OpEffect s t := by
  unfold runBroken at e
  split at e <;> cases e
  · exact .fails _ (.refl s) State.Inv.sound
  · exact .returns (.refl s)

theorem runElement_effect {k : PlaceKind} {bs : Bits} {s t : State} (e : runElement k bs s = .next t) :
    OpEffect s t := by
  unfold runElement at e
  split at e
  · cases e
  · split at e
    next i rest hi => exact exec_effect (decodeElement_startsNothing hi) e
    next => exact runBroken_effect e

/-! ## What a move of the engine can do -/

/-- What a move of the engine makes of `s`: nothing with no command running; else operations that returned, and after
them the same phase, a successor of it, or a completion. -/
inductive EngineEffect (s : State) : State → Prop
  | rests (hp : s.phase = .none) : EngineEffect s s
  | stays {u : State} (hp : s.phase ≠ .none) (hw : Worked s u) : EngineEffect s u
  | moves (p : Phase) {u : State} (hp : s.phase ≠ .none) (hw : Worked s u) (hq : p ∈ s.phase.successors)
      (hlen : s.Inv → s.regs.inLen.toNat ≤ s.params.ibufCap) : EngineEffect s (setPhase p u)
  | completes (n : Nat) (o c : Word) {u : State} (hp : s.phase ≠ .none) (hw : Worked s u)
      (hn : s.Inv → n ≤ u.params.obufCap) : EngineEffect s (completeDone n o c u)
  | fails (k : ErrorKind) {u : State} (hp : s.phase ≠ .none) (hf : OpFrame s u) (hs : s.Inv → u.Sound) :
      EngineEffect s (completeWithError k u)

/-- Every phase of a running command but X_ILLEGAL has a session. -/
theorem State.Inv.setPhase {s : State} (h : s.Inv) (hp : s.phase ≠ .none) {p : Phase}
    (hq : p ∈ s.phase.successors) (hlen : s.regs.inLen.toNat ≤ s.params.ibufCap) : (setPhase p s).Inv := by
  have hx : s.phase ≠ .xIllegal := fun hx => by rw [hx] at hq; cases hq
  have hpn : p ≠ .none := by
    rintro rfl
    cases hs : s.phase <;> rw [hs] at hq <;> simp [Phase.successors] at hq
  obtain ⟨herr, hle, hbusy, hres⟩ := h.status
  obtain ⟨hwr, hrd, hop, hei, _⟩ := h.session hp hx
  exact ⟨h.legal, ⟨herr, hle, ⟨fun _ => hbusy.mp hp, fun _ => hpn⟩, hres⟩, h.buffers, h.tables,
    fun _ _ => ⟨hwr, hrd, hop, hei, fun _ _ => hlen⟩⟩

theorem EngineEffect.inv {s t : State} (h : EngineEffect s t) (hs : s.Inv) : t.Inv := by
  cases h with
  | rests _ => exact hs
  | stays _ hw => exact hw.inv hs
  | moves p hp hw hq hlen =>
    obtain ⟨hpar, hregs, -, hph⟩ := hw.frame
    exact (hw.inv hs).setPhase (hph ▸ hp) (hph ▸ hq) (hregs ▸ hpar ▸ hlen hs)
  | completes n o c _ hw hn => exact (hw.inv hs).completeDone (hn hs) o c
  | fails k _ _ hu => exact (hu hs).completeWithError k

/-- The phases after the length check, in which the input is inside IBUF. -/
def Phase.checked : Phase → Bool
  | .none => false
  | .xIllegal => false
  | .eCheck => false
  | .dCheck => false
  | _ => true

theorem State.Inv.session_of_checked {s : State} (h : s.Inv) (hp : s.phase.checked = true) : s.SessionOk :=
  h.session (fun e => by rw [e] at hp; cases hp) (fun e => by rw [e] at hp; cases hp)

theorem State.Inv.inLen_le {s : State} (h : s.Inv) (hp : s.phase.checked = true) :
    s.regs.inLen.toNat ≤ s.params.ibufCap :=
  (h.session_of_checked hp).2.2.2.2 (fun e => by rw [e] at hp; cases hp) (fun e => by rw [e] at hp; cases hp)

theorem Phase.ne_none_of_checked {p : Phase} (hp : p.checked = true) : p ≠ .none := fun e => by rw [e] at hp; cases hp

/-- A phase that runs an operation: the operation ended the command, or it returned and the phase goes on. -/
theorem andThen_exec_cases {i : Instr} (hi : i.startsNothing = true) {s t : State} (hp : s.phase ≠ .none)
    {f : State → Host.Outcome State Fault Refusal} (e : andThen (exec i s) f = .next t) :
    EngineEffect s t ∨ ∃ u, exec i s = .next u ∧ Worked s u ∧ f u = .next t := by
  obtain ⟨u, hu, ⟨hn, rfl⟩ | ⟨hn, hf⟩⟩ := andThen_next_cases e
  · left
    cases exec_effect hi hu with
    | returns hw => exact .stays hp hw
    | fails k hfr hs => exact .fails k hp hfr hs
  · exact .inr ⟨u, hu, (exec_effect hi hu).worked hn, hf⟩

theorem thenPhase_effect {i : Instr} (hi : i.startsNothing = true) {s t : State} (hp : s.phase.checked = true)
    {p : Phase} (hq : p ∈ s.phase.successors) (e : thenPhase (exec i s) p = .next t) : EngineEffect s t := by
  rcases andThen_exec_cases hi (Phase.ne_none_of_checked hp) e with h | ⟨u, -, hw, hf⟩
  · exact h
  · cases hf
    exact .moves p (Phase.ne_none_of_checked hp) hw hq fun h => h.inLen_le hp

theorem phaseECheck_effect {s t : State} (hp : s.phase = .eCheck) (e : phaseECheck s = .next t) :
    EngineEffect s t := by
  have hn : s.phase ≠ .none := by rw [hp]; decide
  unfold phaseECheck at e
  split at e
  · cases e; exact .fails _ hn (.refl s) State.Inv.sound
  · split at e <;> cases e
    · exact .moves .eLen hn (.refl s) (by rw [hp]; decide) fun _ => by omega
    · exact .moves .eCount hn (.refl s) (by rw [hp]; decide) fun _ => by omega

theorem phaseDCheck_effect {s t : State} (hp : s.phase = .dCheck) (e : phaseDCheck s = .next t) :
    EngineEffect s t := by
  have hn : s.phase ≠ .none := by rw [hp]; decide
  unfold phaseDCheck at e
  split at e <;> cases e
  · exact .fails _ hn (.refl s) State.Inv.sound
  · exact .moves .dLen hn (.refl s) (by rw [hp]; decide) fun _ => by omega

theorem phaseELen_effect {s t : State} (hp : s.phase = .eLen) (e : phaseELen s = .next t) : EngineEffect s t :=
  thenPhase_effect rfl (by rw [hp]; rfl) (by rw [hp]; split <;> decide) e

theorem phaseETree_effect {s t : State} (hp : s.phase = .eTree) (e : phaseETree s = .next t) : EngineEffect s t := by
  have hc : s.phase.checked = true := by rw [hp]; rfl
  rcases andThen_exec_cases rfl (Phase.ne_none_of_checked hc) e with h | ⟨u, -, hw, hf⟩
  · exact h
  · cases hf
    have hu : Worked u { u with hdrBits := u.writer.wbits - s.writer.wbits, eidx := 0 } :=
      ⟨⟨rfl, rfl, rfl, rfl⟩, fun h => h.setEidx (Nat.zero_le _)⟩
    exact .moves .ePayload (Phase.ne_none_of_checked hc) (hw.trans hu) (by rw [hp]; decide) fun h => h.inLen_le hc

theorem WriterOnly.eidx {s t : State} (h : WriterOnly s t) : t.eidx = s.eidx := by
  unfold WriterOnly at h
  rw [h]

/-- WRITE_BITS leaves EIDX alone, wherever it ends. -/
theorem exec_writeBits_eidx {bs : Bits} {s t : State} (e : exec (.writeBits bs) s = .next t) : t.eidx = s.eidx := by
  have hf := writeBits_frame bs s
  rcases finish_eq_next.mp e with ⟨a, u, hu, rfl⟩ | ⟨k, u, hu, rfl⟩ <;> rw [hu] at hf
  · exact WriterOnly.eidx (t := u) hf
  · exact WriterOnly.eidx (t := u) hf

theorem phaseEPayload_effect {s t : State} (hp : s.phase = .ePayload) (e : phaseEPayload s = .next t) :
    EngineEffect s t := by
  have hc : s.phase.checked = true := by rw [hp]; rfl
  have hn := Phase.ne_none_of_checked hc
  unfold phaseEPayload at e
  split at e
  next hlt =>
    rcases readIbuf_cases s.eidx s with ⟨_, er⟩ | ⟨_, er⟩ <;> rw [er] at e
    · simp only at e
      split at e
      · cases e; exact .fails _ hn (.refl s) State.Inv.sound
      · rcases andThen_exec_cases rfl hn e with h | ⟨u, hu, hw, hf⟩
        · exact h
        · cases hf
          refine .stays hn (hw.trans ⟨⟨rfl, rfl, rfl, rfl⟩, fun h => h.setEidx ?_⟩)
          rw [exec_writeBits_eidx hu, hw.frame.regs]
          exact hlt
    · cases e
  next =>
    cases e
    exact .moves .eFlush hn (.refl s) (by rw [hp]; decide) fun h => h.inLen_le hc

theorem phaseEFlush_effect {s t : State} (hp : s.phase = .eFlush) (e : phaseEFlush s = .next t) :
    EngineEffect s t := by
  have hc : s.phase.checked = true := by rw [hp]; rfl
  rcases andThen_exec_cases rfl (Phase.ne_none_of_checked hc) e with h | ⟨u, -, hw, hf⟩
  · exact h
  · cases hf
    exact .completes _ _ _ (Phase.ne_none_of_checked hc) hw fun h =>
      ((hw.inv h).session_of_checked (hw.frame.phase ▸ hc)).1.1

/-- Completion of DECODE in a state that a checked phase has worked on. -/
theorem completeDecode_effect {s u : State} (hc : s.phase.checked = true) (hw : Worked s u) :
    EngineEffect s (completeDecode u) :=
  .completes _ _ _ (Phase.ne_none_of_checked hc) hw fun h =>
    ((hw.inv h).session_of_checked (hw.frame.phase ▸ hc)).2.2.1

theorem phaseDLen_effect {s t : State} (hp : s.phase = .dLen) (e : phaseDLen s = .next t) : EngineEffect s t := by
  have hc : s.phase.checked = true := by rw [hp]; rfl
  have hn := Phase.ne_none_of_checked hc
  rcases andThen_exec_cases rfl hn e with h | ⟨u, -, hw, hf⟩
  · exact h
  · split at hf
    next n _ =>
      have hu : u.phase ≠ .none := hw.frame.phase ▸ hn
      have hl := hw.trans (execLen_worked (BitVec.ofNat 32 n) u)
      obtain ⟨v, hv, ⟨hvn, -⟩ | ⟨-, hv'⟩⟩ := andThen_next_cases hf <;> cases hv
      · exact absurd hvn hu
      · split at hv' <;> cases hv'
        · exact completeDecode_effect hc hl
        · exact .moves .dTree hn hl (by rw [hp]; decide) fun h => h.inLen_le hc
    next =>
      cases hf
      exact .fails _ hn hw.frame fun h => (hw.inv h).sound

theorem phaseDTree_effect {s t : State} (hp : s.phase = .dTree) (e : phaseDTree s = .next t) : EngineEffect s t := by
  have hc : s.phase.checked = true := by rw [hp]; rfl
  have hn := Phase.ne_none_of_checked hc
  rcases andThen_exec_cases rfl hn e with h | ⟨u, -, hw, hf⟩
  · exact h
  · split at hf <;> cases hf
    next i _ =>
      have hu : Worked u { u with
          arena := { u.arena with root := i }, hdrBits := u.reader.rbits - s.reader.rbits } :=
        ⟨⟨rfl, rfl, rfl, rfl⟩, id⟩
      exact .moves .dPayload hn (hw.trans hu) (by rw [hp]; decide) fun h => h.inLen_le hc
    next => exact .stays hn hw

theorem phaseDPayload_effect {s t : State} (hp : s.phase = .dPayload) (e : phaseDPayload s = .next t) :
    EngineEffect s t := by
  have hc : s.phase.checked = true := by rw [hp]; rfl
  have hn := Phase.ne_none_of_checked hc
  unfold phaseDPayload at e
  split at e
  · rcases andThen_exec_cases rfl hn e with h | ⟨u, -, hw, hf⟩
    · exact h
    · split at hf
      next v _ =>
        cases finish_effect (emitSymbol_frame v u) (emitSymbol_keeps v) hf with
        | returns hw' => exact .stays hn (hw.trans hw')
        | fails k hfr hs => exact .fails k hn (hw.frame.trans hfr) (hs ∘ hw.inv)
      next =>
        cases hf
        exact .stays hn hw
  · cases e
    exact completeDecode_effect hc (.refl s)

theorem engineTurn_effect {s t : State} (e : engineTurn s = .next t) : EngineEffect s t := by
  unfold engineTurn at e
  split at e
  next hp => cases e; exact .rests hp
  next hp => exact phaseECheck_effect hp e
  next hp => exact thenPhase_effect rfl (by rw [hp]; rfl) (by rw [hp]; decide) e
  next hp => exact thenPhase_effect rfl (by rw [hp]; rfl) (by rw [hp]; decide) e
  next hp => exact thenPhase_effect rfl (by rw [hp]; rfl) (by rw [hp]; decide) e
  next hp => exact phaseELen_effect hp e
  next hp => exact phaseETree_effect hp e
  next hp => exact phaseEPayload_effect hp e
  next hp => exact phaseEFlush_effect hp e
  next hp => exact phaseDCheck_effect hp e
  next hp => exact phaseDLen_effect hp e
  next hp => exact phaseDTree_effect hp e
  next hp => exact phaseDPayload_effect hp e
  next hp => cases e; exact .fails _ (by rw [hp]; decide) (.refl s) State.Inv.sound

end Sys2Proof.Machine
end

section
/-! PROOFS. What a host action and what a step can do, and that every step keeps the invariant (O56). -/

namespace Sys2Proof.Machine

/-! ## What a host action can do -/

/-- A host write of the whole register `num`, by number or by system address (20_memory.md R60, R69). -/
def HostAction.WritesReg (p : Config.Params) (num : Nat) (v : Word) (a : HostAction) : Prop :=
  a = .writeReg num 32 v ∨ a = .busWrite (regAddress p num) 32 v

/-- A host write of IBUF byte `i`, by index or by system address. -/
def HostAction.WritesIbuf (p : Config.Params) (i : Nat) (a : HostAction) : Prop :=
  (∃ v, a = .writeIbuf i v) ∨ ∃ v, a = .busWrite (ibufAddress p i) 8 v

/-- What the host action `a`, a WAIT that goes on apart, makes of `s`: it is ignored; it is a read, which draws at
most a free value; or it is one of the writes that are taken. -/
inductive HostEffect (s : State) (a : HostAction) : State → Prop
  | ignored : HostEffect s a s
  | read (r : HostRead) (d : Nat) : HostEffect s a { s with reads := r :: s.reads, draws := d }
  | reset (ha : a = .reset) : HostEffect s a (resetAction s)
  | start (v : Word) (p : Phase) (ha : a.WritesReg s.params 0 v) (hb : s.regs.runState ≠ .busy)
      (hp : p = .eCheck ∨ p = .dCheck) : HostEffect s a (enterPhase p (clearInternal s))
  | illegal (v : Word) (ha : a.WritesReg s.params 0 v) (hb : s.regs.runState ≠ .busy) :
      HostEffect s a (enterPhase .xIllegal s)
  | inLen (v : Word) (ha : a.WritesReg s.params 2 v) (hb : s.regs.runState ≠ .busy) :
      HostEffect s a { s with regs := { s.regs with inLen := v } }
  | ibuf (i : Nat) (v : Byte) (ha : a.WritesIbuf s.params i) (hi : i < s.params.ibufCap)
      (hb : s.regs.runState ≠ .busy) : HostEffect s a { s with ibuf := s.ibuf.write i v }
  | obuf (i : Nat) (v : Byte) (hi : i < s.params.obufCap) (hb : s.regs.runState ≠ .busy) :
      HostEffect s a { s with obuf := s.obuf.write i v }

theorem isBusy_eq_false {s : State} (h : s.regs.runState ≠ .busy) : s.isBusy = false := decide_eq_false h

theorem isBusy_eq_true {s : State} (h : s.regs.runState = .busy) : s.isBusy = true := decide_eq_true h

theorem startIllegal_cases (s : State) :
    (s.regs.runState = .busy ∧ startIllegal s = s) ∨
      (s.regs.runState ≠ .busy ∧ startIllegal s = enterPhase .xIllegal s) := by
  by_cases h : s.regs.runState = .busy <;> simp [startIllegal, State.isBusy, h]

theorem writeInLen_cases (v : Word) (s : State) :
    (s.regs.runState = .busy ∧ writeInLen v s = s) ∨
      (s.regs.runState ≠ .busy ∧ writeInLen v s = { s with regs := { s.regs with inLen := v } }) := by
  by_cases h : s.regs.runState = .busy <;> simp [writeInLen, State.isBusy, h]

theorem startCommand_effect {a : HostAction} {s : State} {v : Word} (ha : a.WritesReg s.params 0 v) {p : Phase}
    (hp : p = .eCheck ∨ p = .dCheck) : HostEffect s a (startCommand p s) := by
  rcases startCommand_cases p s with ⟨_, e⟩ | ⟨hb, e⟩ <;> rw [e]
  · exact .ignored
  · exact .start v p ha hb hp

/-- A command word is NOP, ENCODE or DECODE. -/
theorem decodeCommand_cases {w : Word} {i : Instr} (h : decodeCommand w = .ok i) :
    i = .nop ∨ i = .encode ∨ i = .decode := by
  unfold decodeCommand at h
  split at h
  · cases h; exact .inl rfl
  · split at h
    · cases h; exact .inr (.inl rfl)
    · split at h <;> cases h
      exact .inr (.inr rfl)

theorem writeCtrl_effect {a : HostAction} {s t : State} {v : Word} (ha : a.WritesReg s.params 0 v)
    (e : writeCtrl v s = .next t) : HostEffect s a t := by
  unfold writeCtrl at e
  split at e
  next i hi =>
    rcases decodeCommand_cases hi with rfl | rfl | rfl <;> cases e
    · exact .ignored
    · exact startCommand_effect ha (.inl rfl)
    · exact startCommand_effect ha (.inr rfl)
  next =>
    cases e
    rcases startIllegal_cases s with ⟨_, e⟩ | ⟨hb, e⟩ <;> rw [e]
    · exact .ignored
    · exact .illegal v ha hb

theorem hostWriteReg_effect {a : HostAction} {s t : State} {num width : Nat} {v : Word}
    (ha : width = 32 → a.WritesReg s.params num v) (e : hostWriteReg num width v s = .next t) :
    HostEffect s a t := by
  unfold hostWriteReg at e
  split at e
  · cases e
  next hw =>
    have ha := ha (not_not.mp hw)
    split at e
    · exact writeCtrl_effect ha e
    · cases e
      rcases writeInLen_cases v s with ⟨_, e⟩ | ⟨hb, e⟩ <;> rw [e]
      · exact .ignored
      · exact .inLen v ha hb
    · cases e; exact .ignored

theorem hostWriteIbuf_effect {a : HostAction} {s t : State} {i : Nat} {v : Byte} (ha : a.WritesIbuf s.params i)
    (e : hostWriteIbuf i v s = .next t) : HostEffect s a t := by
  unfold hostWriteIbuf at e
  split at e
  · cases e
  next hi =>
    split at e
    · cases e
    next hb =>
      cases e
      exact .ibuf i v ha (by omega) fun h => hb (isBusy_eq_true h)

theorem hostWriteObuf_effect {a : HostAction} {s t : State} {i : Nat} {v : Byte}
    (e : hostWriteObuf i v s = .next t) : HostEffect s a t := by
  unfold hostWriteObuf at e
  split at e
  · cases e
  next hi =>
    split at e
    · cases e
    next hb =>
      cases e
      exact .obuf i v (by omega) fun h => hb (isBusy_eq_true h)

theorem hostReadReg_effect {a : HostAction} {s t : State} {num width : Nat}
    (e : hostReadReg num width s = .next t) : HostEffect s a t := by
  unfold hostReadReg at e
  split at e
  · cases e
  · split at e <;> cases e
    · exact .read _ _
    · exact .read _ s.draws

theorem hostReadIbuf_effect {a : HostAction} {s t : State} {i : Nat}
    (e : hostReadIbuf i s = .next t) : HostEffect s a t := by
  unfold hostReadIbuf at e
  split at e
  · cases e
  · split at e <;> cases e
    · exact .read _ _
    · exact .read _ s.draws

theorem hostReadObuf_effect {a : HostAction} {s t : State} {i : Nat}
    (e : hostReadObuf i s = .next t) : HostEffect s a t := by
  unfold hostReadObuf at e
  split at e
  · cases e
  · split at e <;> cases e
    · exact .read _ _
    · exact .read _ s.draws

/-- An address in IBUF's window is that of its byte. -/
theorem eq_ibufAddress_of_mem {p : Config.Params} {x i : Nat} (h : .ibuf i ∈ busTargets p x) :
    x = ibufAddress p i := by
  unfold busTargets at h
  simp only [List.mem_append] at h
  rcases h with (h | h) | h <;> split at h <;> simp at h
  next hx =>
    unfold ibufAddress
    omega

theorem hostBusWrite_effect {s t : State} {x width : Nat} {v : Word} (e : hostBusWrite x width v s = .next t) :
    HostEffect s (.busWrite x width v) t := by
  unfold hostBusWrite at e
  split at e
  next i _ =>
    split at e
    next hx => exact hostWriteReg_effect (fun hw => .inr (by rw [hx, hw])) e
    next => cases e
  next i hi =>
    split at e
    next hw =>
      have hx : x = ibufAddress s.params i := eq_ibufAddress_of_mem (by rw [hi]; exact List.mem_singleton.mpr rfl)
      exact hostWriteIbuf_effect (.inr ⟨v, by rw [hx, hw]⟩) e
    next => cases e
  next =>
    split at e
    · exact hostWriteObuf_effect e
    · cases e
  next => cases e

theorem hostBusRead_effect {a : HostAction} {s t : State} {x width : Nat} (e : hostBusRead x width s = .next t) :
    HostEffect s a t := by
  unfold hostBusRead at e
  split at e
  · split at e
    · exact hostReadReg_effect e
    · cases e
  · split at e
    · exact hostReadIbuf_effect e
    · cases e
  · split at e
    · exact hostReadObuf_effect e
    · cases e
  · cases e

/-- A host action: a WAIT in which the engine moves, or one of the effects above. -/
theorem hostAct_cases {a : HostAction} {w s t : State} (e : hostAct a w s = .next t) :
    (a = .wait ∧ engineTurn w = .next t) ∨ HostEffect s a t := by
  cases a with
  | reset => cases e; exact .inr (.reset rfl)
  | writeReg num width v => exact .inr (hostWriteReg_effect (fun hw => .inl (by rw [hw])) e)
  | readReg num width => exact .inr (hostReadReg_effect e)
  | writeIbuf i v => exact .inr (hostWriteIbuf_effect (.inl ⟨v, rfl⟩) e)
  | readIbuf i => exact .inr (hostReadIbuf_effect e)
  | writeObuf i v => exact .inr (hostWriteObuf_effect e)
  | readObuf i => exact .inr (hostReadObuf_effect e)
  | busWrite x width v => exact .inr (hostBusWrite_effect e)
  | busRead x width => exact .inr (hostBusRead_effect e)
  | wait =>
    simp only [hostAct, hostWait] at e
    split at e
    · cases e; exact .inr (.read _ s.draws)
    · exact .inl ⟨rfl, e⟩

/-! ## What a step can do -/

/-- The turn to come is a move of the engine: no turn at all, one of its own, or a WAIT. -/
def State.EngineNext (s : State) : Prop :=
  s.script = [] ∨ ∃ rest, s.script = .engine :: rest ∨ s.script = .host .wait :: rest

/-- The turn to come is an operation or an element run alone. -/
def State.OperationNext (s : State) : Prop :=
  ∃ rest, (∃ c, s.script = .call c :: rest) ∨ ∃ k bs, s.script = .element k bs :: rest

/-- A step is a move of the engine, a host action, or an operation or an element run alone; each runs on the state
with some script left. -/
inductive StepEffect (s t : State) : Prop
  | engine (rest : List Turn) (hs : s.EngineNext) (h : EngineEffect { s with script := rest } t)
  | host (a : HostAction) (rest : List Turn) (hs : s.script = .host a :: rest)
      (h : HostEffect { s with script := rest } a t)
  | operation (rest : List Turn) (hs : s.OperationNext) (h : OpEffect { s with script := rest } t)

theorem step_effect {s t : State} (e : step s = .next t) : StepEffect s t := by
  unfold step at e
  split at e
  next hs => exact .engine s.script (.inl hs) (engineTurn_effect e)
  next x rest hs =>
    cases x with
    | engine => exact .engine rest (.inr ⟨rest, .inl hs⟩) (engineTurn_effect e)
    | host a =>
      rcases hostAct_cases e with ⟨rfl, e'⟩ | h
      · exact .engine s.script (.inr ⟨rest, .inr hs⟩) (engineTurn_effect e')
      · exact .host a rest hs h
    | call c => exact .operation rest ⟨rest, .inl ⟨c, hs⟩⟩ (runCall_effect e)
    | element k bs => exact .operation rest ⟨rest, .inr ⟨k, bs, hs⟩⟩ (runElement_effect e)

/-! ## The invariant at the start of a command and after a reset -/

/-- A running command: BUSY, ERR 0 and a phase. -/
theorem statusOk_enterPhase (s : State) {p : Phase} (hp : p ≠ .none) : (enterPhase p s).StatusOk :=
  ⟨by simp, by simp, by simpa using hp, fun h => by simp at h, fun h => by simp at h⟩

/-- IDLE with every register 0 and no phase. -/
theorem statusOk_of_idle {s : State} (hr : s.regs = (State.resetWith s.params).regs) (hp : s.phase = .none) :
    s.StatusOk := by
  unfold State.StatusOk
  rw [hr, hp]
  exact ⟨by simp [State.resetWith], by simp [State.resetWith], by simp [State.resetWith], fun _ => ⟨rfl, rfl, rfl, rfl⟩,
    nofun⟩

/-- The start of a command sets the reader's registers into agreement and opens the writer session. -/
theorem State.Inv.start {s : State} (h : s.Inv) {p : Phase} (hp : p = .eCheck ∨ p = .dCheck) :
    (enterPhase p (clearInternal s)).Inv := by
  have hn : p ≠ .none := by rcases hp with rfl | rfl <;> decide
  have hw : (clearInternal s).WriterOk :=
    ⟨Nat.zero_le _, fun _ => ⟨rfl, fun k _ => by simp⟩, fun hf => by cases hf⟩
  have hr : (clearInternal s).ReaderOk := ⟨rfl, Nat.zero_le _, fun h0 => absurd h0 (Nat.lt_irrefl 0)⟩
  exact ⟨h.legal, statusOk_enterPhase _ hn, h.buffers, ⟨List.Pairwise.nil, fun v => by simp [State.codeAt], by simp⟩,
    fun _ _ => ⟨hw, hr, Nat.zero_le _, Nat.zero_le _, fun he hd => (hp.elim he hd).elim⟩⟩

/-- A reserved command word starts no session (30_encoding.md R83). -/
theorem State.Inv.startIllegal {s : State} (h : s.Inv) : (enterPhase .xIllegal s).Inv :=
  ⟨h.legal, statusOk_enterPhase s (by decide), h.buffers, h.tables, fun _ hx => absurd rfl hx⟩

theorem State.Inv.reset {s : State} (h : s.Inv) : (resetAction s).Inv := by
  obtain ⟨hiw, how, hib, hob⟩ := h.buffers
  refine ⟨h.legal, statusOk_of_idle rfl rfl, ⟨hiw, ?_, hib, ?_⟩, h.tables, fun hn => absurd rfl hn⟩
  · simp only [resetAction]
    split
    · rfl
    · exact how
  · simp only [resetAction]
    split
    · exact nofun
    · exact hob

/-- Outside BUSY the host may write IN_LEN and the buffers: no session is running. -/
theorem State.Inv.setInLen {s : State} (h : s.Inv) (hb : s.regs.runState ≠ .busy) (v : Word) :
    State.Inv { s with regs := { s.regs with inLen := v } } :=
  ⟨h.legal, h.status, h.buffers, h.tables, fun hn => absurd (h.phase_of_not_busy hb) hn⟩

theorem State.Inv.writeIbuf {s : State} (h : s.Inv) (hb : s.regs.runState ≠ .busy) {i : Nat}
    (hi : i < s.params.ibufCap) (v : Byte) : State.Inv { s with ibuf := s.ibuf.write i v } :=
  let ⟨hiw, how, hib, hob⟩ := h.buffers
  ⟨h.legal, h.status, ⟨Memory.wf_write i v hiw, how, Memory.write_below hib hi, hob⟩, h.tables,
    fun hn => absurd (h.phase_of_not_busy hb) hn⟩

theorem HostEffect.inv {s t : State} {a : HostAction} (h : HostEffect s a t) (hs : s.Inv) : t.Inv := by
  cases h with
  | ignored => exact hs
  | read r d => exact hs
  | reset _ => exact hs.reset
  | start v p _ _ hp => exact hs.start hp
  | illegal v _ _ => exact hs.startIllegal
  | inLen v _ hb => exact hs.setInLen hb v
  | ibuf i v _ hi hb => exact hs.writeIbuf hb hi v
  | obuf i v hi _ => exact hs.writeObuf v hi

/-! ## Every step keeps the invariant -/

/-- Settles O56: each kind of step keeps the invariant. -/
theorem stepKeepsInvariant : Obligations.StepKeepsInvariant := by
  unfold Obligations.StepKeepsInvariant
  intro s t hs e
  cases step_effect e with
  | engine rest _ h => exact h.inv hs
  | host a rest _ h => exact h.inv hs
  | operation rest _ h => exact h.inv hs

end Sys2Proof.Machine
end

section
/-! PROOFS. The other statements about the state: PHASE, STATE and the inputs over a step (O57, O58, O59), the host's
registers and buffers (O5, O6, O8, O10), the reader's position (O32), command start and reset (O3, O13, O55). -/

namespace Sys2Proof.Machine

open OpResult

/-- Settles O57. The invariant is needed for a command start only: outside BUSY the phase it leaves is NONE. -/
theorem phaseOnlyAdvances : Obligations.PhaseOnlyAdvances := by
  unfold Obligations.PhaseOnlyAdvances
  intro s t hs e
  have started {p : Phase} (hb : s.regs.runState ≠ .busy) (hp : p ∈ Phase.successors .none) :
      p = s.phase ∨ p = .none ∨ p ∈ s.phase.successors := by
    rw [hs.phase_of_not_busy hb]
    exact .inr (.inr hp)
  cases step_effect e with
  | engine rest _ h =>
    cases h with
    | rests _ => exact .inl rfl
    | stays _ hw => exact .inl hw.frame.phase
    | moves p _ _ hq _ => exact .inr (.inr hq)
    | completes n o c _ _ _ => exact .inr (.inl rfl)
    | fails k _ _ _ => exact .inr (.inl rfl)
  | host a rest _ h =>
    cases h with
    | ignored => exact .inl rfl
    | read r d => exact .inl rfl
    | reset _ => exact .inr (.inl rfl)
    | start v p _ hb hp =>
      have hq : p ∈ Phase.successors .none := by rcases hp with rfl | rfl <;> decide
      exact started hb hq
    | illegal v _ hb => exact started (p := .xIllegal) hb (by decide)
    | inLen v _ _ => exact .inl rfl
    | ibuf i v _ _ _ => exact .inl rfl
    | obuf i v _ _ => exact .inl rfl
  | operation rest _ h =>
    cases h with
    | returns hw => exact .inl hw.frame.phase
    | fails k _ _ => exact .inr (.inl rfl)

/-- Settles O58. STATE changes in five of the effects of a step; in each the new STATE and its cause stand in the
effect. -/
theorem stateTransitions : Obligations.StateTransitions := by
  unfold Obligations.StateTransitions
  intro s t e hne
  have ctrl {a : HostAction} {rest : List Turn} {v : Word} (hs : s.script = .host a :: rest)
      (ha : a.WritesReg s.params 0 v) : ∃ rest v, s.script = .host (.writeReg 0 32 v) :: rest ∨
        s.script = .host (.busWrite s.params.regBase 32 v) :: rest := by
    rcases ha with rfl | rfl
    · exact ⟨rest, v, .inl hs⟩
    · exact ⟨rest, v, .inr hs⟩
  cases step_effect e with
  | engine rest hs h =>
    cases h with
    | rests _ => exact absurd rfl hne
    | stays _ hw => exact absurd (congrArg Regs.runState hw.frame.regs) hne
    | moves p _ hw _ _ => exact absurd (congrArg Regs.runState hw.frame.regs) hne
    | completes n o c hp _ _ => simp only [completeDone_regs]; exact ⟨nofun, nofun, fun _ => ⟨hp, hs⟩, nofun⟩
    | fails k hp _ _ => exact ⟨nofun, nofun, nofun, fun _ => .inl ⟨hp, hs⟩⟩
  | host a rest hs h =>
    cases h with
    | ignored => exact absurd rfl hne
    | read r d => exact absurd rfl hne
    | reset ha => exact ⟨nofun, fun _ => ⟨rest, ha ▸ hs⟩, nofun, nofun⟩
    | start v p ha hb _ => exact ⟨fun _ => ⟨hb, ctrl hs ha⟩, nofun, nofun, nofun⟩
    | illegal v ha hb => exact ⟨fun _ => ⟨hb, ctrl hs ha⟩, nofun, nofun, nofun⟩
    | inLen v _ _ => exact absurd rfl hne
    | ibuf i v _ _ _ => exact absurd rfl hne
    | obuf i v _ _ => exact absurd rfl hne
  | operation rest hs h =>
    cases h with
    | returns hw => exact absurd (congrArg Regs.runState hw.frame.regs) hne
    | fails k _ _ => exact ⟨nofun, nofun, nofun, fun _ => .inr hs⟩

/-- What the host owns is as it was: the parameters, IBUF and IN_LEN (00_scope.md R8, 10_state.md R25, R31). -/
structure InputsKept (s t : State) : Prop where
  params : t.params = s.params
  ibuf : t.ibuf = s.ibuf
  inLen : t.regs.inLen = s.regs.inLen

theorem OpFrame.inputsKept {s t : State} (h : OpFrame s t) : InputsKept s t :=
  ⟨h.params, h.ibuf, congrArg Regs.inLen h.regs⟩

theorem EngineEffect.inputsKept {s t : State} (h : EngineEffect s t) : InputsKept s t := by
  cases h with
  | rests _ => exact ⟨rfl, rfl, rfl⟩
  | stays _ hw => exact hw.frame.inputsKept
  | moves p _ hw _ _ => exact { hw.frame.inputsKept with }
  | completes n o c _ hw _ => exact { hw.frame.inputsKept with }
  | fails k _ hf _ => exact { hf.inputsKept with }

theorem OpEffect.inputsKept {s t : State} (h : OpEffect s t) : InputsKept s t := by
  cases h with
  | returns hw => exact hw.frame.inputsKept
  | fails k hf _ => exact { hf.inputsKept with }

/-- Settles O59. The engine's moves and the operations keep the inputs; of the host's effects a RESET and the writes of
IN_LEN and IBUF change them. -/
theorem inputsBelongToTheHost : Obligations.InputsBelongToTheHost := by
  unfold Obligations.InputsBelongToTheHost
  intro s t e
  cases step_effect e with
  | engine rest _ h =>
    obtain ⟨hp, hi, hl⟩ := h.inputsKept
    exact ⟨hp, absurd hi, absurd hl⟩
  | host a rest hs h =>
    cases h with
    | ignored => exact ⟨rfl, absurd rfl, absurd rfl⟩
    | read r d => exact ⟨rfl, absurd rfl, absurd rfl⟩
    | reset ha => exact ⟨rfl, absurd rfl, fun _ => .inl ⟨rest, ha ▸ hs⟩⟩
    | start v p _ _ _ => exact ⟨rfl, absurd rfl, absurd rfl⟩
    | illegal v _ _ => exact ⟨rfl, absurd rfl, absurd rfl⟩
    | inLen v ha hb =>
      refine ⟨rfl, absurd rfl, fun _ => .inr ⟨hb, ?_⟩⟩
      rcases ha with rfl | rfl
      · exact ⟨v, rest, .inl hs⟩
      · exact ⟨v, rest, .inr hs⟩
    | ibuf i v ha hi hb =>
      refine ⟨rfl, fun _ => ⟨hb, i, rest, hi, ?_⟩, absurd rfl⟩
      rcases ha with ⟨w, rfl⟩ | ⟨w, rfl⟩
      · exact .inl ⟨w, hs⟩
      · exact .inr ⟨w, hs⟩
    | obuf i v _ _ => exact ⟨rfl, absurd rfl, absurd rfl⟩
  | operation rest _ h =>
    obtain ⟨hp, hi, hl⟩ := h.inputsKept
    exact ⟨hp, absurd hi, absurd hl⟩

/-! ### The host's registers and buffers -/

section HostPort

variable {s : State} {a num : Nat} {v : Byte} {w : Word}

theorem hostReadReg_plain (h : s.regs.runState ≠ .busy ∨ unspecifiedWhileBusy num = false) :
    hostReadReg num 32 s = .next (logRead (.reg num (s.register num)) s) := by
  have hn : (s.isBusy && unspecifiedWhileBusy num) = false := by
    rcases h with h | h
    · rw [isBusy_eq_false h, Bool.false_and]
    · rw [h, Bool.and_false]
  simp [hostReadReg, hn]

theorem hostWriteReg_ignored (h0 : num ≠ 0) (h2 : num ≠ 2) : hostWriteReg num 32 w s = .next s := by
  unfold hostWriteReg
  simp only [ne_eq, not_true_eq_false, if_false]

theorem hostReadIbuf_inside (hb : s.regs.runState ≠ .busy) (ha : a < s.params.ibufCap) :
    hostReadIbuf a s = .next (logRead (.ibuf a (s.ibufByte a)) s) := by
  simp [hostReadIbuf, isBusy_eq_false hb, ha]

theorem hostWriteIbuf_inside (hb : s.regs.runState ≠ .busy) (ha : a < s.params.ibufCap) :
    hostWriteIbuf a v s = .next { s with ibuf := s.ibuf.write a v } := by
  simp [hostWriteIbuf, isBusy_eq_false hb, ha]

theorem hostReadObuf_inside (hb : s.regs.runState ≠ .busy) (ha : a < s.params.obufCap) :
    hostReadObuf a s = .next (logRead (.obuf a (s.obufByte a)) s) := by
  simp [hostReadObuf, isBusy_eq_false hb, ha]

theorem hostWriteObuf_inside (hb : s.regs.runState ≠ .busy) (ha : a < s.params.obufCap) :
    hostWriteObuf a v s = .next { s with obuf := s.obuf.write a v } := by
  simp [hostWriteObuf, isBusy_eq_false hb, ha]

theorem hostReadIbuf_outside (ha : s.params.ibufCap ≤ a) : hostReadIbuf a s = .refused .bufferOutside := if_pos ha

theorem hostWriteIbuf_outside (ha : s.params.ibufCap ≤ a) : hostWriteIbuf a v s = .refused .bufferOutside := if_pos ha

theorem hostReadObuf_outside (ha : s.params.obufCap ≤ a) : hostReadObuf a s = .refused .bufferOutside := if_pos ha

theorem hostWriteObuf_outside (ha : s.params.obufCap ≤ a) : hostWriteObuf a v s = .refused .bufferOutside := if_pos ha

theorem absentRegister_eq_zero (h : 7 ≤ num) : s.register num = 0 := by
  obtain ⟨k, rfl⟩ := Nat.exists_eq_add_of_le' h
  rfl

end HostPort

/-- Settles O10, by the rules of a buffer access and of a buffer byte after a write. -/
theorem hostBufferAccess : Obligations.HostBufferAccess := by
  unfold Obligations.HostBufferAccess
  refine ⟨fun s a v hb ha => ?_, fun s a v hb ha => ?_, fun s a v ha => ?_, fun s a v ha => ?_⟩
  · refine ⟨hostReadIbuf_inside (s := s) hb ha, _, _, hostWriteIbuf_inside (s := s) hb ha, rfl, ?_, fun b h => ?_⟩
    · rw [ibufByte_write, if_pos rfl]
    · rw [ibufByte_write, if_neg h]
  · refine ⟨hostReadObuf_inside (s := s) hb ha, _, _, hostWriteObuf_inside (s := s) hb ha, rfl, ?_, fun b h => ?_⟩
    · rw [obufByte_write, if_pos rfl]
    · rw [obufByte_write, if_neg h]
  · exact ⟨hostReadIbuf_outside ha, hostWriteIbuf_outside ha⟩
  · exact ⟨hostReadObuf_outside ha, hostWriteObuf_outside ha⟩

/-- Settles O6: such a number is none of the registers that take a write or are unspecified while BUSY. -/
theorem absentRegisters : Obligations.AbsentRegisters := by
  unfold Obligations.AbsentRegisters
  intro s num h
  refine ⟨fun v => hostWriteReg_ignored (by omega) (by omega), ?_⟩
  have hread : hostReadReg num 32 s = .next (logRead (.reg num (s.register num)) s) :=
    hostReadReg_plain (.inr (by simp [unspecifiedWhileBusy]; omega))
  rw [absentRegister_eq_zero h] at hread
  exact hread

theorem RunState.number_lt (r : RunState) : r.number < 4 := by cases r <;> decide

theorem Regs.status_toNat (r : Regs) : r.status.toNat = r.err.toNat * 16 + r.runState.number := by
  have := r.runState.number_lt
  have := r.err.isLt
  rw [Regs.status, BitVec.toNat_ofNat]
  omega

/-- Settles O5: STATUS is `ERR * 16 + STATE`, with STATE below 4. -/
theorem statusRegister : Obligations.StatusRegister := by
  unfold Obligations.StatusRegister
  intro s
  have hst := s.regs.runState.number_lt
  have herr := s.regs.err.isLt
  refine ⟨fun v => hostWriteReg_ignored (num := 1) (w := v) (by decide) (by decide), s.regs.status,
    hostReadReg_plain (.inr rfl), ?_⟩
  refine ⟨?_, ?_, ?_, ?_⟩ <;> apply BitVec.eq_of_toNat_eq <;>
    simp only [BitVec.extractLsb'_toNat, Nat.shiftRight_eq_div_pow, Regs.status_toNat, BitVec.ofNat_eq_ofNat,
      BitVec.toNat_ofNat, Nat.reducePow] <;> omega

/-- Settles O8, by the register map and the rules of a register access. -/
theorem registersOutsideBusy : Obligations.RegistersOutsideBusy := by
  unfold Obligations.RegistersOutsideBusy
  intro s hb
  refine ⟨fun p hp => ?_, fun v => ?_, fun num h3 _ v => hostWriteReg_ignored (by omega) (by omega)⟩
  · have hreg : s.register p.1 = p.2 := by
      simp only [List.mem_cons, List.not_mem_nil, or_false] at hp
      rcases hp with rfl | rfl | rfl | rfl | rfl | rfl <;> rfl
    exact hreg ▸ hostReadReg_plain (.inl hb)
  · rcases writeInLen_cases v s with ⟨hbusy, _⟩ | ⟨_, e⟩
    · exact absurd hbusy hb
    · exact congrArg Host.Outcome.next e

/-! ### The position of the reader -/

/-- The low bits of a bit sequence are its last ones. -/
theorem drop_bitsOf (k n v : Nat) : (bitsOf (n + k) v).drop k = bitsOf n v := by
  induction k with
  | zero => rfl
  | succ k ih => exact ih

theorem drop_unpack (k : Nat) (bs : List Byte) : (unpack bs).drop (8 * k) = unpack (bs.drop k) := by
  induction k generalizing bs with
  | zero => rfl
  | succ k ih =>
    cases bs with
    | nil => simp
    | cons b bs =>
      rw [unpack_cons, Nat.mul_succ, Nat.add_comm, ← List.drop_drop, List.drop_left' (length_bitsOf 8 _), ih,
        List.drop_succ_cons]

/-- Byte `i` of the input is byte `i` of IBUF. -/
theorem drop_input (s : State) {i : Nat} (h : i < s.regs.inLen.toNat) :
    s.input.drop i = s.ibufByte i :: s.input.drop (i + 1) := by
  have hi : i < s.input.length := by simpa [State.input] using h
  rw [List.drop_eq_getElem_cons hi]
  simp [State.input]

/-- What the reader has still to return is the input from bit RBITS on (10_state.md R42). -/
theorem bitsAhead_eq_drop {s : State} (h : s.ReaderOk) : s.bitsAhead = (unpack s.input).drop s.reader.rbits := by
  obtain ⟨hpos, hptr, hcur⟩ := h
  unfold State.bitsAhead Reader.currentBits
  by_cases h0 : s.reader.rcnt.val = 0
  · have hb : s.reader.rbits = 8 * s.reader.rptr := by omega
    rw [h0, hb, drop_unpack]
    rfl
  · have hb : s.reader.rbits = 8 * (s.reader.rptr - 1) + (8 - s.reader.rcnt.val) := by omega
    have hbyte : s.input.drop (s.reader.rptr - 1) = s.reader.rcur :: s.input.drop s.reader.rptr := by
      rw [drop_input s (by omega), hcur (by omega), Nat.sub_add_cancel (by omega)]
    have hcurrent : (bitsOf 8 s.reader.rcur.toNat).drop (8 - s.reader.rcnt.val) =
        bitsOf s.reader.rcnt.val s.reader.rcur.toNat := by
      have := drop_bitsOf (8 - s.reader.rcnt.val) s.reader.rcnt.val s.reader.rcur.toNat
      rwa [Nat.add_sub_of_le (by omega)] at this
    rw [hb, ← List.drop_drop, drop_unpack, hbyte, unpack_cons,
      List.drop_append_of_le_length (by rw [length_bitsOf]; omega), hcurrent]

/-- Settles O32: READ_BIT keeps the registers in agreement, and agreement fixes the bits still to come. -/
theorem readerPosition : Obligations.ReaderPosition := by
  unfold Obligations.ReaderPosition
  refine ⟨fun s hc hp hb => ?_, fun s t h e => ?_, fun s h => ⟨?_, bitsAhead_eq_drop h⟩⟩
  · simp [State.ReaderOk, hc, hp, hb]
  · obtain ⟨b, u, hu, rfl⟩ | ⟨k, u, hu, rfl⟩ := finish_eq_next.mp e <;>
      obtain ⟨_, r, hr⟩ | hr := readBit_ends s <;> rw [hr] at hu <;> cases hu
    have hok := readBit_readerOk h hr
    exact ⟨hok, rfl⟩
  · have := h.1
    omega

/-- Settles O3: outside BUSY both commands clear the internal state and enter their first phase. -/
theorem commandStart : Obligations.CommandStart := by
  unfold Obligations.CommandStart
  intro s hb i p hi
  have start : exec i s = .next (enterPhase p (clearInternal s)) := by
    rcases startCommand_cases p s with ⟨hbusy, _⟩ | ⟨_, e⟩
    · exact absurd hbusy hb
    · rw [← e]
      rcases hi with ⟨rfl, rfl⟩ | ⟨rfl, rfl⟩ <;> rfl
  exact ⟨_, start, by simp [State.freqAt, State.codeAt, State.WriterOpen]⟩

/-- Settles O13: the fields of `State.resetWith`, and no byte of its buffers is listed. -/
theorem resetValues : Obligations.ResetValues := by
  unfold Obligations.ResetValues
  intro p
  exact ⟨rfl, rfl, rfl, rfl, rfl, rfl, rfl, rfl, rfl, rfl, rfl, fun a => rfl, fun a => rfl⟩

/-- Settles O55: no command is running at reset, the tables and the buffers are empty. -/
theorem resetMeetsInvariant : Obligations.ResetMeetsInvariant := by
  unfold Obligations.ResetMeetsInvariant
  have reset (p : Config.Params) (hp : p.Legal) : (State.resetWith p).Inv :=
    ⟨hp, statusOk_of_idle rfl rfl, ⟨rfl, rfl, nofun, nofun⟩,
      ⟨List.Pairwise.nil, fun v => by simp [State.resetWith, State.codeAt], by simp [State.resetWith]⟩,
      fun hn => absurd rfl hn⟩
  exact ⟨reset, reset _ (by decide)⟩

end Sys2Proof.Machine
end

section
/-! PROOFS. The host's accesses at system addresses and of parts of a register: which register or byte an address names,
and what the access then is (O7, O11). -/

namespace Sys2Proof.Machine

/-! ### An access of a part of a register -/

section PartialAccess

variable {s : State} {num width : Nat} {v : Word}

theorem hostWriteReg_partial (h : width ≠ 32) : hostWriteReg num width v s = .refused .partialRegister := if_pos h

theorem hostReadReg_partial (h : width ≠ 32) : hostReadReg num width s = .refused .partialRegister := if_pos h

end PartialAccess

/-! ### What an access at a system address is -/

section BusAccess

variable {s : State} {x i width : Nat} {v : Word}

theorem hostBusWrite_reg (h : busTargets s.params x = [.reg i]) : hostBusWrite x width v s =
    if x = regAddress s.params i then hostWriteReg i width v s else .refused .partialRegister := by
  simp only [hostBusWrite, h]

theorem hostBusRead_reg (h : busTargets s.params x = [.reg i]) : hostBusRead x width s =
    if x = regAddress s.params i then hostReadReg i width s else .refused .partialRegister := by
  simp only [hostBusRead, h]

theorem hostBusWrite_ibuf (h : busTargets s.params x = [.ibuf i]) :
    hostBusWrite x 8 v s = hostWriteIbuf i (v.setWidth 8) s := by
  simp only [hostBusWrite, h, if_true]

theorem hostBusRead_ibuf (h : busTargets s.params x = [.ibuf i]) : hostBusRead x 8 s = hostReadIbuf i s := by
  simp only [hostBusRead, h, if_true]

theorem hostBusWrite_obuf (h : busTargets s.params x = [.obuf i]) :
    hostBusWrite x 8 v s = hostWriteObuf i (v.setWidth 8) s := by
  simp only [hostBusWrite, h, if_true]

theorem hostBusRead_obuf (h : busTargets s.params x = [.obuf i]) : hostBusRead x 8 s = hostReadObuf i s := by
  simp only [hostBusRead, h, if_true]

/-- In the register window an access not at the register's own address, or not of 32 bits, is refused. -/
theorem hostBusWrite_partial (hx : busTargets s.params x = [.reg i]) (h : x ≠ regAddress s.params i ∨ width ≠ 32) :
    hostBusWrite x width v s = .refused .partialRegister := by
  rw [hostBusWrite_reg hx]
  split
  next ha => exact hostWriteReg_partial (h.resolve_left (absurd ha))
  next => rfl

theorem hostBusRead_partial (hx : busTargets s.params x = [.reg i]) (h : x ≠ regAddress s.params i ∨ width ≠ 32) :
    hostBusRead x width s = .refused .partialRegister := by
  rw [hostBusRead_reg hx]
  split
  next ha => exact hostReadReg_partial (h.resolve_left (absurd ha))
  next => rfl

end BusAccess

/-- Settles O7, by the rules of a partial access by number and by system address. -/
theorem partialRegisterRefused : Obligations.PartialRegisterRefused := by
  unfold Obligations.PartialRegisterRefused
  exact ⟨fun s num width v h => ⟨hostWriteReg_partial h, hostReadReg_partial h⟩,
    fun s x width i v hx h => ⟨hostBusWrite_partial (s := s) hx h, hostBusRead_partial (s := s) hx h⟩⟩

/-! ### The windows -/

/-- No two of the three windows of system addresses overlap (20_memory.md R69). -/
structure WindowsApart (p : Config.Params) : Prop where
  regIbuf : p.regBase + 28 ≤ p.ibufBase ∨ p.ibufBase + p.ibufCap ≤ p.regBase
  regObuf : p.regBase + 28 ≤ p.obufBase ∨ p.obufBase + p.obufCap ≤ p.regBase
  ibufObuf : p.ibufBase + p.ibufCap ≤ p.obufBase ∨ p.obufBase + p.obufCap ≤ p.ibufBase

section Windows

variable {p : Config.Params} {a i : Nat}

theorem busTargets_regAddress (h : WindowsApart p) (hi : i < 7) : busTargets p (regAddress p i) = [.reg i] := by
  obtain ⟨hri, hro, -⟩ := h
  unfold busTargets regAddress ibufAddress obufAddress
  rw [if_pos (by omega), if_neg (by omega), if_neg (by omega), Nat.add_sub_cancel_left,
    Nat.mul_div_cancel_left i (by decide)]
  rfl

theorem busTargets_ibufAddress (h : WindowsApart p) (ha : a < p.ibufCap) :
    busTargets p (ibufAddress p a) = [.ibuf a] := by
  obtain ⟨hri, -, hio⟩ := h
  unfold busTargets regAddress ibufAddress obufAddress
  rw [if_neg (by omega), if_pos (by omega), if_neg (by omega), Nat.add_sub_cancel_left]
  rfl

theorem busTargets_obufAddress (h : WindowsApart p) (ha : a < p.obufCap) :
    busTargets p (obufAddress p a) = [.obuf a] := by
  obtain ⟨-, hro, hio⟩ := h
  unfold busTargets regAddress ibufAddress obufAddress
  rw [if_neg (by omega), if_neg (by omega), if_pos (by omega), Nat.add_sub_cancel_left]
  rfl

end Windows

/-- Settles O11: where the windows are apart an address has one target, and the access is one of that target. -/
theorem addressMap : Obligations.AddressMap := by
  unfold Obligations.AddressMap
  intro s p hri hro hio
  have apart : WindowsApart s.params := ⟨hri, hro, hio⟩
  refine ⟨fun i v hi => ?_, fun a v ha => ?_, fun a v ha => ?_⟩
  · have target := busTargets_regAddress apart hi
    exact ⟨(hostBusWrite_reg (s := s) target).trans (if_pos rfl),
      (hostBusRead_reg (s := s) target).trans (if_pos rfl)⟩
  · have target := busTargets_ibufAddress apart ha
    exact ⟨hostBusWrite_ibuf (s := s) target, hostBusRead_ibuf (s := s) target⟩
  · have target := busTargets_obufAddress apart ha
    exact ⟨hostBusWrite_obuf (s := s) target, hostBusRead_obuf (s := s) target⟩

end Sys2Proof.Machine
end

section
/-! PROOFS. The encoding: reading back what the encoder wrote, element by element (O42), and the tree section as the
grammar of R88 reads it (O43). -/

namespace Sys2Proof

/-! ### Elements at their places -/

/-- A word of any width is the value of its bits (30_encoding.md R96). -/
theorem word_of_bits {n : Nat} (w : BitVec n) : BitVec.ofNat n (valueOf (bitsOf n w.toNat)) = w := by
  rw [valueOf_bitsOf, Nat.mod_eq_of_lt w.isLt, BitVec.ofNat_toNat, BitVec.setWidth_eq]

/-- The bits of the word that a sequence of its width stands for are that sequence. -/
theorem bits_of_word {n : Nat} {bs : Bits} (h : bs.length = n) : bitsOf n (BitVec.ofNat n (valueOf bs)).toNat = bs := by
  subst h
  rw [BitVec.toNat_ofNat, Nat.mod_eq_of_lt (valueOf_lt bs), bitsOf_valueOf]

theorem decodeElement_len (n : Word) (x : Bits) :
    decodeElement .len (bitsOf 32 n.toNat ++ x) = .ok (.len n, x) := by
  have hlen : ¬ (bitsOf 32 n.toNat ++ x).length < 32 := by simp
  simp only [decodeElement]
  rw [if_neg hlen, List.take_left' (length_bitsOf 32 _), List.drop_left' (length_bitsOf 32 _), word_of_bits]

theorem decodeElement_treeLeaf (v : Byte) (x : Bits) :
    decodeElement .tree (true :: bitsOf 8 v.toNat ++ x) = .ok (.treeLeaf v, x) := by
  have hlen : ¬ (bitsOf 8 v.toNat ++ x).length < 8 := by simp
  simp only [decodeElement, List.cons_append]
  rw [if_neg hlen, List.take_left' (length_bitsOf 8 _), List.drop_left' (length_bitsOf 8 _), word_of_bits]

/-- A path to a leaf stays one whatever follows it. -/
theorem ByteTree.follow_append {t : ByteTree} {c rest : Bits} {v : Byte} (x : Bits)
    (h : t.follow c = some (v, rest)) : t.follow (c ++ x) = some (v, rest ++ x) := by
  induction t generalizing c with
  | leaf w => cases h; rfl
  | node l r ihl ihr =>
    cases c with
    | nil => cases h
    | cons b c =>
      cases b with
      | false => exact ihl h
      | true => exact ihr h

/-- A CODE is told from what follows it by the tree (30_encoding.md R90). -/
theorem ByteTree.readCode_append {t : ByteTree} {c rest : Bits} {v : Byte} (x : Bits)
    (h : t.readCode c = some (v, rest)) : t.readCode (c ++ x) = some (v, rest ++ x) := by
  cases t with
  | leaf w =>
    cases c with
    | nil => cases h
    | cons b c => cases h; rfl
  | node l r => exact follow_append x h

theorem decodeElement_code {t : ByteTree} {c : Bits} {v : Byte} (h : t.readCode c = some (v, [])) (x : Bits) :
    decodeElement (.payload t) (c ++ x) = .ok (.code c, x) := by
  have hlen : (c ++ x).length - x.length = c.length := by simp
  simp only [decodeElement, ByteTree.readCode_append x h, List.nil_append, hlen, List.take_left]

theorem decodeElement_pad {k : Nat} (h : k ≤ 7) : decodeElement .pad (zeros k) = .ok (.pad k, []) := by
  simp [decodeElement, h]

/-- An element at any place but PAD's is told from what follows it. -/
theorem decodeElement_encode {i : Instr} {p : Place} {bs : Bits} (x : Bits) (hp : p.Admits i) (hpad : p ≠ .pad)
    (e : encode i = .element bs) : decodeElement p (bs ++ x) = .ok (i, x) := by
  cases i with
  | len n => cases hp; cases e; exact decodeElement_len n x
  | treeLeaf v => cases hp; cases e; exact decodeElement_treeLeaf v x
  | treeNode => cases hp; cases e; rfl
  | code c =>
    obtain ⟨t, v, rfl, hc⟩ := hp
    cases e
    exact decodeElement_code hc x
  | pad k => exact absurd hp hpad
  | _ => cases e

/-- Every well-formed instruction reads back: a command word and a call at any place, an element at its own. -/
theorem decode_encode {i : Instr} {p : Place} (hw : i.wf = true) (hp : p.Admits i) :
    decode p (encode i) = .ok (i, []) := by
  have element {bs : Bits} (hpad : p ≠ .pad) (e : encode i = .element bs) :
      decode p (encode i) = .ok (i, []) := by
    rw [e, decode, ← List.append_nil bs]
    exact decodeElement_encode [] hp hpad e
  cases i with
  | len n => cases hp; exact element nofun rfl
  | treeLeaf v => cases hp; exact element nofun rfl
  | treeNode => cases hp; exact element nofun rfl
  | code c => obtain ⟨t, v, rfl, -⟩ := hp; exact element nofun rfl
  | pad k =>
    cases hp
    exact decodeElement_pad (of_decide_eq_true hw)
  | readBits k =>
    have hk : k - 1 + 1 = k := Nat.sub_add_cancel (of_decide_eq_true hw)
    simp [encode, decode, decodeCall, hk, Except.map]
  | _ => rfl

/-- Settles O42: the elements one by one, and the two spaces that have no place. -/
theorem decodeInvertsEncode : Obligations.DecodeInvertsEncode := by
  unfold Obligations.DecodeInvertsEncode
  exact ⟨fun _ _ hw hp => decode_encode hw hp, fun _ _ _ x _ hp hpad e => decodeElement_encode x hp hpad e⟩

/-! ### The tree section -/

theorem ByteTree.two_mul_depth_lt_size (t : ByteTree) : 2 * t.depth < t.size := by
  induction t with
  | leaf v => exact Nat.one_pos
  | node l r ihl ihr => simp only [depth, size]; omega

/-- No leaf of a tree of at most 511 nodes is deeper than MAX_DEPTH (00_scope.md R5). -/
theorem ByteTree.depth_le_maxDepth {t : ByteTree} (h : t.size ≤ 511) : t.depth ≤ Config.maxDepth := by
  have := t.two_mul_depth_lt_size
  simp only [Config.maxDepth]
  omega

/-- Reading `ser(t)` gives `t`, uses one node id for each of its nodes and leaves what follows (30_encoding.md R88). -/
theorem readTreeBits_ser (t : ByteTree) {depth used : Nat} (x : Bits) (hd : t.depth < depth)
    (hu : used + t.size ≤ Config.nodeCap) :
    readTreeBits depth used (t.ser ++ x) = some (t, used + t.size, x) := by
  induction t generalizing depth used x with
  | leaf v =>
    obtain ⟨d, rfl⟩ := Nat.exists_eq_add_of_lt hd
    have hlen : ¬ (bitsOf 8 v.toNat ++ x).length < 8 := by simp
    have hroom : used ≠ Config.nodeCap := by simp only [ByteTree.size] at hu; omega
    simp only [ByteTree.ser, List.cons_append, readTreeBits]
    rw [if_neg hroom, if_pos trivial, if_neg hlen, List.take_left' (length_bitsOf 8 _),
      List.drop_left' (length_bitsOf 8 _), word_of_bits]
    rfl
  | node l r ihl ihr =>
    obtain ⟨d, rfl⟩ := Nat.exists_eq_add_of_lt hd
    simp only [ByteTree.size, ByteTree.depth] at hu hd
    have hroom : used ≠ Config.nodeCap := by omega
    have hl := ihl (depth := max l.depth r.depth + 1 + d) (used := used + 1) (r.ser ++ x) (by omega) (by omega)
    have hr := ihr (depth := max l.depth r.depth + 1 + d) (used := used + 1 + l.size) x (by omega) (by omega)
    simp only [ByteTree.ser, ByteTree.depth, ByteTree.size, List.cons_append, List.append_assoc, readTreeBits,
      if_neg hroom, Bool.false_eq_true, if_false, hl, hr]
    congr 3
    omega

/-- What the grammar reads is a `ser(t)` whose nodes have room, and no deeper than its bound. -/
theorem readTreeBits_eq_some {depth used used' : Nat} {bs x : Bits} {t : ByteTree}
    (h : readTreeBits depth used bs = some (t, used', x)) (hu : used ≤ Config.nodeCap) :
    bs = t.ser ++ x ∧ used' = used + t.size ∧ used' ≤ Config.nodeCap ∧ t.depth < depth := by
  induction depth generalizing used used' bs x t with
  | zero => cases h
  | succ d ih =>
    cases bs with
    | nil => cases h
    | cons flag bs =>
      simp only [readTreeBits] at h
      split at h
      · cases h
      next hroom =>
        cases flag with
        | true =>
          simp only [if_true] at h
          split at h
          · cases h
          next hlen =>
            cases h
            have hbyte : bitsOf 8 (BitVec.ofNat 8 (valueOf (bs.take 8))).toNat = bs.take 8 :=
              bits_of_word (by rw [List.length_take]; omega)
            refine ⟨?_, rfl, by omega, Nat.succ_pos d⟩
            rw [ByteTree.ser, hbyte, List.cons_append, List.take_append_drop]
        | false =>
          simp only [Bool.false_eq_true, if_false] at h
          split at h
          · cases h
          next l used₁ bs₁ hl =>
            split at h
            · cases h
            next r used₂ bs₂ hr =>
              cases h
              obtain ⟨rfl, rfl, hu₁, hd₁⟩ := ih hl (by omega)
              obtain ⟨rfl, rfl, hu₂, hd₂⟩ := ih hr hu₁
              refine ⟨by simp [ByteTree.ser], by simp only [ByteTree.size]; omega, hu₂, ?_⟩
              simp only [ByteTree.depth]
              omega

/-- Where the grammar reads no leaf: the arena is full, or fewer than eight bits follow the flag. -/
theorem readTreeBits_leaf_eq_none {depth used : Nat} {bs : Bits}
    (h : readTreeBits (depth + 1) used (true :: bs) = none) :
    used = Config.nodeCap ∨ bs.length < 8 := by
  by_contra hn
  obtain ⟨hroom, hlen⟩ := not_or.mp hn
  simp [readTreeBits, hroom, hlen] at h

/-- Where the grammar reads no internal node: the arena is full, or one of the two subtrees is not read. -/
theorem readTreeBits_node_eq_none {depth used : Nat} {bs : Bits}
    (h : readTreeBits (depth + 1) used (false :: bs) = none) :
    used = Config.nodeCap ∨ readTreeBits depth (used + 1) bs = none ∨
      ∃ l used₁ bs₁, readTreeBits depth (used + 1) bs = some (l, used₁, bs₁) ∧ readTreeBits depth used₁ bs₁ = none := by
  by_contra hn
  obtain ⟨hroom, hn⟩ := not_or.mp hn
  obtain ⟨hl, hr⟩ := not_or.mp hn
  obtain ⟨⟨l, used₁, bs₁⟩, hl⟩ := Option.ne_none_iff_exists'.mp hl
  obtain ⟨⟨r, used₂, bs₂⟩, hr'⟩ := Option.ne_none_iff_exists'.mp fun e => hr ⟨l, used₁, bs₁, hl, e⟩
  simp [readTreeBits, hroom, hl, hr'] at h

/-- Settles O43: the grammar reads `ser(t)` back from no allocated node, and its depth bound is above every tree of 511
nodes. -/
theorem treeSectionIsSelfDelimiting : Obligations.TreeSectionIsSelfDelimiting := by
  unfold Obligations.TreeSectionIsSelfDelimiting
  intro t x ht
  have hd : t.depth < Config.nodeCap + 1 := Nat.lt_of_le_of_lt (ByteTree.depth_le_maxDepth ht) (by decide)
  rw [readTreeSection, readTreeBits_ser t x hd (by rwa [Nat.zero_add])]
  rfl

end Sys2Proof
end

section
/-! PROOFS. What a turn runs, and what it means: command words (O1, O2), WAIT (O14), a turn's instruction (O45, O44),
and the elements of the stream that need no reading of the tree section (O37, O38, O40, O41). -/

namespace Sys2Proof.Machine

/-! ### The instruction of a turn -/

/-- A step takes the turn that stands first. -/
theorem step_doing (s : State) (t : Turn) : step (s.doing t) = runTurn t (s.doing t) s := rfl

theorem step_writeCtrl (w : Word) (s : State) : step (s.doing (.host (.writeReg 0 32 w))) = writeCtrl w s := by
  simp [step_doing, runTurn, hostAct, hostWriteReg]

theorem step_command {w : Word} {i : Instr} (h : decodeCommand w = .ok i) (s : State) :
    step (s.doing (.host (.writeReg 0 32 w))) = exec i s := by
  rw [step_writeCtrl, writeCtrl, h]

theorem step_call {c : UopCall} {i : Instr} (h : decodeCall c = .ok i) (s : State) :
    step (s.doing (.call c)) = exec i s := by
  rw [step_doing, runTurn, runCall, h]

theorem step_element {s : State} {k : PlaceKind} {p : Place} {bs x : Bits} {i : Instr} (hp : placeIn k s = some p)
    (h : decodeElement p bs = .ok (i, x)) : step (s.doing (.element k bs)) = exec i s := by
  simp only [step_doing, runTurn, runElement, hp, h]

theorem step_broken {s : State} {k : PlaceKind} {p : Place} {bs : Bits} {e : DecodeError} (hp : placeIn k s = some p)
    (h : decodeElement p bs = .error e) : step (s.doing (.element k bs)) = runBroken e s := by
  simp only [step_doing, runTurn, runElement, hp, h]

theorem eq_ok_of_toOption {ε α : Type} {x : Except ε α} {a : α} (h : x.toOption = some a) : x = .ok a := by
  cases x <;> cases h
  rfl

/-- The turn of a table word runs the instruction of the word: each length is read in its own space. -/
theorem step_withFetchWord {nbits w : Nat} {i : Instr} (h : decodeTableWord nbits w = some i) (s : State) :
    step (s.withFetchWord nbits w) = exec i s := by
  change step (s.doing (tableTurn nbits w)) = exec i s
  unfold decodeTableWord at h
  unfold tableTurn
  split at h
  next h8 =>
    rw [if_pos h8]
    exact step_call (eq_ok_of_toOption h) s
  next h8 =>
    rw [if_neg h8]
    split at h
    next h16 =>
      rw [if_pos h16]
      obtain ⟨⟨_, x⟩, hx, rfl⟩ := Option.map_eq_some_iff.mp h
      exact step_element (p := .tree) rfl (eq_ok_of_toOption hx)
    next h16 =>
      rw [if_neg h16]
      split at h
      next h32 =>
        subst h32
        exact step_command (eq_ok_of_toOption h) s
      next => cases h

/-- Settles O45, by the rule of each kind of turn. -/
theorem stepRunsDecoded : Obligations.StepRunsDecoded := by
  unfold Obligations.StepRunsDecoded
  exact ⟨fun s _ _ h => step_command h s, fun s _ _ h => step_call h s, fun _ _ _ _ _ _ hp h => step_element hp h,
    fun s _ _ _ h => step_withFetchWord h s⟩

/-- Settles O44: the decoder on nine closed words. -/
theorem tableWordsDecode : Obligations.TableWordsDecode := by
  unfold Obligations.TableWordsDecode
  decide

/-! ### Command words -/

/-- While BUSY a CTRL write of any word changes nothing (30_encoding.md R82). -/
theorem writeCtrl_of_busy {s : State} (h : s.regs.runState = .busy) (w : Word) : writeCtrl w s = .next s := by
  have ignored (p : Phase) : startCommand p s = s := if_pos (isBusy_eq_true h)
  unfold writeCtrl
  split
  next i hi =>
    rcases decodeCommand_cases hi with rfl | rfl | rfl
    · rfl
    · exact congrArg Host.Outcome.next (ignored .eCheck)
    · exact congrArg Host.Outcome.next (ignored .dCheck)
  next => exact congrArg Host.Outcome.next (if_pos (isBusy_eq_true h))

/-- Settles O1: each word decodes to its instruction, and while BUSY none has an effect. -/
theorem commandCodes : Obligations.CommandCodes := by
  unfold Obligations.CommandCodes
  refine ⟨fun s => ⟨rfl, step_command (i := .nop) rfl s⟩,
    fun s _ => ⟨step_command rfl s, step_command rfl s⟩, fun s w h => ?_⟩
  rw [step_writeCtrl, writeCtrl_of_busy h]

theorem decodeCommand_reserved {w : Word} (h0 : w ≠ 0) (h1 : w ≠ 1) (h2 : w ≠ 2) :
    decodeCommand w = .error .reservedCommand := by
  rw [decodeCommand, if_neg h0, if_neg h1, if_neg h2]

/-- Completion with an error fails the command of every state that agrees with it in what the host sees
(60_exceptions.md R209). -/
theorem failedWith_completeWithError {k : ErrorKind} {s t : State} (hl : t.regs.inLen = s.regs.inLen)
    (hi : t.ibuf = s.ibuf) (hp : t.params = s.params) (hs : t.script = s.script) (hr : t.reads = s.reads)
    (he : t.epoch = s.epoch) : FailedWith k s (completeWithError k t) :=
  ⟨by simp [hl], rfl, hi, hp, hs, hr, by simp [he], fun a => by simp [State.obufByte, he]⟩

theorem failedWith_self (k : ErrorKind) (s : State) : FailedWith k s (completeWithError k s) :=
  failedWith_completeWithError rfl rfl rfl rfl rfl rfl

/-- Settles O2: the write enters X_ILLEGAL, and the engine's move there completes with ILLEGAL_CMD. -/
theorem reservedCommandIsIllegal : Obligations.ReservedCommandIsIllegal := by
  unfold Obligations.ReservedCommandIsIllegal
  intro s w hb hs h0 h1 h2
  have start : step (s.doing (.host (.writeReg 0 32 w))) = .next (enterPhase .xIllegal s) := by
    rw [step_writeCtrl, writeCtrl, decodeCommand_reserved h0 h1 h2]
    exact congrArg Host.Outcome.next (if_neg (by simp [isBusy_eq_false hb]))
  have complete : step (enterPhase .xIllegal s) = .next (completeWithError .illegalCmd (enterPhase .xIllegal s)) := by
    rw [step, enterPhase_script, hs]
    rfl
  exact ⟨_, _, start, rfl, complete, failedWith_completeWithError rfl rfl rfl rfl rfl rfl, rfl, rfl, rfl⟩

/-! ### WAIT -/

theorem hostWait_completed {waiting s : State} (h : s.regs.runState = .done ∨ s.regs.runState = .error) :
    hostWait waiting s = .next (logRead (.reg 1 s.regs.status) s) :=
  if_pos (by simpa [State.hasCompleted] using h)

theorem hostWait_pending {waiting s : State} (h : s.regs.runState = .idle ∨ s.regs.runState = .busy) :
    hostWait waiting s = engineTurn waiting :=
  if_neg (by rcases h with h | h <;> simp [State.hasCompleted, h])

/-- Settles O14, by the two cases of WAIT. -/
theorem waitPollsStatus : Obligations.WaitPollsStatus := by
  unfold Obligations.WaitPollsStatus
  exact fun s => ⟨fun h => hostWait_completed h, fun h => hostWait_pending h⟩

/-! ### LEN, PAD and TREE_LEAF -/

/-- The entries after READ_TREE has written a leaf. -/
theorem node_readLeaf (i j : NodeId) (v : Byte) (s : State) : (readLeaf i v s).arena.node[j] =
    if i = j then leafRecord v s.arena.node[i].weight s.draws else s.arena.node[j] :=
  node_set s.arena.node i j _

/-- The entries after READ_TREE has written an internal node. -/
theorem node_readInner (i j l r : NodeId) (s : State) : (readInner i l r s).arena.node[j] =
    if i = j then innerRecord l r s.arena.node[i].weight s.draws else s.arena.node[j] :=
  node_set s.arena.node i j _

/-- Settles O37: the meanings of the two elements. -/
theorem lenAndPadElements : Obligations.LenAndPadElements := by
  unfold Obligations.LenAndPadElements
  exact ⟨fun _ _ => rfl, fun _ _ => rfl⟩

/-- Settles O38: allocation of the next entry, and one entry written. -/
theorem treeLeafElement : Obligations.TreeLeafElement := by
  unfold Obligations.TreeLeafElement
  intro s v
  have run : exec (.treeLeaf v) s = ((allocateRead s).bind fun i t => .ok i (readLeaf i v t)).finish .node := rfl
  rcases allocate_cases (.raised .corruptHeader s) s with ⟨hroom, n, hn, e⟩ | ⟨hfull, e⟩ <;>
    rw [allocateRead, e] at run
  · refine ⟨fun h => ?_, fun hc => by omega⟩
    refine ⟨_, _, _, run, rfl, ?_, ?_, ?_, hn, rfl, fun j hj => (node_readLeaf _ j v _).trans (if_neg (Ne.symm hj))⟩
    all_goals
      rw [node_readLeaf, if_pos rfl]
      rfl
  · exact ⟨fun h => by omega, fun _ => ⟨_, run, failedWith_self .corruptHeader s⟩⟩

/-! ### CODE -/

/-- Emission of a decoded byte: the byte at OPTR and the two counters, or OUTPUT_OVERFLOW and no change of state. -/
theorem emitSymbol_cases (v : Byte) (s : State) :
    (s.decoder.optr < s.params.obufCap ∧
        emitSymbol v s = .ok () { s with
          obuf := s.obuf.write s.decoder.optr v
          decoder := { s.decoder with optr := s.decoder.optr + 1, symrem := s.decoder.symrem - 1 } }) ∨
      (s.params.obufCap ≤ s.decoder.optr ∧ emitSymbol v s = .raised .outputOverflow s) := by
  unfold emitSymbol
  rcases writeObuf_cases s.decoder.optr v s with ⟨h, e⟩ | ⟨h, e⟩ <;> rw [e]
  · exact .inl ⟨h, rfl⟩
  · exact .inr ⟨h, rfl⟩

section Code

variable {s : State} {tr : ByteTree} {c rest : Bits} {v : Byte} {b : Bool}

theorem execCode_symbol (ht : s.arena.tree s.arena.root = some tr) (hn : 0 < s.decoder.symrem)
    (h : tr.readCode c = some (v, [])) : exec (.code c) s = (emitSymbol v s).finish fun _ => .nothing := by
  simp only [exec, execCode, if_neg (Nat.ne_of_gt hn), ht, h]

theorem execCode_tooLong (ht : s.arena.tree s.arena.root = some tr) (hn : 0 < s.decoder.symrem)
    (h : tr.readCode c = some (v, b :: rest)) : exec (.code c) s = .refused .notASymbol := by
  simp only [exec, execCode, if_neg (Nat.ne_of_gt hn), ht, h]

theorem execCode_tooShort (ht : s.arena.tree s.arena.root = some tr) (hn : 0 < s.decoder.symrem)
    (h : tr.readCode c = none) : exec (.code c) s = .next (completeWithError .truncatedPayload s) := by
  simp only [exec, execCode, if_neg (Nat.ne_of_gt hn), ht, h]

theorem execCode_noSymbol (h : s.decoder.symrem = 0) : exec (.code c) s = .next s := if_pos h

end Code

/-- Settles O40: the CODE emits the value of its leaf. -/
theorem codeElement : Obligations.CodeElement := by
  unfold Obligations.CodeElement
  intro s tr c v ht hc hn
  have run := execCode_symbol ht hn hc
  rcases emitSymbol_cases v s with ⟨hfit, e⟩ | ⟨hfull, e⟩ <;> rw [e] at run
  · refine ⟨fun _ => ⟨_, _, run, rfl, ?_, fun a ha => ?_⟩, fun h => by omega⟩
    · exact (obufByte_write s _ _ v).trans (if_pos rfl)
    · exact (obufByte_write s _ _ v).trans (if_neg ha)
  · exact ⟨fun h => by omega, fun _ => ⟨_, run, failedWith_self .outputOverflow s⟩⟩

/-! ### Bits that are no element where they stand -/

theorem decodeElement_len_short {bs : Bits} (h : bs.length < 32) : decodeElement .len bs = .error .endInLen := if_pos h

theorem decodeElement_tree_short {bs : Bits} (h : bs = [] ∨ ∃ v, bs = true :: v ∧ v.length < 8) :
    decodeElement .tree bs = .error .endInTree := by
  rcases h with rfl | ⟨v, rfl, hv⟩
  · rfl
  · exact if_pos hv

theorem decodeElement_payload_short {t : ByteTree} {bs : Bits} (h : t.readCode bs = none) :
    decodeElement (.payload t) bs = .error .endInCode := by
  simp only [decodeElement, h]

/-- At PAD's place no bits have an effect, whether they are padding or not (44_decode.md R193). -/
theorem step_atPad {s : State} {k : PlaceKind} (hp : placeIn k s = some .pad) (bs : Bits) :
    step (s.doing (.element k bs)) = .next s := by
  by_cases h : bs.length ≤ 7 ∧ bs = zeros bs.length
  · exact step_element hp (if_pos h)
  · exact step_broken hp (if_neg h)

theorem decodeCall_unused {c : UopCall} (h : 13 ≤ c.op.toNat) : decodeCall c = .error .unusedOperation := by
  obtain ⟨k, hk⟩ := Nat.exists_eq_add_of_le' h
  simp only [decodeCall, hk]

/-- Settles O41, clause by clause: what the decoder says at the place, and what DECODE makes of it. -/
theorem elementsCutShort : Obligations.ElementsCutShort := by
  unfold Obligations.ElementsCutShort
  intro s
  refine ⟨fun bs h => ?_, fun bs h => ?_, fun tr bs hn ht h => ?_, fun bs h0 => ⟨?_, ?_⟩, fun bs => ?_,
    fun tr bs v b rest hn ht h => ?_, fun c h => ?_⟩
  · exact ⟨_, step_broken (p := .len) rfl (decodeElement_len_short h), failedWith_self .corruptHeader s⟩
  · exact ⟨_, step_broken (p := .tree) rfl (decodeElement_tree_short h), failedWith_self .corruptHeader s⟩
  · have hp : placeIn .payload s = some (.payload tr) := by simp [placeIn, Nat.ne_of_gt hn, ht]
    exact ⟨_, step_broken hp (decodeElement_payload_short h), execCode_tooShort ht hn h,
      failedWith_self .truncatedPayload s⟩
  · exact step_atPad (k := .payload) (if_pos h0) bs
  · exact execCode_noSymbol h0
  · exact step_atPad (k := .pad) rfl bs
  · exact execCode_tooLong ht hn h
  · rw [step_doing, runTurn, runCall, decodeCall_unused h]

end Sys2Proof.Machine
end

section
/-! PROOFS. What READ_BIT and READ_BITS take from the bits ahead (41_bitstream.md R128 to R130). -/

namespace Sys2Proof.Machine

variable {s : State}

/-- READ_BIT at the end of the input (41_bitstream.md R129). -/
theorem readBit_endOfStream (h : s.bitsAhead = []) : readBit s = .ok none s := by
  have hlen := congrArg List.length h
  simp only [State.bitsAhead, Reader.currentBits, List.length_append, length_bitsOf, length_unpack, List.length_drop,
    State.input, List.length_map, List.length_range, List.length_nil] at hlen
  rcases readBit_cases s with ⟨_, _, e⟩ | ⟨_, hin, _, _⟩ | ⟨_, hin, _, _⟩ | ⟨n, hn, _⟩
  · exact e
  all_goals omega

/-- READ_BIT takes the next bit off the bits ahead (41_bitstream.md R128). -/
theorem readBit_next (hcap : s.regs.inLen.toNat ≤ s.params.ibufCap) {b : Bool} {rest : Bits}
    (h : s.bitsAhead = b :: rest) :
    ∃ r, readBit s = .ok (some b) { s with reader := r } ∧ State.bitsAhead { s with reader := r } = rest ∧
      r.rbits = s.reader.rbits + 1 := by
  rcases readBit_cases s with ⟨hc, hin, _⟩ | ⟨_, _, _, _⟩ | ⟨hc, hin, _, e⟩ | ⟨n, hn, e⟩
  · have hlen := congrArg List.length h
    simp [State.bitsAhead, Reader.currentBits, State.input, hc] at hlen
    omega
  · omega
  · have hahead : s.bitsAhead = (s.ibufByte s.reader.rptr).getLsbD 7 ::
        State.bitsAhead { s with reader := ⟨s.ibufByte s.reader.rptr, 7, s.reader.rptr + 1, s.reader.rbits + 1⟩ } := by
      rw [State.bitsAhead, Reader.currentBits, hc, drop_input s hin]
      rfl
    obtain ⟨rfl, rfl⟩ := List.cons.inj (h.symm.trans hahead)
    exact ⟨_, e, rfl, rfl⟩
  · have hahead : s.bitsAhead = s.reader.rcur.getLsbD n.val ::
        State.bitsAhead { s with reader := { s.reader with rcnt := n, rbits := s.reader.rbits + 1 } } := by
      rw [State.bitsAhead, Reader.currentBits, hn]
      rfl
    obtain ⟨rfl, rfl⟩ := List.cons.inj (h.symm.trans hahead)
    exact ⟨_, e, rfl, rfl⟩

/-- READ_BITS with the bits it needs ahead (41_bitstream.md R130). -/
theorem readBitsLoop_enough (hcap : s.regs.inLen.toNat ≤ s.params.ibufCap) {k : Nat} (v : Nat)
    (h : k ≤ s.bitsAhead.length) :
    ∃ r, readBitsLoop k v s = .ok (some (valueFrom v (s.bitsAhead.take k))) { s with reader := r } ∧
      State.bitsAhead { s with reader := r } = s.bitsAhead.drop k ∧ r.rbits = s.reader.rbits + k := by
  induction k generalizing v s with
  | zero => exact ⟨s.reader, rfl, rfl, rfl⟩
  | succ k ih =>
    cases hb : s.bitsAhead with
    | nil => simp [hb] at h
    | cons b rest =>
      obtain ⟨r, e, ha, hr⟩ := readBit_next hcap hb
      obtain ⟨r', e', ha', hr'⟩ := ih (s := { s with reader := r }) hcap (2 * v + b.toNat)
        (by rw [ha]; simpa [hb] using h)
      rw [ha] at e' ha'
      exact ⟨r', by rw [readBitsLoop, e]; exact e', ha', by rw [hr', hr]; omega⟩

/-- READ_BITS where the input ends first: what is left is consumed (41_bitstream.md R130). -/
theorem readBitsLoop_short (hcap : s.regs.inLen.toNat ≤ s.params.ibufCap) {k : Nat} (v : Nat)
    (h : s.bitsAhead.length < k) :
    ∃ r, readBitsLoop k v s = .ok none { s with reader := r } ∧ State.bitsAhead { s with reader := r } = [] ∧
      r.rbits = s.reader.rbits + s.bitsAhead.length := by
  induction k generalizing v s with
  | zero => omega
  | succ k ih =>
    cases hb : s.bitsAhead with
    | nil => exact ⟨s.reader, by rw [readBitsLoop, readBit_endOfStream hb]; rfl, hb, rfl⟩
    | cons b rest =>
      obtain ⟨r, e, ha, hr⟩ := readBit_next hcap hb
      obtain ⟨r', e', ha', hr'⟩ := ih (s := { s with reader := r }) hcap (2 * v + b.toNat)
        (by rw [ha]; simpa [hb] using h)
      rw [ha] at hr'
      exact ⟨r', by rw [readBitsLoop, e]; exact e', ha', by rw [hr', hr, List.length_cons]; omega⟩

end Sys2Proof.Machine
end

section
/-! PROOFS. Reading a tree from the bits ahead, which the machine does as the grammar of R88 says, and the element
TREE_NODE (O39). -/

namespace Sys2Proof.Machine

open OpResult

/-! ### Trees in the arena -/

/-- Below `i` the arena holds the tree, in entries `lo` to `hi - 1` alone. -/
def Arena.HoldsIn (a : Arena) (lo hi : Nat) : NodeId → ByteTree → Prop
  | i, .leaf v => lo ≤ i.val ∧ i.val < hi ∧ a.node[i].leaf = true ∧ a.node[i].value = v
  | i, .node l r => lo ≤ i.val ∧ i.val < hi ∧ a.node[i].leaf = false ∧
      a.HoldsIn lo hi a.node[i].left l ∧ a.HoldsIn lo hi a.node[i].right r

/-- An arena with the same entries in the range holds the same tree, there and in a wider range. -/
theorem Arena.HoldsIn.congr {a b : Arena} {lo hi lo' hi' : Nat} {i : NodeId} {tr : ByteTree}
    (h : a.HoldsIn lo hi i tr) (hlo : lo' ≤ lo) (hhi : hi ≤ hi')
    (hab : ∀ j : NodeId, lo ≤ j.val → j.val < hi → b.node[j] = a.node[j]) : b.HoldsIn lo' hi' i tr := by
  induction tr generalizing i with
  | leaf v =>
    obtain ⟨h₁, h₂, hleaf, hval⟩ := h
    refine ⟨by omega, by omega, ?_, ?_⟩ <;> rw [hab i h₁ h₂] <;> assumption
  | node l r ihl ihr =>
    obtain ⟨h₁, h₂, hleaf, hl, hr⟩ := h
    refine ⟨by omega, by omega, ?_, ?_, ?_⟩ <;> rw [hab i h₁ h₂]
    · exact hleaf
    · exact ihl hl
    · exact ihr hr

theorem Arena.HoldsIn.treeOf {a : Arena} {lo hi fuel : Nat} {i : NodeId} {tr : ByteTree} (h : a.HoldsIn lo hi i tr)
    (hd : tr.depth < fuel) : a.treeOf fuel i = some tr := by
  induction tr generalizing fuel i with
  | leaf v =>
    obtain ⟨n, rfl⟩ := Nat.exists_eq_add_of_lt hd
    obtain ⟨-, -, hleaf, rfl⟩ := h
    exact if_pos hleaf
  | node l r ihl ihr =>
    obtain ⟨n, rfl⟩ := Nat.exists_eq_add_of_lt hd
    obtain ⟨-, -, hleaf, hl, hr⟩ := h
    simp only [ByteTree.depth] at hd
    rw [Arena.treeOf, if_neg (Bool.eq_false_iff.mp hleaf), ihl hl (by simp only [ByteTree.depth]; omega),
      ihr hr (by simp only [ByteTree.depth]; omega)]

/-- A tree that fits the arena is not too deep for `TreeOf`. -/
theorem Arena.HoldsIn.tree {a : Arena} {lo hi : Nat} {i : NodeId} {tr : ByteTree} (h : a.HoldsIn lo hi i tr)
    (hs : tr.size ≤ 511) : a.tree i = some tr := h.treeOf (Nat.lt_succ_of_le (ByteTree.depth_le_maxDepth hs))

/-! ### What reading a tree does -/

/-- From `s` to `t` the tree `tr` has been read into node `i` and `k` bits consumed: its nodes are the next entries, in
pre-order, and no weight and no other entry has been written (42_tree_codec.md R142 to R144). -/
structure TreeRead (s t : State) (i : NodeId) (tr : ByteTree) (k : Nat) : Prop where
  frame : TreeReadOnly s t
  id : i.val = s.arena.nodeCnt.val
  count : t.arena.nodeCnt.val = s.arena.nodeCnt.val + tr.size
  ahead : t.bitsAhead = s.bitsAhead.drop k
  rbits : t.reader.rbits = s.reader.rbits + k
  tree : t.arena.HoldsIn s.arena.nodeCnt.val t.arena.nodeCnt.val i tr
  kept : ∀ j : NodeId, j.val < s.arena.nodeCnt.val ∨ t.arena.nodeCnt.val ≤ j.val → t.arena.node[j] = s.arena.node[j]
  weight : ∀ j : NodeId, t.arena.node[j].weight = s.arena.node[j].weight
  left : ∀ j : NodeId, s.arena.nodeCnt.val ≤ j.val → j.val < t.arena.nodeCnt.val → t.arena.node[j].leaf = false →
    t.arena.node[j].left.val = j.val + 1

/-- The leaf branch of READ_TREE, its flag read. -/
def readLeafNode (s : State) : OpResult NodeId :=
  (allocateRead s).bind fun i s₁ => (readBits 8 s₁).bind fun v s₂ =>
    match v with
    | none => .raised .corruptHeader s₂
    | some v => .ok i (readLeaf i (BitVec.ofNat 8 v) s₂)

/-- The other branch of READ_TREE, its flag read. -/
def readInnerNode (levels : Nat) (s : State) : OpResult NodeId :=
  (allocateRead s).bind fun i s₁ => (readTreeLevels levels s₁).bind fun l s₂ =>
    (readTreeLevels levels s₂).bind fun r s₃ => .ok i (readInner i l r s₃)

theorem readTreeLevels_flag {levels : Nat} {s s₁ : State} {f : Bool} (h : readBit s = .ok (some f) s₁) :
    readTreeLevels (levels + 1) s = if f then readLeafNode s₁ else readInnerNode levels s₁ := by
  rw [readTreeLevels, h]
  cases f <;> rfl

theorem exec_treeNode (s : State) : exec .treeNode s = (readInnerNode (Config.nodeCap + 1) s).finish .node := rfl

theorem allocateRead_room {s : State} (h : s.arena.nodeCnt.val < 511) :
    ∃ n : Fin 512, n.val = s.arena.nodeCnt.val + 1 ∧
      allocateRead s = .ok ⟨s.arena.nodeCnt.val, h⟩ { s with arena := { s.arena with nodeCnt := n } } := by
  rcases allocate_cases (.raised .corruptHeader s) s with ⟨_, n, hn, e⟩ | ⟨hfull, _⟩
  · exact ⟨n, hn, e⟩
  · omega

theorem allocateRead_full {s : State} (h : s.arena.nodeCnt.val = 511) : allocateRead s = .raised .corruptHeader s := by
  rcases allocate_cases (.raised .corruptHeader s) s with ⟨_, _, _, _⟩ | ⟨_, e⟩
  · omega
  · exact e

/-- The bits of the flag count with those of the tree. -/
theorem TreeRead.of_readBit {s t : State} {r : Reader} {i : NodeId} {tr : ByteTree} {k : Nat} {f : Bool} {bs : Bits}
    (h : TreeRead { s with reader := r } t i tr k) (hs : s.bitsAhead = f :: bs)
    (ha : State.bitsAhead { s with reader := r } = bs) (hr : r.rbits = s.reader.rbits + 1) :
    TreeRead s t i tr (k + 1) where
  frame := TreeReadOnly.trans ⟨rfl, rfl⟩ h.frame
  id := h.id
  count := h.count
  ahead := by rw [h.ahead, ha, hs, List.drop_succ_cons]
  rbits := by rw [h.rbits, hr]; omega
  tree := h.tree
  kept := h.kept
  weight := h.weight
  left := h.left

section Node

variable {s : State} {n : Fin 512} (hroom : s.arena.nodeCnt.val < 511) (hn : n.val = s.arena.nodeCnt.val + 1)
include hn

/-- A leaf: an entry allocated, eight bits consumed, the entry written. -/
theorem TreeRead.leaf {r : Reader} {v : Byte}
    (ha : State.bitsAhead { s with reader := r } = s.bitsAhead.drop 8) (hr : r.rbits = s.reader.rbits + 8) :
    TreeRead s (readLeaf ⟨s.arena.nodeCnt.val, hroom⟩ v
      { s with arena := { s.arena with nodeCnt := n }, reader := r }) ⟨s.arena.nodeCnt.val, hroom⟩ (.leaf v) 8 where
  frame := ⟨rfl, rfl⟩
  id := rfl
  count := hn
  ahead := ha
  rbits := hr
  tree := by
    refine ⟨le_rfl, ?_, ?_, ?_⟩
    · change _ < n.val
      rw [hn]
      exact Nat.lt_succ_self _
    all_goals rw [node_readLeaf, if_pos rfl]; rfl
  kept j hj := by
    rw [node_readLeaf, if_neg]
    rintro rfl
    change _ ∨ n.val ≤ _ at hj
    simp only at hj
    omega
  weight j := by
    rw [node_readLeaf]
    split
    next h => rw [← h]; rfl
    next => rfl
  left j hlo hhi hleaf := by
    change j.val < n.val at hhi
    have hj : (⟨s.arena.nodeCnt.val, hroom⟩ : NodeId) = j := Fin.ext (by simp only; omega)
    rw [node_readLeaf, if_pos hj] at hleaf
    cases hleaf

/-- An internal node: an entry allocated, the two subtrees read after it, the entry written. -/
theorem TreeRead.node {s₂ s₃ : State} {il ir : NodeId} {l r : ByteTree} {kl kr : Nat}
    (hl : TreeRead { s with arena := { s.arena with nodeCnt := n } } s₂ il l kl) (hr : TreeRead s₂ s₃ ir r kr) :
    TreeRead s (readInner ⟨s.arena.nodeCnt.val, hroom⟩ il ir s₃) ⟨s.arena.nodeCnt.val, hroom⟩ (.node l r)
      (kl + kr) := by
  have hcl : s₂.arena.nodeCnt.val = n.val + l.size := hl.count
  have hcr : s₃.arena.nodeCnt.val = s₂.arena.nodeCnt.val + r.size := hr.count
  have entry := (node_readInner ⟨s.arena.nodeCnt.val, hroom⟩ ⟨s.arena.nodeCnt.val, hroom⟩ il ir s₃).trans (if_pos rfl)
  have other (j : NodeId) (hj : j.val ≠ s.arena.nodeCnt.val) :=
    (node_readInner ⟨s.arena.nodeCnt.val, hroom⟩ j il ir s₃).trans (if_neg fun e => hj (congrArg Fin.val e).symm)
  have weight (j : NodeId) : s₃.arena.node[j].weight = s.arena.node[j].weight := (hr.weight j).trans (hl.weight j)
  refine
    { frame := ?_, id := rfl, count := ?_, ahead := ?_, rbits := ?_, tree := ?_, kept := ?_, weight := ?_, left := ?_ }
  · exact TreeReadOnly.trans ⟨rfl, rfl⟩ (hl.frame.trans (hr.frame.trans ⟨rfl, rfl⟩))
  · change s₃.arena.nodeCnt.val = _
    simp only [ByteTree.size]
    omega
  · change s₃.bitsAhead = _
    rw [hr.ahead, hl.ahead, List.drop_drop]
    rfl
  · change s₃.reader.rbits = _
    rw [hr.rbits, hl.rbits]
    exact Nat.add_assoc ..
  · refine ⟨le_rfl, ?_, ?_, ?_, ?_⟩
    · change _ < s₃.arena.nodeCnt.val
      simp only
      omega
    all_goals rw [entry]
    · rfl
    · exact hl.tree.congr (by simp only; omega) (by change _ ≤ s₃.arena.nodeCnt.val; omega)
        fun j hlo hhi => (other j (by simp only at hlo; omega)).trans (hr.kept j (.inl hhi))
    · exact hr.tree.congr (by omega) le_rfl fun j hlo _ => other j (by omega)
  · intro j hj
    change _ ∨ s₃.arena.nodeCnt.val ≤ _ at hj
    rw [other j (by omega), hr.kept j (by omega), hl.kept j (by simp only; omega)]
  · intro j
    by_cases hj : j.val = s.arena.nodeCnt.val
    · obtain rfl : j = ⟨s.arena.nodeCnt.val, hroom⟩ := Fin.ext hj
      rw [entry]
      exact weight _
    · rw [other j hj]
      exact weight j
  · intro j hlo hhi hleaf
    change j.val < s₃.arena.nodeCnt.val at hhi
    by_cases hj : j.val = s.arena.nodeCnt.val
    · obtain rfl : j = ⟨s.arena.nodeCnt.val, hroom⟩ := Fin.ext hj
      rw [entry]
      exact hl.id.trans hn
    · rw [other j hj] at hleaf ⊢
      by_cases hj₂ : j.val < s₂.arena.nodeCnt.val
      · rw [hr.kept j (.inl hj₂)] at hleaf ⊢
        exact hl.left j (by simp only; omega) hj₂ hleaf
      · exact hr.left j (by omega) hhi hleaf

end Node

/-- READ_TREE at this bound reads `ser(tr)` wherever it stands ahead and its nodes have room. -/
def ReadsTree (levels : Nat) (tr : ByteTree) : Prop :=
  ∀ (s : State) (x : Bits), s.regs.inLen.toNat ≤ s.params.ibufCap → s.bitsAhead = tr.ser ++ x →
    s.arena.nodeCnt.val + tr.size ≤ 511 → ∃ i t, readTreeLevels levels s = .ok i t ∧ TreeRead s t i tr tr.ser.length

theorem readLeafNode_reads {s : State} {v : Byte} {x : Bits} (hcap : s.regs.inLen.toNat ≤ s.params.ibufCap)
    (h : s.bitsAhead = bitsOf 8 v.toNat ++ x) (hroom : s.arena.nodeCnt.val < 511) :
    ∃ i t, readLeafNode s = .ok i t ∧ TreeRead s t i (.leaf v) 8 := by
  obtain ⟨n, hn, ea⟩ := allocateRead_room hroom
  have htake : s.bitsAhead.take 8 = bitsOf 8 v.toNat := by rw [h, List.take_left' (length_bitsOf 8 _)]
  obtain ⟨r, er, ha, hr⟩ := readBitsLoop_enough (s := { s with arena := { s.arena with nodeCnt := n } }) hcap
    (k := 8) 0 (by change 8 ≤ s.bitsAhead.length; simp [h])
  refine ⟨_, _, ?_, TreeRead.leaf hroom hn ha hr⟩
  rw [readLeafNode, ea, ok_bind, readBits, er, ok_bind]
  change OpResult.ok _ (readLeaf _ (BitVec.ofNat 8 (valueOf (s.bitsAhead.take 8))) _) = _
  rw [htake, word_of_bits]

theorem readInnerNode_reads {levels : Nat} {l r : ByteTree} (hl : ReadsTree levels l) (hr : ReadsTree levels r)
    {s : State} {x : Bits} (hcap : s.regs.inLen.toNat ≤ s.params.ibufCap) (h : s.bitsAhead = l.ser ++ (r.ser ++ x))
    (hfit : s.arena.nodeCnt.val + (ByteTree.node l r).size ≤ 511) :
    ∃ i t, readInnerNode levels s = .ok i t ∧ TreeRead s t i (.node l r) (l.ser.length + r.ser.length) := by
  simp only [ByteTree.size] at hfit
  obtain ⟨n, hn, ea⟩ := allocateRead_room (s := s) (by omega)
  obtain ⟨il, s₂, el, htl⟩ := hl { s with arena := { s.arena with nodeCnt := n } } _ hcap h (by simp only; omega)
  have frame := OpFrame.of_treeReadOnly htl.frame
  have hcount : s₂.arena.nodeCnt.val = n.val + l.size := htl.count
  obtain ⟨ir, s₃, er, htr⟩ := hr s₂ x (by rw [frame.regs, frame.params]; exact hcap)
    (by rw [htl.ahead]; change s.bitsAhead.drop _ = _; rw [h, List.drop_left]) (by omega)
  exact ⟨_, _, by rw [readInnerNode, ea, ok_bind, el, ok_bind, er, ok_bind], TreeRead.node _ hn htl htr⟩

/-- READ_TREE reads every tree that is less deep than its bound (42_tree_codec.md R149). -/
theorem readsTree (tr : ByteTree) {levels : Nat} (hd : tr.depth < levels) : ReadsTree levels tr := by
  induction tr generalizing levels with
  | leaf v =>
    obtain ⟨d, rfl⟩ := Nat.exists_eq_add_of_lt hd
    intro s x hcap h hfit
    obtain ⟨r, e, ha, hr⟩ := readBit_next hcap h
    obtain ⟨i, t, et, ht⟩ := readLeafNode_reads (s := { s with reader := r }) hcap ha hfit
    exact ⟨i, t, (readTreeLevels_flag e).trans et, ht.of_readBit h ha hr⟩
  | node l r ihl ihr =>
    obtain ⟨d, rfl⟩ := Nat.exists_eq_add_of_lt hd
    simp only [ByteTree.depth] at hd
    intro s x hcap h hfit
    obtain ⟨rd, e, ha, hr⟩ := readBit_next hcap h
    obtain ⟨i, t, et, ht⟩ := readInnerNode_reads (s := { s with reader := rd })
      (ihl (levels := max l.depth r.depth + 1 + d) (by omega)) (ihr (by omega)) hcap
      (by rw [ha, List.append_eq, List.append_assoc]) hfit
    have hbits : l.ser.length + r.ser.length + 1 = (ByteTree.node l r).ser.length := by simp [ByteTree.ser]
    exact ⟨i, t, (readTreeLevels_flag e).trans et, hbits ▸ ht.of_readBit h ha hr⟩

/-! ### Where the grammar reads no tree -/

/-- READ_TREE at this bound fails with CORRUPT_HEADER wherever the grammar reads no tree at that bound. -/
def RejectsTree (levels : Nat) : Prop :=
  ∀ s : State, s.regs.inLen.toNat ≤ s.params.ibufCap →
    readTreeBits levels s.arena.nodeCnt.val s.bitsAhead = none → ∃ t, readTreeLevels levels s = .raised .corruptHeader t

theorem readLeafNode_rejects {s : State} (hcap : s.regs.inLen.toNat ≤ s.params.ibufCap)
    (h : s.arena.nodeCnt.val = 511 ∨ s.bitsAhead.length < 8) : ∃ t, readLeafNode s = .raised .corruptHeader t := by
  by_cases hfull : s.arena.nodeCnt.val = 511
  · exact ⟨s, by rw [readLeafNode, allocateRead_full hfull, raised_bind]⟩
  · obtain ⟨n, hn, ea⟩ := allocateRead_room (s := s) (by omega)
    obtain ⟨r, er, -, -⟩ := readBitsLoop_short (s := { s with arena := { s.arena with nodeCnt := n } }) hcap
      (k := 8) 0 (h.resolve_left hfull)
    exact ⟨_, by rw [readLeafNode, ea, ok_bind, readBits, er, ok_bind]⟩

theorem readInnerNode_rejects {levels : Nat} (ih : RejectsTree levels) {s : State}
    (hcap : s.regs.inLen.toNat ≤ s.params.ibufCap)
    (h : readTreeBits (levels + 1) s.arena.nodeCnt.val (false :: s.bitsAhead) = none) :
    ∃ t, readInnerNode levels s = .raised .corruptHeader t := by
  by_cases hfull : s.arena.nodeCnt.val = 511
  · exact ⟨s, by rw [readInnerNode, allocateRead_full hfull, raised_bind]⟩
  obtain ⟨n, hn, ea⟩ := allocateRead_room (s := s) (by omega)
  rw [readInnerNode, ea, ok_bind]
  obtain hl | ⟨l, used₁, bs₁, hl, hr⟩ := (readTreeBits_node_eq_none h).resolve_left hfull <;> rw [← hn] at hl
  · obtain ⟨t, et⟩ := ih { s with arena := { s.arena with nodeCnt := n } } hcap hl
    exact ⟨t, by rw [et, raised_bind]⟩
  · obtain ⟨hbits, rfl, hfit, hd⟩ := readTreeBits_eq_some hl (by simp only [Config.nodeCap]; omega)
    obtain ⟨il, s₂, el, htl⟩ := readsTree l hd { s with arena := { s.arena with nodeCnt := n } } bs₁ hcap hbits hfit
    have frame := OpFrame.of_treeReadOnly htl.frame
    have hahead : s₂.bitsAhead = bs₁ := by
      rw [htl.ahead]
      change s.bitsAhead.drop _ = _
      rw [hbits, List.drop_left]
    obtain ⟨t, et⟩ := ih s₂ (by rw [frame.regs, frame.params]; exact hcap) (by rw [htl.count, hahead]; exact hr)
    exact ⟨t, by rw [el, ok_bind, et, raised_bind]⟩

theorem rejectsTree (levels : Nat) : RejectsTree levels := by
  induction levels with
  | zero => exact fun s _ _ => ⟨s, rfl⟩
  | succ d ih =>
    intro s hcap h
    cases hb : s.bitsAhead with
    | nil => exact ⟨s, by rw [readTreeLevels, readBit_endOfStream hb, ok_bind]⟩
    | cons f bs =>
      obtain ⟨r, e, ha, -⟩ := readBit_next hcap hb
      rw [hb] at h
      rw [readTreeLevels_flag e]
      cases f with
      | true => exact readLeafNode_rejects (s := { s with reader := r }) hcap (ha ▸ readTreeBits_leaf_eq_none h)
      | false => exact readInnerNode_rejects (s := { s with reader := r }) ih hcap (ha ▸ h)

/-! ### The element TREE_NODE -/

theorem readInnerNode_frame (levels : Nat) (s : State) : (readInnerNode levels s).Ends (TreeReadOnly s) :=
  (allocateRead_frame s).bind (fun _ h => h) fun _ s₁ h₁ =>
    ((readTreeLevels_frame _ s₁).mono fun _ h => h₁.trans h).bind (fun _ h => h) fun _ s₂ h₂ =>
      ((readTreeLevels_frame _ s₂).mono fun _ h => h₂.trans h).bind (fun _ h => h) fun _ _ h => h.trans ⟨rfl, rfl⟩

theorem treeNode_reads {s : State} {l r : ByteTree} {x : Bits} (hcap : s.regs.inLen.toNat ≤ s.params.ibufCap)
    (h : s.bitsAhead = l.ser ++ r.ser ++ x) (hfit : s.arena.nodeCnt.val + (ByteTree.node l r).size ≤ 511) :
    ∃ i t, exec .treeNode s = .next { t with result := .node i } ∧
      TreeRead s t i (.node l r) (l.ser.length + r.ser.length) := by
  have hd : max l.depth r.depth < Config.nodeCap + 1 :=
    Nat.lt_trans (ByteTree.depth_le_maxDepth (t := .node l r) (by omega)) (by decide)
  obtain ⟨i, t, e, ht⟩ := readInnerNode_reads (levels := Config.nodeCap + 1) (readsTree l (by omega))
    (readsTree r (by omega)) hcap (h.trans (List.append_assoc ..)) hfit
  exact ⟨i, t, by rw [exec_treeNode, e]; rfl, ht⟩

theorem treeNode_rejects {s : State} (hcap : s.regs.inLen.toNat ≤ s.params.ibufCap)
    (h : ¬ ∃ l r : ByteTree, s.arena.nodeCnt.val + (ByteTree.node l r).size ≤ 511 ∧ l.ser ++ r.ser <+: s.bitsAhead) :
    ∃ t, exec .treeNode s = .next t ∧ FailedWith .corruptHeader s t := by
  have hnone : readTreeBits (Config.nodeCap + 2) s.arena.nodeCnt.val (false :: s.bitsAhead) = none := by
    by_contra hsome
    obtain ⟨⟨tr, used, x⟩, e⟩ := Option.ne_none_iff_exists'.mp hsome
    obtain ⟨hbits, rfl, hfit, -⟩ := readTreeBits_eq_some e (by simp only [Config.nodeCap]; omega)
    cases tr with
    | leaf v => cases hbits
    | node l r => exact h ⟨l, r, hfit, x, (List.cons.inj hbits).2.symm⟩
  obtain ⟨t, e⟩ := readInnerNode_rejects (rejectsTree _) hcap hnone
  obtain ⟨heq, -⟩ : TreeReadOnly s t := by
    have := readInnerNode_frame (Config.nodeCap + 1) s
    rwa [e] at this
  refine ⟨_, by rw [exec_treeNode, e]; rfl, ?_⟩
  rw [heq]
  exact failedWith_completeWithError rfl rfl rfl rfl rfl rfl

/-- Settles O39: READ_TREE's branch for an internal node, which reads what the grammar reads; a success starts no new
epoch, so it is no failure. -/
theorem treeNodeElement : Obligations.TreeNodeElement := by
  unfold Obligations.TreeNodeElement
  refine ⟨fun s l r x hcap h hfit => ?_, fun s hcap => ⟨?_, treeNode_rejects hcap⟩⟩
  · obtain ⟨i, t, e, ht⟩ := treeNode_reads hcap h hfit
    obtain ⟨heq, hroot⟩ := ht.frame
    have hahead : t.bitsAhead = x := by rw [ht.ahead, h, List.drop_left' (List.length_append ..)]
    exact ⟨_, t.reader, t.arena, t.draws, i, e, congrArg (fun u : State => { u with result := .node i }) heq, ht.id,
      ht.tree.tree (by omega), ht.count, hroot, hahead, ht.kept⟩
  · rintro ⟨t, e, -, -, -, -, -, -, hfailed, -⟩ ⟨l, r, hfit, x, hx⟩
    obtain ⟨i, u, eu, hu⟩ := treeNode_reads hcap hx.symm hfit
    cases e.symm.trans eu
    have hepoch : u.epoch = s.epoch := by rw [hu.frame.1]
    exact absurd (hepoch.symm.trans hfailed) (Nat.succ_ne_self _).symm

end Sys2Proof.Machine
end

section
/-! PROOFS. The stream as the function `encode(d)` gives it: the degenerate streams (O51) and the size of every stream
(O52). -/

namespace Sys2Proof

/-! ### Lengths -/

theorem ByteTree.leaves_pos (t : ByteTree) : 0 < t.leaves := by
  induction t with
  | leaf v => exact Nat.one_pos
  | node l r ihl ihr => exact Nat.add_pos_left ihl _

/-- The tree section has ten bits for each leaf but one (42_tree_codec.md R141). -/
theorem ByteTree.length_ser (t : ByteTree) : t.ser.length = 10 * t.leaves - 1 := by
  induction t with
  | leaf v => simp [ser, leaves]
  | node l r ihl ihr =>
    have := l.leaves_pos
    have := r.leaves_pos
    simp only [ser, leaves, List.length_cons, List.length_append, ihl, ihr]
    omega

theorem length_pack {n : Nat} {bs : Bits} (h : bs.length = 8 * n) : (pack bs).length = n := by
  have := congrArg List.length (unpack_pack n bs h)
  rw [length_unpack] at this
  omega

/-- Padding brings a bit sequence to the next whole byte (30_encoding.md R91). -/
theorem length_pack_padded (bs : Bits) : (pack (bs ++ zeros (padLength bs.length))).length = (bs.length + 7) / 8 := by
  apply length_pack
  rw [List.length_append, length_zeros, padLength]
  omega

end Sys2Proof

namespace Sys2Proof.Machine.Reference

/-! ### The values present -/

theorem nodup_byteValues : ((List.range 256).map (BitVec.ofNat 8)).Nodup := by
  refine List.Nodup.map_on (fun a ha b hb e => ?_) List.nodup_range
  have := congrArg BitVec.toNat e
  simp only [List.mem_range, BitVec.toNat_ofNat] at *
  omega

theorem nodup_present (d : List Byte) : (present d).Nodup := nodup_byteValues.filter _

theorem mem_present {d : List Byte} {v : Byte} : v ∈ present d ↔ v ∈ d := by
  simp only [present, List.mem_filter, List.mem_map, List.mem_range, decide_eq_true_eq, List.count_pos_iff]
  exact ⟨And.right, fun h => ⟨⟨v.toNat, v.isLt, by simp⟩, h⟩⟩

/-- A sum over the input, gathered by value. -/
theorem sum_map_present (d : List Byte) (f : Byte → Nat) :
    ((present d).map fun v => d.count v * f v).sum = (d.map f).sum := by
  have hset : (present d).toFinset = d.toFinset := Finset.ext fun v => by simp [mem_present]
  rw [← List.sum_toFinset _ (nodup_present d), hset, Finset.sum_list_map_count]
  rfl

/-! ### The tree of the reference -/

theorem length_leafEntries (d : List Byte) (i : Nat) (vs : List Byte) : (leafEntries d i vs).length = vs.length := by
  induction vs generalizing i with
  | nil => rfl
  | cons v vs ih => simp [leafEntries, ih]

/-- The number of leaves of the trees in a queue. -/
def queueLeaves (q : List Entry) : Nat := (q.map fun e => e.tree.leaves).sum

theorem queueLeaves_leafEntries (d : List Byte) (i : Nat) (vs : List Byte) :
    queueLeaves (leafEntries d i vs) = vs.length := by
  induction vs generalizing i with
  | nil => rfl
  | cons v vs ih =>
    have := ih (i + 1)
    simp only [queueLeaves, leafEntries, List.map_cons, List.sum_cons, List.length_cons, ByteTree.leaves] at *
    omega

theorem insertEntry_perm (e : Entry) (q : List Entry) : (insertEntry e q).Perm (e :: q) := by
  induction q with
  | nil => rfl
  | cons x xs ih =>
    simp only [insertEntry]
    split
    · rfl
    · exact (ih.cons x).trans (.swap ..)

theorem foldr_insertEntry_perm (q : List Entry) : (q.foldr insertEntry []).Perm q := by
  induction q with
  | nil => rfl
  | cons e q ih => exact (insertEntry_perm _ _).trans (ih.cons e)

theorem queueLeaves_perm {q q' : List Entry} (h : q.Perm q') : queueLeaves q = queueLeaves q' :=
  (h.map _).sum_eq

/-- Merging a queue that is not empty gives a tree with all its leaves: a round takes one entry off. -/
theorem mergeEntries_leaves {n next : Nat} {q : List Entry} (h0 : 0 < q.length) (hn : q.length ≤ n) :
    ∃ t, mergeEntries n next q = some t ∧ t.leaves = queueLeaves q := by
  induction n generalizing next q with
  | zero => omega
  | succ n ih =>
    match q with
    | [e] => exact ⟨e.tree, rfl, by simp [queueLeaves]⟩
    | a :: b :: rest =>
      have hperm := insertEntry_perm ⟨a.weight + b.weight, next, .node a.tree b.tree⟩ rest
      obtain ⟨t, e, ht⟩ := ih (next := next + 1) (by rw [hperm.length_eq]; exact Nat.succ_pos _)
        (by rw [hperm.length_eq]; simpa using hn)
      refine ⟨t, e, ?_⟩
      rw [ht, queueLeaves_perm hperm]
      simp [queueLeaves, ByteTree.leaves, Nat.add_assoc]

/-- A non-empty input has a tree, with one leaf for each value present (40_frequency_tree_code.md R110). -/
theorem huffmanTree_leaves {d : List Byte} (h : d ≠ []) :
    ∃ t, huffmanTree d = some t ∧ t.leaves = (present d).length := by
  obtain ⟨v, hv⟩ := List.exists_mem_of_ne_nil d h
  have hpos : 0 < (present d).length := List.length_pos_of_mem (mem_present.mpr hv)
  have hperm := foldr_insertEntry_perm (leafEntries d 0 (present d))
  have hlen := hperm.length_eq.trans (length_leafEntries d 0 _)
  obtain ⟨t, e, ht⟩ := mergeEntries_leaves (n := (leafEntries d 0 (present d)).length)
    (next := (leafEntries d 0 (present d)).length) (hlen ▸ hpos) hperm.length_eq.le
  exact ⟨t, e, by rw [ht, queueLeaves_perm hperm, queueLeaves_leafEntries]⟩

/-- The encoding by the tree of the input. -/
theorem encodeBits_of_tree {d : List Byte} {t : ByteTree} (h : huffmanTree d = some t) :
    encodeBits d = bitsOf 32 d.length ++ t.ser ++ d.flatMap fun v => (codeOf t v).getD [] := by
  simp only [encodeBits, h]

theorem encodeBytes_nil : encodeBytes [] = [0, 0, 0, 0] := by decide

/-- Settles O52: LEN, ten bits a leaf but one, and the code lengths summed over the input, padded to whole bytes. -/
theorem streamSize : Obligations.StreamSize := by
  unfold Obligations.StreamSize
  refine ⟨encodeBytes_nil, fun d hd => ?_⟩
  obtain ⟨t, ht, hleaves⟩ := huffmanTree_leaves hd
  refine ⟨t, ht, ?_⟩
  rw [encodeBytes, length_pack_padded, sum_map_present d fun v => ((codeOf t v).getD []).length, ← hleaves,
    ← ByteTree.length_ser, encodeBits_of_tree ht]
  simp [List.length_flatMap, Nat.add_assoc]

/-! ### One repeated value -/

theorem present_replicate {n : Nat} (v : Byte) (h : n ≠ 0) : present (List.replicate n v) = [v] := by
  refine List.perm_singleton.mp ((List.perm_ext_iff_of_nodup (nodup_present _) (List.nodup_singleton v)).mpr ?_)
  intro w
  rw [mem_present]
  simp [h]

theorem huffmanTree_replicate {n : Nat} (v : Byte) (h : n ≠ 0) :
    huffmanTree (List.replicate n v) = some (.leaf v) := by
  rw [huffmanTree, present_replicate v h]
  rfl

theorem encodeBits_replicate {n : Nat} (v : Byte) (h : n ≠ 0) :
    encodeBits (List.replicate n v) = bitsOf 32 n ++ true :: bitsOf 8 v.toNat ++ zeros n := by
  rw [encodeBits_of_tree (huffmanTree_replicate v h), List.length_replicate]
  simp [ByteTree.ser, codeOf, zeros, List.flatMap_replicate]

/-- Settles O51: closed streams evaluated, and the tree of one repeated value, which is one leaf of code `0`. -/
theorem degenerateStreams : Obligations.DegenerateStreams := by
  unfold Obligations.DegenerateStreams
  refine ⟨encodeBytes_nil, fun cap => rfl, fun cap => rfl, fun n v hn => ?_⟩
  rw [encodeBytes, encodeBits_replicate v (by omega)]
  rfl

end Sys2Proof.Machine.Reference
end

section
/-! PROOFS. COUNT (O18) and the two operations of the queue (O19, O20), 40_frequency_tree_code.md R100 to R103. -/

namespace Sys2Proof.Machine

open OpResult Reference

/-! ### The values present -/

theorem mem_byteValues (v : Byte) : v ∈ byteValues :=
  List.mem_map.mpr ⟨v.toNat, List.mem_range.mpr v.isLt, by simp⟩

theorem mem_presentValues {s : State} {v : Byte} : v ∈ s.presentValues ↔ s.freqAt v ≠ 0 := by
  simp [State.presentValues, mem_byteValues]

theorem length_presentValues_le (s : State) : s.presentValues.length ≤ 256 :=
  (List.length_filter_le _ byteValues).trans_eq (by simp [byteValues])

/-- FREQ counts the bytes of `d` (40_frequency_tree_code.md R101). -/
def State.Counts (s : State) (d : List Byte) : Prop := ∀ v, (s.freqAt v).toNat = d.count v

theorem State.Counts.freqAt_eq_zero_iff {s : State} {d : List Byte} (h : s.Counts d) (v : Byte) :
    s.freqAt v = 0 ↔ d.count v = 0 := by
  rw [← h v, ← BitVec.toNat_inj]
  rfl

theorem State.Counts.presentValues {s : State} {d : List Byte} (h : s.Counts d) : s.presentValues = present d :=
  List.filter_congr fun v _ => by
    rw [decide_eq_decide, ne_eq, h.freqAt_eq_zero_iff, Nat.pos_iff_ne_zero]

theorem present_eq_nil_iff {d : List Byte} : present d = [] ↔ d = [] := by
  simp only [List.eq_nil_iff_forall_not_mem, mem_present]

/-- Every FREQ counts the bytes of some input, which need not fit IN_LEN. -/
theorem exists_counts (s : State) : ∃ d, s.Counts d := by
  let f : Byte →₀ Nat := Finsupp.equivFunOnFinite.symm fun v => (s.freqAt v).toNat
  refine ⟨f.toMultiset.toList, fun v => ?_⟩
  rw [← Multiset.coe_count, Multiset.coe_toList, Finsupp.count_toMultiset]
  rfl

/-- The counts of all byte values add up to the length. -/
theorem sum_count_byteValues (d : List Byte) : (byteValues.map fun v => d.count v).sum = d.length := by
  have h := Multiset.sum_count_eq_card (s := byteValues.toFinset) (m := (d : Multiset Byte))
    fun v _ => List.mem_toFinset.mpr (mem_byteValues v)
  rw [List.sum_toFinset _ (l := byteValues) nodup_byteValues] at h
  simpa using h

/-! ### COUNT -/

/-- Counting one byte whose count fits: FREQ alone changes, and only that byte's count grows. -/
theorem bump_fits {b : Byte} {s : State} (h : (s.freqAt b).toNat + 1 < 2 ^ 32) :
    ∃ f, bump b s = { s with freq := f } ∧ ∀ v, (State.freqAt { s with freq := f } v).toNat =
      (s.freqAt v).toNat + if b = v then 1 else 0 := by
  have e : bump b s = setFreq b (s.freqAt b + 1) s := by
    rcases addWeight_cases (s.freqAt b) 1 s with ⟨_, e⟩ | ⟨h', _⟩
    · rw [bump, e]
    · exact absurd h' (Nat.not_le.mpr h)
  refine ⟨_, e, fun v => ?_⟩
  change ((setFreq b (s.freqAt b + 1) s).freqAt v).toNat = _
  rw [← e, freqAt_bump h]
  by_cases hv : v = b
  · subst hv
    simpa using h
  · simp [hv, Ne.symm hv]

/-- The loop of COUNT while no count can overflow: each count grows by the occurrences in the bytes scanned. -/
theorem countLoop_counts (n : Nat) {s : State} (hcap : s.eidx + n ≤ s.params.ibufCap)
    (hfit : ∀ v, (s.freqAt v).toNat + n < 2 ^ 32) :
    ∃ f, countLoop n s = .ok () { s with freq := f, eidx := s.eidx + n } ∧
      ∀ v, (State.freqAt { s with freq := f } v).toNat =
        (s.freqAt v).toNat + ((List.range' s.eidx n).map s.ibufByte).count v := by
  induction n generalizing s with
  | zero => exact ⟨s.freq, rfl, fun v => rfl⟩
  | succ n ih =>
    obtain ⟨g, e, hg⟩ := bump_fits (b := s.ibufByte s.eidx) (s := s) (by have := hfit (s.ibufByte s.eidx); omega)
    obtain ⟨f, e', hf⟩ := ih (s := { s with freq := g, eidx := s.eidx + 1 }) (by simp only; omega) fun v => by
      have hv : (State.freqAt { s with freq := g } v).toNat ≤ (s.freqAt v).toNat + 1 := by
        rw [hg]
        split <;> omega
      have := hfit v
      exact lt_of_le_of_lt (Nat.add_le_add_right hv n) (by omega)
    refine ⟨f, ?_, fun v => ?_⟩
    · rw [countLoop, readIbuf_ok (by omega), ok_bind, e, e']
      simp only [Nat.add_assoc, Nat.add_comm 1 n]
    · rw [List.range'_succ, List.map_cons, List.count_cons]
      have h₁ := hf v
      have h₂ := hg v
      simp only [State.freqAt, beq_iff_eq] at *
      rw [h₁, h₂]
      change _ + _ + ((List.range' (s.eidx + 1) n).map s.ibufByte).count v = _
      omega

/-- COUNT from an all-zero FREQ counts the input. -/
theorem countBytes_counts {s : State} (hcap : s.regs.inLen.toNat ≤ s.params.ibufCap) (h0 : ∀ v, s.freqAt v = 0) :
    ∃ f e, countBytes s = .ok () { s with freq := f, eidx := e } ∧ State.Counts { s with freq := f } s.input := by
  obtain ⟨f, e, hf⟩ := countLoop_counts s.regs.inLen.toNat (s := { s with eidx := 0 }) (by simpa using hcap)
    fun v => by
      rw [show State.freqAt { s with eidx := 0 } v = 0 from h0 v]
      simpa using s.regs.inLen.isLt
  refine ⟨f, _, e, fun v => (hf v).trans ?_⟩
  rw [show State.freqAt { s with eidx := 0 } v = 0 from h0 v, State.input, List.range_eq_range']
  exact Nat.zero_add _

theorem length_input (s : State) : s.input.length = s.regs.inLen.toNat := by simp [State.input]

theorem input_eq_nil_iff (s : State) : s.input = [] ↔ s.regs.inLen = 0 := by
  rw [← List.length_eq_zero_iff, length_input, ← BitVec.toNat_inj]
  rfl

/-- Settles O18: by the loop of COUNT, which adds the occurrences of each value to a count of 0. -/
theorem countCounts : Obligations.CountCounts := by
  unfold Obligations.CountCounts
  intro s hcap h0
  obtain ⟨f, e, hrun, hf⟩ := countBytes_counts hcap h0
  have hcounts : State.Counts { s with freq := f, eidx := e, result := .nothing } s.input := hf
  refine ⟨_, finish_eq_next.mpr (.inl ⟨(), _, hrun, rfl⟩), ⟨f, e, rfl⟩, hcounts, ?_, ?_⟩
  · rw [List.map_congr_left fun v _ => hcounts v, sum_count_byteValues, length_input]
  · rw [hcounts.presentValues, present_eq_nil_iff, input_eq_nil_iff]

/-! ### The queue -/

/-- The order of extraction (R103): `m` is extracted before `i`, unless it is `i`. -/
theorem precedes_eq_false_iff {t : Arena} {i m : NodeId} : t.precedes i m = false ↔
    t.node[m].weight < t.node[i].weight ∨ (t.node[m].weight = t.node[i].weight ∧ m ≤ i) := by
  simp only [Arena.precedes, Bool.or_eq_false_iff, Bool.and_eq_false_iff, decide_eq_false_iff_not, BitVec.lt_def,
    ← BitVec.toNat_inj, Fin.lt_def, Fin.le_def]
  omega

theorem precedes_eq_false_trans {t : Arena} {i j k : NodeId} (h₁ : t.precedes j i = false)
    (h₂ : t.precedes k j = false) : t.precedes k i = false := by
  simp only [precedes_eq_false_iff, BitVec.lt_def, ← BitVec.toNat_inj, Fin.le_def] at *
  omega

/-- No member precedes the least. -/
theorem precedes_least (t : Arena) (m : NodeId) (is : List NodeId) :
    ∀ j ∈ m :: is, t.precedes j (t.least m is) = false := by
  have refl (i : NodeId) : t.precedes i i = false := precedes_eq_false_iff.mpr (.inr ⟨rfl, le_rfl⟩)
  induction is generalizing m with
  | nil =>
    intro j hj
    rw [List.mem_singleton.mp hj]
    exact refl m
  | cons i is ih =>
    have hle : ∀ j, j = m ∨ j = i → t.precedes j (if t.precedes i m then i else m) = false := by
      rintro j (rfl | rfl) <;> split
      next h =>
        simp only [Arena.precedes, Bool.or_eq_true, Bool.and_eq_true, decide_eq_true_eq] at h
        exact precedes_eq_false_iff.mpr (h.imp_right fun ⟨hw, hi⟩ => ⟨hw, hi.le⟩)
      · exact refl j
      · exact refl j
      next h => exact Bool.eq_false_iff.mpr h
    intro j hj
    rcases List.mem_cons.mp hj with hm | hj
    · exact precedes_eq_false_trans (ih _ _ (List.mem_cons_self ..)) (hle j (.inl hm))
    rcases List.mem_cons.mp hj with hi | hj
    · exact precedes_eq_false_trans (ih _ _ (List.mem_cons_self ..)) (hle j (.inr hi))
    · exact ih _ j (List.mem_cons_of_mem _ hj)

/-- PQ_EXTRACT_MIN on a queue that is not empty: the member that no member precedes leaves it. -/
theorem pqExtractMin_least {s : State} (h : s.pq ≠ []) :
    ∃ m, pqExtractMin s = .ok m { s with pq := s.pq.erase m } ∧ m ∈ s.pq ∧
      ∀ j ∈ s.pq, s.arena.precedes j m = false := by
  unfold pqExtractMin
  split
  next hq => exact absurd hq h
  next i is hq =>
    rw [hq]
    exact ⟨_, rfl, least_mem s.arena i is, precedes_least s.arena i is⟩

/-- Settles O19: insertion into the list with rising ids. -/
theorem pqInsertAdds : Obligations.PqInsertAdds := by
  unfold Obligations.PqInsertAdds
  exact fun s i => ⟨queueInsert i s.pq, rfl, fun j => mem_queueInsert i j s.pq, queueInsert_rising i s.pq⟩

/-- Settles O20: the least member is extracted, and a list with rising ids holds it once. -/
theorem pqExtractMinTakesLeast : Obligations.PqExtractMinTakesLeast := by
  unfold Obligations.PqExtractMinTakesLeast
  intro s hne hrising
  obtain ⟨m, e, hm, hleast⟩ := pqExtractMin_least hne
  refine ⟨m, s.pq.erase m, finish_eq_next.mpr (.inl ⟨m, _, e, rfl⟩), hm,
    fun j hj => precedes_eq_false_iff.mp (hleast j hj), fun j => ?_, hrising.sublist List.erase_sublist⟩
  rw [List.Nodup.mem_erase_iff (hrising.imp ne_of_lt), and_comm]

end Sys2Proof.Machine
end

section
/-! PROOFS. BUILD (40_frequency_tree_code.md R104 to R110): the arena and the queue as a forest of trees in extraction
order, which each round of BUILD changes as the queue-free reference does (O21, O22). -/

namespace Sys2Proof

open Machine

/-! ### Trees -/

theorem ByteTree.length_values (t : ByteTree) : t.values.length = t.leaves := by
  induction t with
  | leaf v => rfl
  | node l r ihl ihr => simp [values, leaves, ihl, ihr]

theorem ByteTree.depth_lt_leaves (t : ByteTree) : t.depth < t.leaves := by
  induction t with
  | leaf v => exact Nat.one_pos
  | node l r ihl ihr =>
    simp only [depth, leaves]
    omega

end Sys2Proof

namespace Sys2Proof.Machine

open OpResult Reference

/-! ### The entries of a tree in the arena -/

/-- The entries of the tree `tr` below `i`, in pre-order. -/
def Arena.nodesOf (a : Arena) : NodeId → ByteTree → List NodeId
  | i, .leaf _ => [i]
  | i, .node l r => i :: (a.nodesOf a.node[i].left l ++ a.nodesOf a.node[i].right r)

theorem Arena.length_nodesOf (a : Arena) (i : NodeId) (tr : ByteTree) : (a.nodesOf i tr).length = tr.size := by
  induction tr generalizing i with
  | leaf v => rfl
  | node l r ihl ihr => simp [nodesOf, ByteTree.size, ihl, ihr]

/-- The entries a tree that the arena holds is made of are the ones reached from its root. -/
theorem Arena.HoldsIn.reached {a : Arena} {lo hi fuel : Nat} {i : NodeId} {tr : ByteTree} (h : a.HoldsIn lo hi i tr)
    (hd : tr.depth < fuel) : a.reached fuel i = a.nodesOf i tr := by
  induction tr generalizing fuel i with
  | leaf v =>
    obtain ⟨n, rfl⟩ := Nat.exists_eq_add_of_lt hd
    obtain ⟨-, -, hleaf, -⟩ := h
    exact if_pos hleaf
  | node l r ihl ihr =>
    obtain ⟨n, rfl⟩ := Nat.exists_eq_add_of_lt hd
    obtain ⟨-, -, hleaf, hl, hr⟩ := h
    rw [Arena.reached, if_neg (Bool.eq_false_iff.mp hleaf), ihl hl (by simp only [ByteTree.depth]; omega),
      ihr hr (by simp only [ByteTree.depth]; omega), nodesOf]

/-- An arena with the same entries in the range has the tree's entries in the same places. -/
theorem Arena.HoldsIn.nodesOf_congr {a b : Arena} {lo hi : Nat} {i : NodeId} {tr : ByteTree}
    (h : a.HoldsIn lo hi i tr) (hab : ∀ j : NodeId, lo ≤ j.val → j.val < hi → b.node[j] = a.node[j]) :
    b.nodesOf i tr = a.nodesOf i tr := by
  induction tr generalizing i with
  | leaf v => rfl
  | node l r ihl ihr =>
    obtain ⟨h₁, h₂, -, hl, hr⟩ := h
    rw [nodesOf, nodesOf, hab i h₁ h₂, ihl hl, ihr hr]

theorem Arena.HoldsIn.root_lt {a : Arena} {lo hi : Nat} {i : NodeId} {tr : ByteTree} (h : a.HoldsIn lo hi i tr) :
    i.val < hi := by
  cases tr with
  | leaf v => exact h.2.1
  | node l r => exact h.2.1

/-! ### The queue as entries of the reference -/

/-- The node id of a queue entry of the reference. -/
def Reference.Entry.node (e : Entry) : NodeId := Fin.ofNat 511 e.id

/-- The entries of NODE that the trees of a queue are made of. -/
def Arena.forestNodes (a : Arena) (q : List Entry) : List NodeId := q.flatMap fun e => a.nodesOf e.node e.tree

/-- The arena holds the queue entry `e`: its id, its weight and its tree. -/
structure Arena.HoldsEntry (a : Arena) (e : Entry) : Prop where
  id : e.node.val = e.id
  weight : a.node[e.node].weight.toNat = e.weight
  tree : a.HoldsIn 0 a.nodeCnt.val e.node e.tree

theorem Arena.HoldsEntry.congr {a b : Arena} {e : Entry} (h : a.HoldsEntry e) (hle : a.nodeCnt.val ≤ b.nodeCnt.val)
    (hab : ∀ j : NodeId, j.val < a.nodeCnt.val → b.node[j] = a.node[j]) : b.HoldsEntry e where
  id := h.id
  weight := by rw [hab _ h.tree.root_lt, h.weight]
  tree := h.tree.congr le_rfl hle fun j _ => hab j

/-- What an internal entry of BUILD's arena satisfies: allocated children, the left one not the heavier
(40_frequency_tree_code.md R106). -/
def Arena.SiblingsOk (a : Arena) (i : NodeId) : Prop :=
  a.node[i].left.val < a.nodeCnt.val ∧ a.node[i].right.val < a.nodeCnt.val ∧
    a.node[a.node[i].left].weight ≤ a.node[a.node[i].right].weight

theorem Arena.SiblingsOk.congr {a b : Arena} {i : NodeId} (h : a.SiblingsOk i) (hle : a.nodeCnt.val ≤ b.nodeCnt.val)
    (hab : ∀ j : NodeId, j.val < a.nodeCnt.val → b.node[j] = a.node[j]) (hi : i.val < a.nodeCnt.val) :
    b.SiblingsOk i := by
  obtain ⟨hl, hr, hw⟩ := h
  simp only [SiblingsOk, hab i hi, hab _ hl, hab _ hr]
  exact ⟨by omega, by omega, hw⟩

/-- While BUILD runs, `n` leaves being allocated: the trees of the queue `q`, which stands in extraction order, are the
whole arena. -/
structure Forest (n : Nat) (s : State) (q : List Entry) : Prop where
  queue : s.pq.Perm (q.map Entry.node)
  ordered : q.Pairwise fun a b => a.before b = true
  holds : ∀ e ∈ q, s.arena.HoldsEntry e
  nodup : (s.arena.forestNodes q).Nodup
  covers : ∀ j, j ∈ s.arena.forestNodes q ↔ j.val < s.arena.nodeCnt.val
  count : s.arena.nodeCnt.val + q.length = 2 * n
  leaves : n ≤ s.arena.nodeCnt.val
  leaf : ∀ j : NodeId, j.val < s.arena.nodeCnt.val → (s.arena.node[j].leaf = true ↔ j.val < n)
  siblings : ∀ j : NodeId, j.val < s.arena.nodeCnt.val → s.arena.node[j].leaf = false → s.arena.SiblingsOk j
  latest : q ≠ [] → ∃ e ∈ q, e.id + 1 = s.arena.nodeCnt.val

theorem Arena.forestNodes_congr {a b : Arena} {q : List Entry} (h : ∀ e ∈ q, a.HoldsEntry e)
    (hab : ∀ j : NodeId, j.val < a.nodeCnt.val → b.node[j] = a.node[j]) : b.forestNodes q = a.forestNodes q :=
  List.flatMap_congr fun e he => (h e he).tree.nodesOf_congr fun j _ => hab j

/-! ### The order of extraction -/

theorem before_iff {a b : Entry} : a.before b = true ↔ a.weight < b.weight ∨ (a.weight = b.weight ∧ a.id < b.id) := by
  simp [Entry.before]

theorem before_trans {a b c : Entry} (h₁ : a.before b = true) (h₂ : b.before c = true) : a.before c = true := by
  rw [before_iff] at *
  omega

/-- Two entries of different ids are in order one way or the other. -/
theorem before_of_not {a b : Entry} (hid : a.id ≠ b.id) (h : ¬ a.before b = true) : b.before a = true := by
  rw [before_iff] at *
  omega

theorem insertEntry_ordered {e : Entry} {q : List Entry} (hq : q.Pairwise fun a b => a.before b = true)
    (hid : ∀ x ∈ q, e.id ≠ x.id) : (insertEntry e q).Pairwise fun a b => a.before b = true := by
  induction q with
  | nil => exact List.pairwise_singleton ..
  | cons x xs ih =>
    obtain ⟨hx, hxs⟩ := List.pairwise_cons.mp hq
    simp only [insertEntry]
    split
    next he =>
      refine List.pairwise_cons.mpr ⟨fun y hy => ?_, hq⟩
      rcases List.mem_cons.mp hy with rfl | hy
      · exact he
      · exact before_trans he (hx y hy)
    next he =>
      refine List.pairwise_cons.mpr ⟨fun y hy => ?_, ih hxs fun y hy => hid y (List.mem_cons_of_mem _ hy)⟩
      rcases List.mem_cons.mp ((insertEntry_perm e xs).subset hy) with rfl | hy
      · exact before_of_not (hid x (List.mem_cons_self ..)) he
      · exact hx y hy

/-- A queue has one extraction order. -/
theorem ordered_perm_eq {q q' : List Entry} (hq : q.Pairwise fun a b => a.before b = true)
    (hq' : q'.Pairwise fun a b => a.before b = true) (h : q.Perm q') : q = q' :=
  h.eq_of_pairwise (fun a b _ _ hab hba => by
    have := before_iff.mp (before_trans hab hba)
    omega) hq hq'

theorem queueInsert_perm {i : NodeId} {q : List NodeId} (h : i ∉ q) : (queueInsert i q).Perm (i :: q) := by
  induction q with
  | nil => rfl
  | cons j js ih =>
    obtain ⟨hij, hjs⟩ := not_or.mp (mt List.mem_cons.mpr h)
    simp only [queueInsert]
    rw [if_neg hij]
    split
    · rfl
    · exact ((ih hjs).cons j).trans (.swap ..)

/-- The head of an entry list in extraction order is what PQ_EXTRACT_MIN takes off the queue. -/
theorem pqExtractMin_head {s : State} {e : Entry} {q : List Entry} (hq : s.pq.Perm ((e :: q).map Entry.node))
    (hord : (e :: q).Pairwise fun a b => a.before b = true) (hold : ∀ x ∈ e :: q, s.arena.HoldsEntry x) :
    ∃ p, pqExtractMin s = .ok e.node { s with pq := p } ∧ p.Perm (q.map Entry.node) := by
  obtain ⟨m, hrun, hm, hleast⟩ := pqExtractMin_least (s := s) fun h => by simp [h] at hq
  obtain ⟨x, hx, rfl⟩ := List.mem_map.mp (hq.mem_iff.mp hm)
  have hxe : x = e := by
    rcases List.mem_cons.mp hx with h | hxq
    · exact h
    · have hb := before_iff.mp ((List.pairwise_cons.mp hord).1 x hxq)
      have hl := precedes_eq_false_iff.mp (hleast e.node (hq.mem_iff.mpr (List.mem_cons_self ..)))
      have he := hold e (List.mem_cons_self ..)
      have hxh := hold x hx
      rw [BitVec.lt_def, ← BitVec.toNat_inj, Fin.le_def, he.weight, hxh.weight, he.id, hxh.id] at hl
      omega
  subst hxe
  refine ⟨_, hrun, ?_⟩
  have := hq.erase x.node
  rwa [List.map_cons, List.erase_cons_head] at this

/-! ### One node more -/

@[simp] theorem Reference.Entry.node_mk (w : Nat) (i : NodeId) (tr : ByteTree) : Entry.node ⟨w, i.val, tr⟩ = i :=
  Fin.ext (Nat.mod_eq_of_lt i.isLt)

/-- From `s` to `t` the next entry of NODE, `i`, has been allocated and written with `r`, and inserted into the queue
`p`. -/
structure NodeAdded (s : State) (p : List NodeId) (i : NodeId) (r : NodeRec) (t : State) : Prop where
  id : i.val = s.arena.nodeCnt.val
  count : t.arena.nodeCnt.val = s.arena.nodeCnt.val + 1
  entry : t.arena.node[i] = r
  kept : ∀ j : NodeId, j.val < s.arena.nodeCnt.val → t.arena.node[j] = s.arena.node[j]
  queue : t.pq = queueInsert i p

/-- A new node over the first trees of a forest (over none of them, for a leaf) gives a forest again. -/
theorem Forest.push {n n' : Nat} {s t : State} {p : List NodeId} {i : NodeId} {r : NodeRec} {tr : ByteTree}
    {taken rest : List Entry} (h : Forest n s (taken ++ rest)) (hadd : NodeAdded s p i r t)
    (hp : p.Perm (rest.map Entry.node)) (htree : t.arena.HoldsIn 0 t.arena.nodeCnt.val i tr)
    (hnodes : t.arena.nodesOf i tr = i :: s.arena.forestNodes taken)
    (hcount : s.arena.nodeCnt.val + rest.length + 2 = 2 * n') (hle : n' ≤ s.arena.nodeCnt.val + 1)
    (hnew : r.leaf = true ↔ i.val < n') (hold : ∀ k, k < s.arena.nodeCnt.val → (k < n ↔ k < n'))
    (hsib : r.leaf = false → t.arena.SiblingsOk i) :
    Forest n' t (insertEntry ⟨r.weight.toNat, i.val, tr⟩ rest) := by
  obtain ⟨hid, hcnt, hentry, hkept, hqueue⟩ := hadd
  have hperm := insertEntry_perm ⟨r.weight.toNat, i.val, tr⟩ rest
  have hrest (x : Entry) (hx : x ∈ rest) : s.arena.HoldsEntry x := h.holds x (List.mem_append_right _ hx)
  have hold_id (x : Entry) (hx : x ∈ rest) : x.id < i.val := by
    rw [← (hrest x hx).id, hid]
    exact (hrest x hx).tree.root_lt
  have hfresh : i ∉ p := fun hi => by
    obtain ⟨x, hx, rfl⟩ := List.mem_map.mp (hp.mem_iff.mp hi)
    exact absurd (hrest x hx).id (hold_id x hx).ne'
  have hforest : (t.arena.forestNodes (insertEntry ⟨r.weight.toNat, i.val, tr⟩ rest)).Perm
      (i :: s.arena.forestNodes (taken ++ rest)) := by
    refine (hperm.flatMap_right _).trans (.of_eq ?_)
    rw [List.flatMap_cons, Entry.node_mk, hnodes, Arena.forestNodes, Arena.forestNodes, List.flatMap_append]
    exact congrArg (i :: _ ++ ·) (Arena.forestNodes_congr hrest hkept)
  have isOld {j : NodeId} (hj : j.val < t.arena.nodeCnt.val) : j = i ∨ j.val < s.arena.nodeCnt.val := by
    rw [Fin.ext_iff]
    omega
  refine ⟨?_, insertEntry_ordered (List.pairwise_append.mp h.ordered).2.1 fun x hx => (hold_id x hx).ne',
    fun x hx => ?_, ?_, fun j => ?_, ?_, by omega, fun j hj => ?_, fun j hj hin => ?_,
    fun _ => ⟨_, hperm.mem_iff.mpr (List.mem_cons_self ..), by rw [hcnt, hid]⟩⟩
  · rw [hqueue]
    refine (queueInsert_perm hfresh).trans (.trans ?_ (hperm.map Entry.node).symm)
    rw [List.map_cons, Entry.node_mk]
    exact hp.cons i
  · rcases List.mem_cons.mp (hperm.mem_iff.mp hx) with rfl | hx
    · exact ⟨by simp, by simp [hentry], by simpa using htree⟩
    · exact (hrest x hx).congr (by omega) hkept
  · refine hforest.nodup_iff.mpr (List.nodup_cons.mpr ⟨fun hi => ?_, h.nodup⟩)
    have := (h.covers i).mp hi
    omega
  · rw [hforest.mem_iff, List.mem_cons, h.covers, Fin.ext_iff]
    omega
  · rw [hperm.length_eq, List.length_cons]
    omega
  · rcases isOld hj with rfl | hj
    · rw [hentry, hnew]
    · rw [hkept j hj, h.leaf j hj, hold j.val hj]
  · rcases isOld hj with rfl | hj
    · exact hsib (hentry ▸ hin)
    · rw [hkept j hj] at hin
      exact (h.siblings j hj hin).congr (by omega) hkept hj

/-- Step 1 of BUILD: a leaf more. -/
theorem Forest.addLeaf {n d : Nat} {s t : State} {q : List Entry} {i : NodeId} {v : Byte} {w : Word}
    (h : Forest n s q) (hq : q.length = n) (hadd : NodeAdded s s.pq i (leafRecord v w d) t) :
    Forest (n + 1) t (insertEntry ⟨w.toNat, i.val, .leaf v⟩ q) := by
  have hcount := h.count
  have hid := hadd.id
  have htree : t.arena.HoldsIn 0 t.arena.nodeCnt.val i (.leaf v) :=
    ⟨Nat.zero_le _, by have := hadd.count; omega, by rw [hadd.entry]; rfl, by rw [hadd.entry]; rfl⟩
  exact h.push (taken := []) hadd h.queue htree rfl (by omega) (by omega) (by simp; omega)
    (fun k hk => by omega) (by simp)

/-- A round of step 3 of BUILD: an internal node over the two first trees. -/
theorem Forest.addInner {n d : Nat} {s t : State} {a b : Entry} {rest : List Entry} {p : List NodeId} {i : NodeId}
    {w : Word} (h : Forest n s (a :: b :: rest)) (hp : p.Perm (rest.map Entry.node))
    (hadd : NodeAdded s p i (innerRecord a.node b.node w d) t) :
    Forest n t (insertEntry ⟨w.toNat, i.val, .node a.tree b.tree⟩ rest) := by
  have hcount := h.count
  have hid := hadd.id
  have hcnt := hadd.count
  have ha := h.holds a (by simp)
  have hb := h.holds b (by simp)
  have hab := before_iff.mp ((List.pairwise_cons.mp h.ordered).1 b (by simp))
  have hleft : t.arena.node[i].left = a.node := by rw [hadd.entry]; rfl
  have hright : t.arena.node[i].right = b.node := by rw [hadd.entry]; rfl
  have hta := ha.congr (b := t.arena) (by omega) hadd.kept
  have htb := hb.congr (b := t.arena) (by omega) hadd.kept
  have htree : t.arena.HoldsIn 0 t.arena.nodeCnt.val i (.node a.tree b.tree) :=
    ⟨Nat.zero_le _, by omega, by rw [hadd.entry]; rfl, hleft ▸ hta.tree, hright ▸ htb.tree⟩
  have hnodes : t.arena.nodesOf i (.node a.tree b.tree) = i :: s.arena.forestNodes [a, b] := by
    rw [Arena.nodesOf, hleft, hright, ha.tree.nodesOf_congr fun j _ => hadd.kept j,
      hb.tree.nodesOf_congr fun j _ => hadd.kept j]
    simp [Arena.forestNodes]
  have hle := h.leaves
  simp only [List.length_cons] at hcount
  refine h.push (taken := [a, b]) hadd hp htree hnodes (by omega) (by omega) ?_ (fun k _ => Iff.rfl) fun _ => ?_
  · simp only [innerRecord_leaf, Bool.false_eq_true, false_iff]
    omega
  · simp only [Arena.SiblingsOk, hleft, hright, BitVec.le_def, hta.weight, htb.weight]
    exact ⟨hta.tree.root_lt, htb.tree.root_lt, by omega⟩

/-! ### The loops of BUILD -/

/-- Allocation while the arena has room. -/
theorem allocate_room {s : State} (full : OpResult NodeId) (h : s.arena.nodeCnt.val < 511) :
    ∃ n : Fin 512, n.val = s.arena.nodeCnt.val + 1 ∧
      allocate full s = .ok ⟨s.arena.nodeCnt.val, h⟩ { s with arena := { s.arena with nodeCnt := n } } := by
  rcases allocate_cases full s with ⟨_, n, hn, e⟩ | ⟨hfull, _⟩
  · exact ⟨n, hn, e⟩
  · omega

/-- Writing an entry that has just been allocated, and its insertion into the queue. -/
theorem NodeAdded.of_set {s t : State} {i : NodeId} {r : NodeRec} (hid : i.val = s.arena.nodeCnt.val)
    (hcnt : t.arena.nodeCnt.val = s.arena.nodeCnt.val + 1) (hnode : t.arena.node = s.arena.node.set i.val r)
    {p : List NodeId} (hpq : t.pq = queueInsert i p) : NodeAdded s p i r t where
  id := hid
  count := hcnt
  entry := by rw [hnode, node_set, if_pos rfl]
  kept j hj := by
    rw [hnode, node_set, if_neg]
    rintro rfl
    omega
  queue := hpq

/-- Step 1 of BUILD at a value that is present: a leaf more. -/
theorem buildLeaves_present {n : Nat} {s : State} {q : List Entry} {v : Byte} (vs : List Byte) (h : Forest n s q)
    (hq : q.length = n) (hn : n < 256) (hv : s.freqAt v ≠ 0) :
    ∃ t, buildLeaves (v :: vs) s = buildLeaves vs t ∧ t.freq = s.freq ∧
      Forest (n + 1) t (insertEntry ⟨(s.freqAt v).toNat, n, .leaf v⟩ q) := by
  have hcount := h.count
  have hcnt : s.arena.nodeCnt.val = n := by omega
  obtain ⟨m, hm, e⟩ := allocate_room (s := s) (.stuck .arenaFull) (by omega)
  let i : NodeId := ⟨s.arena.nodeCnt.val, by omega⟩
  let u : State := { s with arena := { s.arena with nodeCnt := m } }
  have hf := h.addLeaf hq (.of_set (t := pqInsert i (writeLeaf i v (s.freqAt v) u)) rfl hm rfl rfl)
  refine ⟨pqInsert i (writeLeaf i v (s.freqAt v) u), ?_, rfl, hcnt ▸ hf⟩
  rw [buildLeaves, if_neg hv, e]
  rfl

/-- Step 1 of BUILD, from a forest of leaves: the leaves of the values present are the entries of the reference. -/
theorem buildLeaves_forest {d : List Byte} (vs : List Byte) {n : Nat} {s : State} {q : List Entry} (h : Forest n s q)
    (hq : q.length = n) (hd : s.Counts d) (hroom : n + (vs.filter fun v => decide (0 < d.count v)).length ≤ 256) :
    ∃ t q', buildLeaves vs s = .ok () t ∧
      Forest (n + (vs.filter fun v => decide (0 < d.count v)).length) t q' ∧
      q'.Perm (leafEntries d n (vs.filter fun v => decide (0 < d.count v)) ++ q) := by
  induction vs generalizing n s q with
  | nil => exact ⟨s, q, rfl, h, .rfl⟩
  | cons v vs ih =>
    by_cases hv : d.count v = 0
    · have h0 : s.freqAt v = 0 := (hd.freqAt_eq_zero_iff v).mpr hv
      rw [List.filter_cons_of_neg (by simp [hv])] at hroom ⊢
      rw [buildLeaves, if_pos h0]
      exact ih h hq hd hroom
    · have h0 : s.freqAt v ≠ 0 := mt (hd.freqAt_eq_zero_iff v).mp hv
      rw [List.filter_cons_of_pos (by simp [Nat.pos_iff_ne_zero, hv]), List.length_cons] at hroom ⊢
      obtain ⟨s', e, hfreq, hs'⟩ := buildLeaves_present vs h hq (by omega) h0
      have hins := insertEntry_perm ⟨(s.freqAt v).toNat, n, .leaf v⟩ q
      obtain ⟨t, q', e', hf, hperm⟩ := ih hs' (by rw [hins.length_eq, List.length_cons, hq])
        (fun w => by rw [State.freqAt, hfreq]; exact hd w) (by omega)
      refine ⟨t, q', e.trans e', ?_, hperm.trans ((hins.append_left _).trans ?_)⟩
      · rwa [Nat.add_assoc, Nat.add_comm 1] at hf
      · rw [hd v]
        exact List.perm_middle

/-- Every value that FREQ does not count is passed over. -/
theorem buildLeaves_absent {vs : List Byte} {s : State} (h : ∀ v ∈ vs, s.freqAt v = 0) :
    buildLeaves vs s = .ok () s := by
  induction vs with
  | nil => rfl
  | cons v vs ih =>
    obtain ⟨hv, hvs⟩ := List.forall_mem_cons.mp h
    rw [buildLeaves, if_pos hv, ih hvs]

/-- A sum of weights draws at most a free value. -/
theorem addWeight_draws (a b : Word) (s : State) : ∃ d, (addWeight a b s).2 = { s with draws := d } := by
  rcases addWeight_cases a b s with ⟨_, e⟩ | ⟨_, e⟩ <;> rw [e]
  · exact ⟨s.draws, rfl⟩
  · exact ⟨_, rfl⟩

/-- A round of step 3 of BUILD (40_frequency_tree_code.md R104, R106): the two first trees become one, and its weight
is their sum where that fits 32 bits. -/
theorem Forest.mergeOnce {n : Nat} {s : State} {a b : Entry} {rest : List Entry} (h : Forest n s (a :: b :: rest))
    (hn : n ≤ 256) :
    ∃ t w, mergeOnce s = .ok () t ∧ t.arena.nodeCnt.val = s.arena.nodeCnt.val + 1 ∧
      Forest n t (insertEntry ⟨w, s.arena.nodeCnt.val, .node a.tree b.tree⟩ rest) ∧
      (a.weight + b.weight < 2 ^ 32 → w = a.weight + b.weight) := by
  obtain ⟨p, ea, hp⟩ := pqExtractMin_head h.queue h.ordered h.holds
  obtain ⟨p', eb, hp'⟩ := pqExtractMin_head (s := { s with pq := p }) hp (List.pairwise_cons.mp h.ordered).2
    fun x hx => h.holds x (List.mem_cons_of_mem _ hx)
  have hcount := h.count
  simp only [List.length_cons] at hcount
  obtain ⟨m, hm, ei⟩ := allocate_room (s := { s with pq := p' }) (.stuck .arenaFull) (by simp only; omega)
  let i : NodeId := ⟨s.arena.nodeCnt.val, by omega⟩
  let u : State := { s with pq := p', arena := { s.arena with nodeCnt := m } }
  let w := (addWeight u.arena.node[a.node].weight u.arena.node[b.node].weight u).1
  obtain ⟨k, hk⟩ := addWeight_draws u.arena.node[a.node].weight u.arena.node[b.node].weight u
  refine ⟨pqInsert i (writeInner i a.node b.node w { u with draws := k }), w.toNat, ?_, hm, ?_, fun hfit => ?_⟩
  · rw [← hk, Machine.mergeOnce, ea, ok_bind, eb, ok_bind, ei]
    rfl
  · exact h.addInner hp' (.of_set (i := i) rfl hm rfl rfl)
  · have ha := (h.holds a (by simp)).weight
    have hb := (h.holds b (by simp)).weight
    rw [← ha, ← hb] at hfit ⊢
    exact (addWeight_toNat hfit).1

/-- Step 3 of BUILD: one tree is left, over the values of all, and with the sum of all weights it is the tree of the
reference. -/
theorem Forest.mergeLoop {n k : Nat} {s : State} {q : List Entry} (h : Forest n s q) (hn : n ≤ 256) (hne : q ≠ [])
    (hk : q.length ≤ k) :
    ∃ t e, mergeLoop k s = .ok () t ∧ Forest n t [e] ∧
      e.tree.values.Perm (q.flatMap fun x => x.tree.values) ∧
      ((q.map Entry.weight).sum < 2 ^ 32 → e.weight = (q.map Entry.weight).sum ∧
        mergeEntries k s.arena.nodeCnt.val q = some e.tree) := by
  have hlen : s.pq.length = q.length := by simpa using h.queue.length_eq
  induction k generalizing s q with
  | zero => exact absurd (List.length_eq_zero_iff.mp (Nat.le_zero.mp hk)) hne
  | succ k ih =>
    match q with
    | [e] => exact ⟨s, e, if_pos (by simp [hlen]), h, by simp, fun _ => ⟨by simp, rfl⟩⟩
    | a :: b :: rest =>
      obtain ⟨s', w, e, hcnt, hf, hw⟩ := h.mergeOnce hn
      have hins := insertEntry_perm ⟨w, s.arena.nodeCnt.val, .node a.tree b.tree⟩ rest
      obtain ⟨t, x, e', hft, hvals, hsum⟩ := ih hf (fun h0 => by simp [h0] at hins)
        (by rw [hins.length_eq]; simpa using hk) (by simpa using hf.queue.length_eq)
      refine ⟨t, x, ?_, hft, hvals.trans ?_, fun hfit => ?_⟩
      · rw [Machine.mergeLoop, if_neg (by simp [hlen]), e]
        exact e'
      · exact (hins.flatMap_right _).trans (.of_eq (by simp [ByteTree.values]))
      · simp only [List.map_cons, List.sum_cons] at hfit
        have hw := hw (by omega)
        have hsums := (hins.map Entry.weight).sum_eq
        simp only [List.map_cons, List.sum_cons] at hsums
        obtain ⟨hweight, htree⟩ := hsum (by omega)
        subst hw
        rw [hcnt] at htree
        exact ⟨by simp only [List.map_cons, List.sum_cons]; omega, htree⟩

/-! ### BUILD -/

/-- Before BUILD there is no node and no tree. -/
theorem Forest.empty {s : State} (hcnt : s.arena.nodeCnt = 0) (hpq : s.pq = []) : Forest 0 s [] := by
  have h0 : s.arena.nodeCnt.val = 0 := by rw [hcnt]; rfl
  refine ⟨.of_eq hpq, .nil, nofun, .nil, fun j => ?_, h0, h0.ge, fun j hj => ?_, fun j hj => ?_, nofun⟩
  · simp [Arena.forestNodes, h0]
  all_goals omega

/-- ROOT is no part of the forest. -/
theorem Forest.setRoot {n : Nat} {s : State} {q : List Entry} (h : Forest n s q) (r : NodeId) :
    Forest n { s with arena := { s.arena with root := r } } q := by
  have hnodes : Arena.forestNodes { s.arena with root := r } q = s.arena.forestNodes q :=
    Arena.forestNodes_congr h.holds fun _ _ => rfl
  exact ⟨h.queue, h.ordered, fun e he => (h.holds e he).congr le_rfl fun _ _ => rfl, hnodes ▸ h.nodup,
    hnodes ▸ h.covers, h.count, h.leaves, h.leaf, h.siblings, h.latest⟩

theorem foldr_insertEntry_ordered {q : List Entry} (h : (q.map Entry.id).Nodup) :
    (q.foldr insertEntry []).Pairwise fun a b => a.before b = true := by
  induction q with
  | nil => exact .nil
  | cons e q ih =>
    obtain ⟨he, hq⟩ := List.nodup_cons.mp h
    refine insertEntry_ordered (ih hq) fun x hx hid => he (hid ▸ List.mem_map_of_mem ?_)
    exact (foldr_insertEntry_perm q).mem_iff.mp hx

theorem map_id_leafEntries (d : List Byte) (i : Nat) (vs : List Byte) :
    (leafEntries d i vs).map Entry.id = List.range' i vs.length := by
  induction vs generalizing i with
  | nil => rfl
  | cons v vs ih => simp [leafEntries, ih, List.range'_succ]

theorem map_weight_leafEntries (d : List Byte) (i : Nat) (vs : List Byte) :
    (leafEntries d i vs).map Entry.weight = vs.map d.count := by
  induction vs generalizing i with
  | nil => rfl
  | cons v vs ih => simp [leafEntries, ih]

theorem values_leafEntries (d : List Byte) (i : Nat) (vs : List Byte) :
    (leafEntries d i vs).flatMap (fun e => e.tree.values) = vs := by
  induction vs generalizing i with
  | nil => rfl
  | cons v vs ih => simp [leafEntries, ih, ByteTree.values]

/-- The counts of the values present add up to the length. -/
theorem sum_count_present (d : List Byte) : ((present d).map d.count).sum = d.length := by
  simpa using sum_map_present d fun _ => 1

/-- Steps 2 to 4 of BUILD: ROOT is the one tree left. -/
theorem Forest.mergeAll {n : Nat} {s : State} {q : List Entry} (h : Forest n s q) (hn : n ≤ 256) (hne : q ≠ []) :
    ∃ t e, mergeAll s = .ok () t ∧ t.arena.root = e.node ∧ Forest n t [e] ∧
      e.tree.values.Perm (q.flatMap fun x => x.tree.values) ∧
      ((q.map Entry.weight).sum < 2 ^ 32 → e.weight = (q.map Entry.weight).sum ∧
        mergeEntries q.length s.arena.nodeCnt.val q = some e.tree) := by
  have hlen : s.pq.length = q.length := by simpa using h.queue.length_eq
  obtain ⟨t, e, hrun, hf, hrest⟩ := h.mergeLoop hn hne le_rfl
  refine ⟨{ t with arena := { t.arena with root := e.node } }, e, ?_, rfl, hf.setRoot e.node, hrest⟩
  have hpq : t.pq = [e.node] := List.perm_singleton.mp hf.queue
  unfold Machine.mergeAll
  split
  next h0 => exact absurd (List.length_eq_zero_iff.mp (hlen.symm.trans (h0 ▸ rfl))) hne
  next => rw [hlen, hrun, ok_bind, hpq]

/-- BUILD on the counts of an input that is not empty: one tree over the values present, which is that of the reference
where the length fits IN_LEN. -/
theorem buildTree_forest {s : State} {d : List Byte} (hcnt : s.arena.nodeCnt = 0) (hpq : s.pq = []) (hd : s.Counts d)
    (hne : d ≠ []) :
    ∃ t e, buildTree s = .ok () t ∧ t.arena.root = e.node ∧ Forest (present d).length t [e] ∧
      e.tree.values.Perm (present d) ∧
      (d.length < 2 ^ 32 → e.weight = d.length ∧ huffmanTree d = some e.tree) := by
  have hn : (present d).length ≤ 256 := hd.presentValues ▸ length_presentValues_le s
  obtain ⟨u, q, hleaves, hf, hq⟩ := buildLeaves_forest byteValues (Forest.empty hcnt hpq) rfl hd
    ((Nat.zero_add _).trans_le hn)
  replace hf : Forest (present d).length u q := Nat.zero_add (present d).length ▸ hf
  replace hq : q.Perm (leafEntries d 0 (present d)) := hq.trans (.of_eq (List.append_nil _))
  have hlen : q.length = (present d).length := hq.length_eq.trans (length_leafEntries d 0 _)
  have hq0 : q ≠ [] := fun h0 => mt present_eq_nil_iff.mp hne (List.length_eq_zero_iff.mp (by rw [← hlen, h0]; rfl))
  obtain ⟨t, e, hmerge, hroot, ht, hvals, href⟩ := hf.mergeAll hn hq0
  have hsum : (q.map Entry.weight).sum = d.length := by
    rw [(hq.map Entry.weight).sum_eq, map_weight_leafEntries, sum_count_present]
  have hsorted : q = (leafEntries d 0 (present d)).foldr insertEntry [] :=
    ordered_perm_eq hf.ordered (foldr_insertEntry_ordered (by rw [map_id_leafEntries]; exact List.nodup_range'))
      (hq.trans (foldr_insertEntry_perm _).symm)
  refine ⟨t, e, ?_, hroot, ht, hvals.trans ?_, fun hfit => ?_⟩
  · rw [buildTree, hleaves]
    exact hmerge
  · exact (hq.flatMap_right _).trans (.of_eq (values_leafEntries d 0 _))
  · obtain ⟨hw, htree⟩ := href (by rwa [hsum])
    refine ⟨hw.trans hsum, ?_⟩
    have hcount := hf.count
    rw [huffmanTree, ← hsorted, ← htree, length_leafEntries, hlen,
      show u.arena.nodeCnt.val = (present d).length by omega]

/-- The tree of a forest of one tree. -/
theorem Forest.tree {n : Nat} {s : State} {e : Entry} (h : Forest n s [e]) :
    s.arena.tree e.node = some e.tree ∧ s.arena.reached (Config.maxDepth + 1) e.node = s.arena.forestNodes [e] := by
  have he := (h.holds e (List.mem_singleton.mpr rfl)).tree
  have hnodes : s.arena.forestNodes [e] = s.arena.nodesOf e.node e.tree := by simp [Arena.forestNodes]
  have hsize : e.tree.size ≤ 511 := by
    rw [← s.arena.length_nodesOf e.node, ← hnodes]
    simpa using h.nodup.length_le_card
  exact ⟨he.tree hsize, by rw [hnodes, he.reached (Nat.lt_succ_of_le (ByteTree.depth_le_maxDepth hsize))]⟩

/-- What BUILD leaves is a tree in the sense of 10_state.md R36. -/
theorem Forest.isTree {n : Nat} {s : State} {e : Entry} (h : Forest n s [e]) : s.arena.IsTree e.node := by
  obtain ⟨htree, hreached⟩ := h.tree
  refine ⟨htree ▸ rfl, ?_, fun j => ?_⟩ <;> rw [hreached]
  · exact h.nodup
  · exact h.covers j

/-- BUILD on the counts of an input that is not empty answers a next state. -/
theorem exec_build {s : State} {d : List Byte} (hcnt : s.arena.nodeCnt = 0) (hpq : s.pq = []) (hd : s.Counts d)
    (hne : d ≠ []) :
    ∃ t e, exec .build s = .next { t with result := .nothing } ∧ BuildOnly s t ∧ t.arena.root = e.node ∧
      Forest (present d).length t [e] ∧ e.tree.values.Perm (present d) ∧
      (d.length < 2 ^ 32 → e.weight = d.length ∧ huffmanTree d = some e.tree) := by
  obtain ⟨t, e, hrun, hrest⟩ := buildTree_forest hcnt hpq hd hne
  have hframe := buildTree_frame s
  rw [hrun] at hframe
  exact ⟨t, e, finish_eq_next.mpr (.inl ⟨(), t, hrun, rfl⟩), hframe, hrest⟩

/-- Settles O22: BUILD and the reference take their rounds together; the siblings are in order by the invariant of the
forest. -/
theorem buildIsHuffman : Obligations.BuildIsHuffman := by
  unfold Obligations.BuildIsHuffman
  intro s d hcnt hpq hne hlen hd
  obtain ⟨t, e, hrun, -, hroot, hf, -, href⟩ := exec_build hcnt hpq hd hne
  obtain ⟨hweight, htree⟩ := href hlen
  refine ⟨_, hrun, ?_, ?_, fun i hi hin => ?_⟩ <;> simp only [hroot]
  · rw [hf.tree.1, htree]
  · rw [(hf.holds e (List.mem_singleton.mpr rfl)).weight, hweight]
  · obtain ⟨-, -, hw⟩ := hf.siblings i hi hin
    exact hw

/-- Settles O21: the forest's invariant, when one tree is left. -/
theorem buildShape : Obligations.BuildShape := by
  unfold Obligations.BuildShape
  intro s hcnt hpq hne n
  obtain ⟨d, hd⟩ := exists_counts s
  have hpres := hd.presentValues
  obtain ⟨t, e, hrun, hframe, hroot, hf, hvals, -⟩ := exec_build hcnt hpq hd fun h0 =>
    hne (hpres.trans (present_eq_nil_iff.mpr h0))
  rw [← hpres] at hf hvals
  have hcount := hf.count
  have hn : n ≤ 256 := length_presentValues_le s
  have hleaves : e.tree.leaves = n := by rw [← ByteTree.length_values, hvals.length_eq]
  have hdepth := e.tree.depth_lt_leaves
  obtain ⟨x, hx, hlast⟩ := hf.latest nofun
  obtain rfl := List.mem_singleton.mp hx
  have hid := (hf.holds x hx).id
  simp only [List.length_singleton] at hcount
  refine ⟨_, x.tree, hrun, ⟨t.arena, t.pq, t.draws, by rw [hframe]⟩, ?_, ?_, ?_, hvals, ?_, ?_, ?_, fun i hi => ?_⟩
  · change t.arena.nodeCnt.val = _
    omega
  · change t.arena.root.val = _
    rw [hroot]
    omega
  · exact hroot ▸ hf.tree.1
  · omega
  · omega
  · exact hroot ▸ hf.isTree
  · exact hf.leaf i (by omega)

end Sys2Proof.Machine
end

section
/-! PROOFS. DERIVE (40_frequency_tree_code.md R111 to R115): the codes are paths from the root to the leaves (O23), and
no code of one tree begins another (O24). -/

namespace Sys2Proof.Machine

open OpResult

/-- `treeOf` looks no deeper than it is told to. -/
theorem Arena.depth_lt_of_treeOf {a : Arena} {levels : Nat} {i : NodeId} {tr : ByteTree}
    (h : a.treeOf levels i = some tr) : tr.depth < levels := by
  induction levels generalizing i tr with
  | zero => cases h
  | succ levels ih =>
    rw [Arena.treeOf] at h
    split at h
    · cases h
      exact Nat.succ_pos _
    · split at h <;> cases h
      next hl hr =>
        have := ih hl
        have := ih hr
        simp only [ByteTree.depth]
        omega

/-- VISIT at a leaf. -/
theorem visit_leaf {levels : Nat} {s : State} {i : NodeId} (path : Bits) (h : s.arena.node[i].leaf = true) :
    visit (levels + 1) i path s = .ok () (setCode s.arena.node[i].value path s) := if_pos h

/-- VISIT at an internal node. -/
theorem visit_node {levels : Nat} {s : State} {i : NodeId} (path : Bits) (h : ¬ s.arena.node[i].leaf = true) :
    visit (levels + 1) i path s = (visit levels s.arena.node[i].left (path ++ [false]) s).bind fun _ t =>
      visit levels s.arena.node[i].right (path ++ [true]) t := if_neg h

/-- From `s` to `t`, CODE alone has changed: each value of the tree has the path to one of its leaves, after `path`. -/
structure CodesSet (tr : ByteTree) (path : Bits) (s t : State) : Prop where
  frame : CodeOnly s t
  codes : ∀ v ∈ tr.values, ∃ p, t.codeAt v = path ++ p ∧ tr.follow p = some (v, []) ∧ p.length ≤ tr.depth
  kept : ∀ v, v ∉ tr.values → t.codeAt v = s.codeAt v

theorem CodesSet.leaf (v : Byte) (path : Bits) (s : State) : CodesSet (.leaf v) path s (setCode v path s) where
  frame := rfl
  codes w hw := by
    obtain rfl := List.mem_singleton.mp hw
    exact ⟨[], by simp [codeAt_setCode], rfl, Nat.zero_le _⟩
  kept w hw := by
    rw [codeAt_setCode, if_neg fun h => hw (List.mem_singleton.mpr h.symm)]

/-- The right subtree is visited last, so its path stands for a value of both. -/
theorem CodesSet.node {l r : ByteTree} {path : Bits} {s t u : State} (hl : CodesSet l (path ++ [false]) s t)
    (hr : CodesSet r (path ++ [true]) t u) : CodesSet (.node l r) path s u where
  frame := hl.frame.trans hr.frame
  codes v hv := by
    by_cases hvr : v ∈ r.values
    · obtain ⟨p, hcode, hp, hlen⟩ := hr.codes v hvr
      refine ⟨true :: p, by rw [hcode, List.append_assoc]; rfl, hp, ?_⟩
      simp only [List.length_cons, ByteTree.depth]
      omega
    · obtain ⟨p, hcode, hp, hlen⟩ := hl.codes v ((List.mem_append.mp hv).resolve_right hvr)
      refine ⟨false :: p, by rw [hr.kept v hvr, hcode, List.append_assoc]; rfl, hp, ?_⟩
      simp only [List.length_cons, ByteTree.depth]
      omega
  kept v hv := by
    obtain ⟨hvl, hvr⟩ := not_or.mp (mt List.mem_append.mpr hv)
    rw [hr.kept v hvr, hl.kept v hvl]

/-- VISIT over a tree records its paths. -/
theorem visit_codesSet {levels : Nat} {i : NodeId} {tr : ByteTree} {s : State} (path : Bits)
    (h : s.arena.treeOf levels i = some tr) : ∃ t, visit levels i path s = .ok () t ∧ CodesSet tr path s t := by
  induction levels generalizing i tr s path with
  | zero => cases h
  | succ levels ih =>
    rw [Arena.treeOf] at h
    split at h
    next hleaf =>
      cases h
      exact ⟨_, visit_leaf path hleaf, .leaf _ path s⟩
    next hinner =>
      split at h <;> cases h
      next l r hl hr =>
        obtain ⟨t, et, ht⟩ := ih (path ++ [false]) hl
        have harena : t.arena = s.arena := by rw [ht.frame]
        obtain ⟨u, eu, hu⟩ := ih (i := s.arena.node[i].right) (s := t) (path ++ [true])
          (by rw [harena, hr])
        exact ⟨u, by rw [visit_node path hinner, et, ok_bind, eu], ht.node hu⟩

/-- What DERIVE gives the values of the tree below ROOT (40_frequency_tree_code.md R111, R112, R115). -/
structure Derived (tr : ByteTree) (s t : State) : Prop where
  frame : CodeOnly s t
  codes : ∀ v ∈ tr.values, tr.readCode (t.codeAt v) = some (v, []) ∧ 1 ≤ (t.codeAt v).length ∧
    (t.codeAt v).length ≤ 255
  kept : ∀ v, v ∉ tr.values → t.codeAt v = s.codeAt v
  single : ∀ v, tr = .leaf v → t.codeAt v = [false]

/-- DERIVE at a root that is a leaf. -/
theorem Derived.leaf (v : Byte) (s : State) : Derived (.leaf v) s (setCode v [false] s) where
  frame := rfl
  codes w hw := by
    obtain rfl := List.mem_singleton.mp hw
    simp [codeAt_setCode, ByteTree.readCode]
  kept := (CodesSet.leaf v [false] s).kept
  single w hw := by
    cases hw
    simp [codeAt_setCode]

/-- DERIVE at an internal root: no path to a leaf is empty. -/
theorem Derived.node {l r : ByteTree} {s t : State} (h : CodesSet (.node l r) [] s t)
    (hd : (ByteTree.node l r).depth ≤ 255) : Derived (.node l r) s t where
  frame := h.frame
  codes v hv := by
    obtain ⟨p, hcode, hp, hlen⟩ := h.codes v hv
    rw [hcode, List.nil_append]
    refine ⟨hp, List.length_pos_iff.mpr ?_, hlen.trans hd⟩
    rintro rfl
    cases hp
  kept := h.kept
  single := nofun

/-- DERIVE of a tree answers a next state. -/
theorem exec_derive {s : State} {tr : ByteTree} (h : s.arena.tree s.arena.root = some tr) :
    ∃ t, exec .derive s = .next { t with result := .nothing } ∧ Derived tr s t := by
  have hfinish {t : State} (e : deriveCodes s = .ok () t) : exec .derive s = .next { t with result := .nothing } :=
    finish_eq_next.mpr (.inl ⟨(), t, e, rfl⟩)
  have hdepth := Arena.depth_lt_of_treeOf h
  by_cases hleaf : s.arena.node[s.arena.root].leaf = true
  · have htr : tr = .leaf s.arena.node[s.arena.root].value := by
      rw [Arena.tree, Arena.treeOf, if_pos hleaf] at h
      exact (Option.some.inj h).symm
    rw [htr]
    exact ⟨_, hfinish (if_pos hleaf), .leaf _ s⟩
  · obtain ⟨t, e, ht⟩ := visit_codesSet [] h
    refine ⟨t, hfinish ((if_neg hleaf).trans e), ?_⟩
    cases tr with
    | leaf v =>
      rw [Arena.tree, Arena.treeOf, if_neg hleaf] at h
      split at h <;> cases h
    | node l r => exact .node ht (Nat.le_of_lt_succ hdepth)

/-- Settles O23: VISIT records the path to each leaf. -/
theorem deriveGivesPaths : Obligations.DeriveGivesPaths := by
  unfold Obligations.DeriveGivesPaths
  intro s tr h
  obtain ⟨t, e, ht⟩ := exec_derive h
  exact ⟨_, t.code, e, by rw [ht.frame], ht.codes, ht.kept, ht.single⟩

/-- Of two codes of one tree neither begins the other (40_frequency_tree_code.md R114). -/
theorem not_isPrefix_of_readCode {tr : ByteTree} {v w : Byte} {c c' : Bits} (hv : tr.readCode c = some (v, []))
    (hw : tr.readCode c' = some (w, [])) (hne : v ≠ w) : ¬ c <+: c' := by
  rintro ⟨x, rfl⟩
  rw [ByteTree.readCode_append x hv] at hw
  cases hw
  exact hne rfl

/-- Settles O24: BUILD's tree has a leaf for each value present and no other, and DERIVE gives each a path of that
tree. -/
theorem codesArePrefixFree : Obligations.CodesArePrefixFree := by
  unfold Obligations.CodesArePrefixFree
  intro s hcnt hpq hne hempty
  obtain ⟨t, tr, hbuild, ⟨a, q, d, hframe⟩, -, -, htree, hvals, -⟩ := buildShape s hcnt hpq hne
  obtain ⟨u, hderive, hu⟩ := exec_derive htree
  have hcode (v : Byte) : 0 < (u.codeAt v).length ↔ v ∈ tr.values := by
    refine ⟨fun h => by_contra fun hv => ?_, fun h => (hu.codes v h).2.1⟩
    have h0 : u.codeAt v = [] := by
      rw [hu.kept v hv, hframe]
      exact hempty v
    simp [h0] at h
  refine ⟨t, _, hbuild, hderive, fun v w hvw hv hw => ?_, fun v => ?_⟩
  · obtain ⟨hv, -⟩ := hu.codes v ((hcode v).mp hv)
    obtain ⟨hw, -⟩ := hu.codes w ((hcode w).mp hw)
    exact not_isPrefix_of_readCode hv hw hvw
  · exact (hcode v).trans (hvals.mem_iff.trans mem_presentValues)

end Sys2Proof.Machine
end

section
/-! PROOFS. EMPTY_INPUT (40_frequency_tree_code.md R108): BUILD raises it on an all-zero FREQ, and no ENCODE comes to
that (O16), by an invariant of the run of an ENCODE with a silent host. -/

namespace Sys2Proof.Machine

open OpResult Reference

/-! ### The errors an operation can raise -/

/-- The operation raises no error but one of `ks`. -/
def OpResult.RaisesOnly {α : Type} (ks : List ErrorKind) : OpResult α → Prop
  | .raised k _ => k ∈ ks
  | _ => True

theorem OpResult.RaisesOnly.bind {α β : Type} {ks : List ErrorKind} {x : OpResult α} {f : α → State → OpResult β}
    (h : x.RaisesOnly ks) (hf : ∀ a t, (f a t).RaisesOnly ks) : (x.bind f).RaisesOnly ks := by
  cases x with
  | ok a t => exact hf a t
  | raised k t => exact h
  | stuck f => trivial
  | refused r => trivial

theorem visit_raisesOnly (levels : Nat) (i : NodeId) (path : Bits) (s : State) :
    (visit levels i path s).RaisesOnly [] := by
  induction levels generalizing i path s with
  | zero => trivial
  | succ levels ih =>
    unfold visit
    split
    · trivial
    · exact (ih _ _ s).bind fun _ t => ih _ _ t

/-- DERIVE raises no error (40_frequency_tree_code.md R113). -/
theorem deriveCodes_raisesOnly (s : State) : (deriveCodes s).RaisesOnly [] := by
  unfold deriveCodes
  split
  · trivial
  · exact visit_raisesOnly _ _ _ s

theorem writeBit_raisesOnly (b : Bool) (s : State) : (writeBit b s).RaisesOnly [.outputOverflow] := by
  rcases writeBit_cases b s with ⟨_, e⟩ | ⟨_, n, _, e⟩ | ⟨_, _, _, e⟩ | ⟨_, _, _, e⟩ <;> rw [e]
  · trivial
  · trivial
  · trivial
  · exact List.mem_singleton.mpr rfl

theorem writeBits_raisesOnly (bs : Bits) (s : State) : (writeBits bs s).RaisesOnly [.outputOverflow] := by
  induction bs generalizing s with
  | nil => trivial
  | cons b bs ih => exact (writeBit_raisesOnly b s).bind fun _ t => ih t

theorem writeTreeLevels_raisesOnly (levels : Nat) (i : NodeId) (s : State) :
    (writeTreeLevels levels i s).RaisesOnly [.outputOverflow] := by
  induction levels generalizing i s with
  | zero => trivial
  | succ levels ih =>
    unfold writeTreeLevels
    split
    · exact (writeBit_raisesOnly _ s).bind fun _ t => writeBits_raisesOnly _ t
    · exact (writeBit_raisesOnly _ s).bind fun _ t => (ih _ t).bind fun _ u => ih _ u

theorem flush_raisesOnly (s : State) : (flush s).RaisesOnly [.outputOverflow] := by
  rcases flush_cases s with ⟨_, e⟩ | ⟨_, _, e⟩ | ⟨_, _, _, e⟩ | ⟨_, _, _, e⟩ <;> rw [e]
  · trivial
  · trivial
  · trivial
  · exact List.mem_singleton.mpr rfl

/-! ### The later phases of an ENCODE -/

/-- The phases of an ENCODE after BUILD, and NONE after its completion (43_encode.md R164). -/
def Phase.afterBuild : Phase → Bool
  | .none => true
  | .eDerive => true
  | .eLen => true
  | .eTree => true
  | .ePayload => true
  | .eFlush => true
  | _ => false

/-- An ENCODE past BUILD, or completed, with a silent host: it has not failed with EMPTY_INPUT. -/
structure EncodeLate (s : State) : Prop where
  silent : s.Silent
  err : s.regs.err ≠ 1
  phase : s.phase.afterBuild = true

theorem EncodeLate.setPhase {s : State} (h : EncodeLate s) {p : Phase} (hp : p.afterBuild = true) :
    EncodeLate (setPhase p s) := ⟨h.silent, h.err, hp⟩

theorem EncodeLate.of_writerOnly {s t : State} (h : EncodeLate s) (ht : WriterOnly s t) : EncodeLate t := by
  rw [ht]
  exact ⟨h.silent, h.err, h.phase⟩

theorem EncodeLate.of_codeOnly {s t : State} (h : EncodeLate s) (ht : CodeOnly s t) : EncodeLate t := by
  rw [ht]
  exact ⟨h.silent, h.err, h.phase⟩

/-- Completion with an error other than EMPTY_INPUT. -/
theorem EncodeLate.completeWithError {s : State} (h : EncodeLate s) {k : ErrorKind} (hk : k ≠ .emptyInput) :
    EncodeLate (completeWithError k s) := by
  refine ⟨h.silent, ?_, rfl⟩
  change k.errCode ≠ 1
  cases k with
  | emptyInput => exact absurd rfl hk
  | _ => decide

theorem EncodeLate.completeEncode {s : State} (h : EncodeLate s) : EncodeLate (completeEncode s) :=
  ⟨h.silent, (by decide : (0 : BitVec 4) ≠ 1), rfl⟩

theorem EncodeLate.finish {α : Type} {x : OpResult α} {r : α → UopResult} {t : State} {ks : List ErrorKind}
    (hx : x.Ends EncodeLate) (hr : x.RaisesOnly ks) (hks : .emptyInput ∉ ks) (e : x.finish r = .next t) :
    EncodeLate t := by
  rcases finish_eq_next.mp e with ⟨a, u, rfl, rfl⟩ | ⟨k, u, rfl, rfl⟩
  · exact ⟨hx.silent, hx.err, hx.phase⟩
  · exact hx.completeWithError fun hk => hks (hk ▸ hr)

/-- The operations that the later phases of an ENCODE call. -/
def Instr.encodesLate : Instr → Bool
  | .derive => true
  | .writeBits _ => true
  | .writeTree _ => true
  | .flush => true
  | _ => false

theorem EncodeLate.exec {i : Instr} (hi : Instr.encodesLate i = true) {s t : State} (h : EncodeLate s)
    (e : exec i s = .next t) : EncodeLate t := by
  cases i with
  | derive =>
    exact .finish ((deriveCodes_frame s).mono fun _ => h.of_codeOnly) (deriveCodes_raisesOnly s) (by decide) e
  | writeBits bs =>
    exact .finish ((writeBits_frame bs s).mono fun _ => h.of_writerOnly) (writeBits_raisesOnly bs s) (by decide) e
  | writeTree j =>
    exact .finish ((writeTreeLevels_frame _ j s).mono fun _ => h.of_writerOnly) (writeTreeLevels_raisesOnly _ j s)
      (by decide) e
  | flush => exact .finish ((flush_frame s).mono fun _ => h.of_writerOnly) (flush_raisesOnly s) (by decide) e
  | _ => cases hi

/-- A phase that runs one of these operations and goes on. -/
theorem EncodeLate.andThen {i : Instr} (hi : Instr.encodesLate i = true) {s t : State} (h : EncodeLate s)
    {f : State → Host.Outcome State Fault Refusal} (hf : ∀ u v, EncodeLate u → f u = .next v → EncodeLate v)
    (e : andThen (Machine.exec i s) f = .next t) : EncodeLate t := by
  obtain ⟨u, hu, ⟨-, rfl⟩ | ⟨-, hv⟩⟩ := andThen_next_cases e
  · exact h.exec hi hu
  · exact hf u t (h.exec hi hu) hv

theorem EncodeLate.thenPhase {i : Instr} (hi : Instr.encodesLate i = true) {p : Phase} (hp : p.afterBuild = true)
    {s t : State} (h : EncodeLate s) (e : thenPhase (Machine.exec i s) p = .next t) : EncodeLate t :=
  h.andThen hi (fun u v hu hv => by cases hv; exact hu.setPhase hp) e

/-- E_PAYLOAD: a byte without a code is INVARIANT, and the writer raises OUTPUT_OVERFLOW alone. -/
theorem EncodeLate.phaseEPayload {s t : State} (h : EncodeLate s) (e : phaseEPayload s = .next t) : EncodeLate t := by
  unfold Machine.phaseEPayload at e
  split at e
  · rcases readIbuf_cases s.eidx s with ⟨_, er⟩ | ⟨_, er⟩ <;> rw [er] at e
    · simp only at e
      split at e
      · cases e
        exact h.completeWithError (by decide)
      · exact h.andThen rfl (fun u v hu hv => by cases hv; exact ⟨hu.silent, hu.err, hu.phase⟩) e
    · cases e
  · cases e
    exact h.setPhase rfl

theorem EncodeLate.engineTurn {s t : State} (h : EncodeLate s) (e : engineTurn s = .next t) : EncodeLate t := by
  have hp := h.phase
  unfold Machine.engineTurn at e
  cases hs : s.phase <;> simp only [hs] at e hp
  case none => cases e; exact h
  case eDerive => exact h.thenPhase rfl rfl e
  case eLen => exact h.thenPhase rfl (by split <;> rfl) e
  case eTree => exact h.andThen rfl (fun u v hu hv => by cases hv; exact ⟨hu.silent, hu.err, rfl⟩) e
  case ePayload => exact h.phaseEPayload e
  case eFlush => exact h.andThen rfl (fun u v hu hv => by cases hv; exact hu.completeEncode) e
  all_goals cases hp

/-! ### The run of an ENCODE -/

/-- Where an ENCODE stands, the host silent. Before COUNT no byte is counted and no node is allocated; COUNT and BUILD
are entered with an input that is not empty (43_encode.md R162 to R164). -/
inductive EncodeRun (s : State) : Prop
  | check (hp : s.phase = .eCheck) (hs : s.Silent) (herr : s.regs.err = 0) (hcnt : s.arena.nodeCnt = 0)
      (hpq : s.pq = []) (h0 : ∀ v, s.freqAt v = 0)
  | count (hp : s.phase = .eCount) (hs : s.Silent) (herr : s.regs.err = 0) (hcnt : s.arena.nodeCnt = 0)
      (hpq : s.pq = []) (h0 : ∀ v, s.freqAt v = 0) (hne : s.input ≠ [])
      (hcap : s.regs.inLen.toNat ≤ s.params.ibufCap)
  | build (hp : s.phase = .eBuild) (hs : s.Silent) (herr : s.regs.err = 0) (hcnt : s.arena.nodeCnt = 0)
      (hpq : s.pq = []) (hne : s.input ≠ []) (hd : s.Counts s.input)
  | late (h : EncodeLate s)

theorem EncodeRun.silent {s : State} (h : EncodeRun s) : s.Silent := by
  cases h with
  | check _ hs => exact hs
  | count _ hs => exact hs
  | build _ hs => exact hs
  | late h => exact h.silent

theorem EncodeRun.err_ne_one {s : State} (h : EncodeRun s) : s.regs.err ≠ 1 := by
  cases h with
  | check _ _ herr => rw [herr]; decide
  | count _ _ herr => rw [herr]; decide
  | build _ _ herr => rw [herr]; decide
  | late h => exact h.err

theorem EncodeRun.start {s : State} (hb : s.regs.runState ≠ .busy) (hs : s.Silent) :
    EncodeRun (startCommand .eCheck s) := by
  rcases startCommand_cases .eCheck s with ⟨hb', _⟩ | ⟨_, e⟩
  · exact absurd hb' hb
  · rw [e]
    exact .check rfl hs rfl rfl rfl fun v => by simp [State.freqAt]

/-- E_CHECK: an input too long is BAD_LENGTH, an empty one goes past COUNT and BUILD. -/
theorem EncodeRun.phaseECheck {s t : State} (hs : s.Silent) (herr : s.regs.err = 0) (hcnt : s.arena.nodeCnt = 0)
    (hpq : s.pq = []) (h0 : ∀ v, s.freqAt v = 0) (e : phaseECheck s = .next t) : EncodeRun t := by
  have herr' : s.regs.err ≠ 1 := by rw [herr]; decide
  unfold Machine.phaseECheck at e
  split at e
  · cases e
    exact .late ⟨hs, (by decide : ErrorKind.badLength.errCode ≠ 1), rfl⟩
  next hcap =>
    split at e <;> cases e
    · exact .late ⟨hs, herr', rfl⟩
    next hlen =>
      exact .count rfl hs herr hcnt hpq h0 (mt (input_eq_nil_iff s).mp hlen) (Nat.le_of_not_lt hcap)

/-- E_COUNT leaves the counts of the input to BUILD. -/
theorem EncodeRun.countPhase {s t : State} (hp : s.phase = .eCount) (hs : s.Silent) (herr : s.regs.err = 0)
    (hcnt : s.arena.nodeCnt = 0) (hpq : s.pq = []) (h0 : ∀ v, s.freqAt v = 0) (hne : s.input ≠ [])
    (hcap : s.regs.inLen.toNat ≤ s.params.ibufCap) (e : thenPhase (exec .count s) .eBuild = .next t) :
    EncodeRun t := by
  obtain ⟨f, k, hrun, hd⟩ := countBytes_counts hcap h0
  have hexec : exec .count s = .next { s with freq := f, eidx := k, result := .nothing } :=
    finish_eq_next.mpr (.inl ⟨(), _, hrun, rfl⟩)
  rw [hexec] at e
  obtain ⟨u, hu, ⟨hn, -⟩ | ⟨-, ht⟩⟩ := andThen_next_cases e <;> cases hu
  · exact absurd (hp.symm.trans hn) (by decide)
  · cases ht
    exact .build rfl hs herr hcnt hpq hne hd

/-- E_BUILD finds a byte value that is counted, so BUILD returns. -/
theorem EncodeRun.buildPhase {s t : State} (hp : s.phase = .eBuild) (hs : s.Silent) (herr : s.regs.err = 0)
    (hcnt : s.arena.nodeCnt = 0) (hpq : s.pq = []) (hne : s.input ≠ []) (hd : s.Counts s.input)
    (e : thenPhase (exec .build s) .eDerive = .next t) : EncodeRun t := by
  obtain ⟨b, _, hexec, hframe, -⟩ := exec_build hcnt hpq hd hne
  rw [hexec, hframe] at e
  obtain ⟨u, hu, ⟨hn, -⟩ | ⟨-, ht⟩⟩ := andThen_next_cases e <;> cases hu
  · exact absurd (hp.symm.trans hn) (by decide)
  · cases ht
    exact .late ⟨hs, (by rw [herr]; decide : s.regs.err ≠ 1), rfl⟩

theorem EncodeRun.step {s t : State} (h : EncodeRun s) (e : step s = .next t) : EncodeRun t := by
  rw [Machine.step, h.silent] at e
  cases h with
  | check hp hs herr hcnt hpq h0 =>
    rw [engineTurn, hp] at e
    exact .phaseECheck hs herr hcnt hpq h0 e
  | count hp hs herr hcnt hpq h0 hne hcap =>
    rw [engineTurn, hp] at e
    exact .countPhase hp hs herr hcnt hpq h0 hne hcap e
  | build hp hs herr hcnt hpq hne hd =>
    rw [engineTurn, hp] at e
    exact .buildPhase hp hs herr hcnt hpq hne hd e
  | late h => exact .late (h.engineTurn e)

/-- What every step keeps holds at the end of a run. -/
theorem runSteps_keeps {P : State → Prop} (hstep : ∀ s t, P s → step s = .next t → P t) {k : Nat} {s t : State}
    (hs : P s) (e : runSteps k s = .next t) : P t := by
  induction k generalizing s with
  | zero => cases e; exact hs
  | succ k ih =>
    unfold runSteps at e
    split at e
    next u hu => exact ih (hstep s u hs hu) e
    next => cases e
    next => cases e

/-- BUILD of nothing (40_frequency_tree_code.md R108). -/
theorem buildTree_nothing {s : State} (hpq : s.pq = []) (h0 : ∀ v, s.freqAt v = 0) :
    buildTree s = .raised .emptyInput s := by
  rw [buildTree, buildLeaves_absent fun v _ => h0 v, ok_bind, mergeAll, hpq]

/-- Settles O16: without leaves the queue is empty; an ENCODE with an empty input goes past BUILD, and after it only the
writer raises errors. -/
theorem buildOfNothingIsEmptyInput : Obligations.BuildOfNothingIsEmptyInput := by
  unfold Obligations.BuildOfNothingIsEmptyInput
  refine ⟨fun s hpq h0 => ⟨_, ?_, failedWith_self .emptyInput s⟩, fun s _ hb hs s₀ k t he hrun => ?_⟩
  · exact finish_eq_next.mpr (.inr ⟨_, s, buildTree_nothing hpq h0, rfl⟩)
  · cases he
    exact (runSteps_keeps (fun _ _ => EncodeRun.step) (EncodeRun.start hb hs) hrun).err_ne_one

end Sys2Proof.Machine
end

section
/-! PROOFS. The bit streams (41_bitstream.md): what WRITE_BIT and WRITE_BITS append (O25) and where they overflow (O26),
what FLUSH does (O27), what a whole session produces (O28), and what READ_BIT and READ_BITS take (O31). -/

namespace Sys2Proof

/-! ### Bits of a byte -/

theorem getElem_bitsOf (n v : Nat) {i : Nat} (h : i < (bitsOf n v).length) :
    (bitsOf n v)[i] = v.testBit (n - 1 - i) := by
  induction n generalizing i with
  | zero => simp at h
  | succ n ih =>
    cases i with
    | zero => rfl
    | succ i => simp only [bitsOf, List.getElem_cons_succ, ih]; congr 1; omega

/-- Where the low bits are zero the sequence ends in zeros. -/
theorem bitsOf_eq_take_append_zeros {n v k : Nat} (hk : k ≤ n) (h : ∀ j, j < n - k → v.testBit j = false) :
    bitsOf n v = (bitsOf n v).take k ++ zeros (n - k) := by
  have hlow : (bitsOf n v).drop k = zeros (n - k) := by
    refine List.eq_replicate_iff.mpr ⟨by simp, fun b hb => ?_⟩
    obtain ⟨i, hi, rfl⟩ := List.mem_iff_getElem.mp hb
    simp only [List.length_drop, length_bitsOf] at hi
    rw [List.getElem_drop, getElem_bitsOf]
    exact h _ (by omega)
  rw [← hlow, List.take_append_drop]

end Sys2Proof

namespace Sys2Proof.Machine

open OpResult

/-! ### The accumulator -/

/-- Placing a bit at bit `7 - k` sets that bit and no other. -/
theorem getLsbD_placeBit_eq (acc : Byte) {j k : Nat} (b : Bool) (hj : j < 8) :
    (placeBit acc k b).getLsbD j = if j = 7 - k then b else acc.getLsbD j := by
  have hm : (BitVec.ofNat 8 (2 ^ (7 - k))).getLsbD j = decide (j = 7 - k) := by
    rw [BitVec.getLsbD_ofNat, Nat.testBit_two_pow, decide_eq_true hj, Bool.true_and]
    exact decide_eq_decide.mpr eq_comm
  unfold placeBit
  generalize BitVec.ofNat 8 (2 ^ (7 - k)) = m at hm ⊢
  by_cases h : j = 7 - k
  · have hset := hm.trans (decide_eq_true h)
    rw [if_pos h]
    cases b <;> simp [hset, -BitVec.getLsbD_eq_getElem]
  · have hclear := hm.trans (decide_eq_false h)
    rw [if_neg h]
    cases b <;> simp [hclear, hj, -BitVec.getLsbD_eq_getElem]

/-- The bits written so far, and then the one placed. -/
theorem take_bitsOf_placeBit (acc : Byte) {k : Nat} (b : Bool) (hk : k < 8) :
    (bitsOf 8 (placeBit acc k b).toNat).take (k + 1) = (bitsOf 8 acc.toNat).take k ++ [b] := by
  refine List.ext_getElem (by simp; omega) fun i hi _ => ?_
  have hik : i ≤ k := by simp at hi; omega
  rw [List.getElem_take, getElem_bitsOf, BitVec.testBit_toNat, getLsbD_placeBit_eq _ _ (by omega), List.getElem_append]
  simp only [List.length_take, length_bitsOf, List.getElem_take, getElem_bitsOf, BitVec.testBit_toNat]
  by_cases h : i = k
  · simp [h]
  · rw [if_neg (by omega), dif_pos (by omega)]

/-- The bits of WACC not written yet are zero (41_bitstream.md R120, R123). -/
def Writer.RestZero (w : Writer) : Prop := ∀ k, k < 8 - w.wcnt.val → w.wacc.getLsbD k = false

/-- A partial byte is its bits and zeros (41_bitstream.md R123). -/
theorem Writer.RestZero.bitsOf_wacc {w : Writer} (h : w.RestZero) :
    bitsOf 8 w.wacc.toNat = (bitsOf 8 w.wacc.toNat).take w.wcnt.val ++ zeros (8 - w.wcnt.val) :=
  bitsOf_eq_take_append_zeros (by omega) h

/-! ### The output -/

section Output

variable (s : State)

theorem output_succ (n : Nat) : s.output (n + 1) = s.output n ++ [s.obufByte n] := by
  simp [State.output, List.range_succ]

variable {s} in
theorem output_congr {t : State} {n : Nat} (h : ∀ a, a < n → t.obufByte a = s.obufByte a) : t.output n = s.output n :=
  List.map_congr_left fun a ha => h a (List.mem_range.mp ha)

/-- EMIT appends a byte to the output. -/
theorem output_emitted (v : Byte) (w : Writer) :
    State.output { s with obuf := s.obuf.write s.writer.wptr v, writer := w } (s.writer.wptr + 1) =
      s.output s.writer.wptr ++ [v] := by
  have byte (a : Nat) : State.obufByte { s with obuf := s.obuf.write s.writer.wptr v, writer := w } a =
      if a = s.writer.wptr then v else s.obufByte a := obufByte_write s s.writer.wptr a v
  rw [output_succ, byte, if_pos rfl, output_congr fun a ha => (byte a).trans (if_neg (Nat.ne_of_lt ha))]

/-- A bit that completes no byte. -/
theorem written_placed (b : Bool) {n : Fin 8} (hn : n.val = s.writer.wcnt.val + 1) (wbits : Nat) (f : Bool) :
    State.written { s with writer := ⟨placeBit s.writer.wacc s.writer.wcnt.val b, n, s.writer.wptr, wbits, f⟩ } =
      s.written ++ [b] := by
  simp only [State.written, hn, take_bitsOf_placeBit _ b s.writer.wcnt.isLt, List.append_assoc]
  rfl

/-- A bit that completes a byte. -/
theorem written_emitted (b : Bool) (h7 : s.writer.wcnt.val = 7) (wbits : Nat) (f : Bool) :
    State.written { s with
      obuf := s.obuf.write s.writer.wptr (placeBit s.writer.wacc s.writer.wcnt.val b)
      writer := ⟨0, 0, s.writer.wptr + 1, wbits, f⟩ } = s.written ++ [b] := by
  have byte := take_bitsOf_placeBit s.writer.wacc b s.writer.wcnt.isLt
  rw [h7, List.take_of_length_le (by simp)] at byte
  simp only [State.written, output_emitted, unpack_append, h7, byte, unpack_cons]
  simp

end Output

/-! ### What WRITE_BIT and WRITE_BITS append -/

/-- `t` is what writing `bs` in the open session of `s` makes of it (41_bitstream.md R121, R125). -/
structure Appends (bs : Bits) (s t : State) : Prop where
  frame : WriterOnly s t
  written : t.written = s.written ++ bs
  wbits : t.writer.wbits = s.writer.wbits + bs.length
  wptr : t.writer.wptr = s.writer.wptr + s.bytesFor bs.length
  wcnt : t.writer.wcnt.val = (s.writer.wcnt.val + bs.length) % 8
  opened : t.writer.flushed = false
  obuf : ∀ a, a < s.writer.wptr ∨ t.writer.wptr ≤ a → t.obufByte a = s.obufByte a
  rest : s.writer.RestZero → t.writer.RestZero

namespace Appends

variable {bs cs : Bits} {s t u : State}

theorem refl (hopen : s.writer.flushed = false) : Appends [] s s where
  frame := .refl s
  written := (List.append_nil _).symm
  wbits := rfl
  wptr := by simp only [State.bytesFor, List.length_nil]; omega
  wcnt := by simp only [List.length_nil]; omega
  opened := hopen
  obuf _ _ := rfl
  rest := id

theorem trans (h₁ : Appends bs s t) (h₂ : Appends cs t u) : Appends (bs ++ cs) s u where
  frame := h₁.frame.trans h₂.frame
  written := by rw [h₂.written, h₁.written, List.append_assoc]
  wbits := by rw [h₂.wbits, h₁.wbits, List.length_append]; omega
  wptr := by
    rw [h₂.wptr, h₁.wptr]
    simp only [State.bytesFor, h₁.wcnt, List.length_append]
    omega
  wcnt := by rw [h₂.wcnt, h₁.wcnt, List.length_append]; omega
  opened := h₂.opened
  obuf a ha := by
    have := h₁.wptr
    have := h₂.wptr
    rw [h₂.obuf a (by omega), h₁.obuf a (by omega)]
  rest := h₂.rest ∘ h₁.rest

/-- The room for more bits, before and after the writing of bits that fit. -/
theorem roomFor_iff (h : Appends bs s t) (hroom : s.RoomFor bs.length) (n : Nat) :
    t.RoomFor n ↔ s.RoomFor (bs.length + n) := by
  have hp : t.params = s.params := by rw [h.frame]
  simp only [State.RoomFor, State.bytesFor, h.wcnt, h.wptr, hp] at hroom ⊢
  omega

end Appends

/-- WRITE_BIT in an open session: it appends the bit where the byte it may complete fits, else it overflows. -/
theorem writeBit_open_cases (b : Bool) {s : State} (hopen : s.writer.flushed = false) :
    (s.RoomFor 1 ∧ ∃ t, writeBit b s = .ok () t ∧ Appends [b] s t) ∨
      (¬ s.RoomFor 1 ∧ writeBit b s = .raised .outputOverflow (placeInAcc b s)) := by
  rcases writeBit_cases b s with ⟨hf, _⟩ | ⟨_, n, hn, e⟩ | ⟨_, h7, hp, e⟩ | ⟨_, h7, hp, e⟩
  · exact absurd (hopen.symm.trans hf) Bool.false_ne_true
  · have h0 : s.bytesFor 1 = 0 := by simp only [State.bytesFor]; omega
    refine .inl ⟨.inl h0, _, e, ?_⟩
    exact {
      frame := rfl
      written := written_placed s b hn _ _
      wbits := rfl
      wptr := by rw [List.length_singleton, h0]; rfl
      wcnt := by simp only [List.length_singleton]; omega
      opened := hopen
      obuf := fun _ _ => rfl
      rest := fun hz k hk => by
        simp only [hn] at hk
        exact (getLsbD_placeBit _ b (by omega)).trans (hz k (by omega)) }
  · have h1 : s.bytesFor 1 = 1 := by simp only [State.bytesFor]; omega
    refine .inl ⟨.inr (by omega), _, e, ?_⟩
    exact {
      frame := rfl
      written := written_emitted s b h7 _ _
      wbits := rfl
      wptr := by rw [List.length_singleton, h1]
      wcnt := by rw [h7, List.length_singleton]; rfl
      opened := hopen
      obuf := fun a ha => (obufByte_write s s.writer.wptr a _).trans (if_neg (by simp only at ha; omega))
      rest := fun _ _ _ => BitVec.getLsbD_zero }
  · refine .inr ⟨?_, e⟩
    simp only [State.RoomFor, State.bytesFor]
    omega

/-- WRITE_BITS in an open session: it appends the bits where the bytes they complete fit, else it overflows. -/
theorem writeBits_open_cases (bs : Bits) {s : State} (hopen : s.writer.flushed = false) :
    (s.RoomFor bs.length ∧ ∃ t, writeBits bs s = .ok () t ∧ Appends bs s t) ∨
      (¬ s.RoomFor bs.length ∧ ∃ u, writeBits bs s = .raised .outputOverflow u ∧ WriterOnly s u) := by
  induction bs generalizing s with
  | nil =>
    have h0 : s.bytesFor 0 = 0 := by simp only [State.bytesFor]; omega
    exact .inl ⟨.inl h0, s, rfl, .refl hopen⟩
  | cons b bs ih =>
    rw [List.length_cons, Nat.add_comm]
    rcases writeBit_open_cases b hopen with ⟨hroom, t, e, ht⟩ | ⟨hfull, e⟩ <;> rw [writeBits, e]
    · have room := ht.roomFor_iff hroom bs.length
      rw [List.length_singleton] at room
      rcases ih ht.opened with ⟨hrest, u, e', hu⟩ | ⟨hrest, u, e', hu⟩
      · exact .inl ⟨room.mp hrest, u, e', ht.trans hu⟩
      · exact .inr ⟨mt room.mpr hrest, u, e', ht.frame.trans hu⟩
    · refine .inr ⟨fun hroom => hfull ?_, placeInAcc b s, rfl, rfl⟩
      simp only [State.RoomFor, State.bytesFor] at hroom ⊢
      omega

theorem writeBits_singleton (b : Bool) (s : State) : writeBits [b] s = writeBit b s := by
  rw [writeBits]
  cases writeBit b s <;> rfl

/-- WRITE_BIT is WRITE_BITS of one bit (41_bitstream.md R125). -/
theorem exec_write_eq {bs : Bits} {i : Instr} (h : i = .writeBits bs ∨ ∃ b, bs = [b] ∧ i = .writeBit b) (s : State) :
    exec i s = (writeBits bs s).finish fun _ => .nothing := by
  rcases h with rfl | ⟨b, rfl, rfl⟩
  · rfl
  · rw [writeBits_singleton]
    rfl

/-- What an error of the writer's operations leaves (60_exceptions.md R209). -/
theorem failedWith_of_writerOnly {s u : State} (k : ErrorKind) (h : WriterOnly s u) :
    FailedWith k s (completeWithError k u) := by
  rw [h]
  exact failedWith_completeWithError rfl rfl rfl rfl rfl rfl

/-- Settles O25, by what WRITE_BITS appends in an open session. -/
theorem writeAppendsBits : Obligations.WriteAppendsBits := by
  unfold Obligations.WriteAppendsBits
  intro s bs hopen hroom i hi
  rcases writeBits_open_cases bs hopen with ⟨_, t, e, ht⟩ | ⟨hfull, _⟩
  · refine ⟨{ t with result := .nothing }, t.writer, t.obuf, by rw [exec_write_eq hi, e]; rfl, ?_,
      ht.written, ht.wbits, ht.wptr, ht.wcnt, ht.opened, ht.obuf⟩
    exact congrArg (fun u : State => { u with result := .nothing }) ht.frame
  · exact absurd hroom hfull

/-- Settles O26, by the error WRITE_BITS raises where a byte does not fit. -/
theorem writeOverflows : Obligations.WriteOverflows := by
  unfold Obligations.WriteOverflows
  intro s bs hopen hfull i hi
  rcases writeBits_open_cases bs hopen with ⟨hroom, _⟩ | ⟨_, u, e, hu⟩
  · exact absurd hroom hfull
  · exact ⟨_, by rw [exec_write_eq hi, e]; rfl, failedWith_of_writerOnly _ hu⟩

/-! ### FLUSH -/

section Flush

variable {s : State} (hopen : s.writer.flushed = false)
include hopen

/-- FLUSH on a byte boundary writes nothing (41_bitstream.md R123). -/
theorem execFlush_boundary (hc : s.writer.wcnt.val = 0) :
    exec .flush s = .next { endSession s with result := .nothing } := by
  have e : flush s = .ok () (endSession s) := by simpa [hopen, hc] using flush_cases s
  exact congrArg (OpResult.finish _) e

/-- FLUSH of a partial byte that fits (41_bitstream.md R123). -/
theorem execFlush_emits (hc : s.writer.wcnt.val ≠ 0) (hp : s.writer.wptr < s.params.obufCap) :
    exec .flush s = .next { s with
      obuf := s.obuf.write s.writer.wptr s.writer.wacc
      writer := ⟨0, 0, s.writer.wptr + 1, s.writer.wbits, true⟩
      result := .nothing } := by
  have e : flush s = .ok () { s with
      obuf := s.obuf.write s.writer.wptr s.writer.wacc
      writer := ⟨0, 0, s.writer.wptr + 1, s.writer.wbits, true⟩ } := by
    simpa only [hopen, hc, hp, Nat.not_le.mpr hp, Bool.false_eq_true, ne_eq, not_false_eq_true, false_and, true_and,
      false_or, or_false] using flush_cases s
  exact congrArg (OpResult.finish _) e

/-- FLUSH of a partial byte that does not fit (41_bitstream.md R123). -/
theorem execFlush_overflows (hc : s.writer.wcnt.val ≠ 0) (hp : s.params.obufCap ≤ s.writer.wptr) :
    exec .flush s = .next (completeWithError .outputOverflow (endSession s)) := by
  have e : flush s = .raised .outputOverflow (endSession s) := by
    simpa only [hopen, hc, hp, Nat.not_lt.mpr hp, Bool.false_eq_true, ne_eq, not_false_eq_true, false_and, true_and,
      false_or] using flush_cases s
  exact congrArg (OpResult.finish _) e

end Flush

theorem flush_refused {s : State} (hf : s.writer.flushed = true) : flush s = .refused .secondFlush := if_pos hf

theorem writeBit_refused (b : Bool) {s : State} (hf : s.writer.flushed = true) :
    writeBit b s = .refused .writeAfterFlush := if_pos hf

/-- Settles O27, by the cases of FLUSH and the refusals of a flushed session. -/
theorem flushEmitsPartialByte : Obligations.FlushEmitsPartialByte := by
  unfold Obligations.FlushEmitsPartialByte
  refine ⟨fun s hopen hc => execFlush_boundary hopen hc, fun s hopen hc hp => ?_, fun s hopen hc hp => ?_,
    fun s b bs hf => ⟨?_, ?_, ?_⟩⟩
  · refine ⟨_, ⟨0, 0, s.writer.wptr + 1, s.writer.wbits, true⟩, s.obuf.write s.writer.wptr s.writer.wacc,
      execFlush_emits hopen hc hp, rfl, ?_, fun a ha => ?_, rfl⟩
    · exact (obufByte_write s s.writer.wptr s.writer.wptr s.writer.wacc).trans (if_pos rfl)
    · exact (obufByte_write s s.writer.wptr a s.writer.wacc).trans (if_neg ha)
  · exact ⟨_, execFlush_overflows hopen hc hp, failedWith_of_writerOnly _ rfl, rfl⟩
  · exact congrArg (OpResult.finish _) (flush_refused hf)
  · exact congrArg (OpResult.finish _) (writeBit_refused b hf)
  · exact congrArg (OpResult.finish _) (congrArg (OpResult.bind · _) (writeBit_refused b hf))

/-! ### A session -/

/-- On a byte boundary the output is the bits written, packed. -/
theorem output_eq_pack {t : State} (hc : t.writer.wcnt.val = 0) : t.output t.writer.wptr = pack t.written := by
  rw [State.written, hc, List.take_zero, List.append_nil, pack_unpack]

/-- The output and the partial byte are the bits written and zero padding, packed. -/
theorem output_append_wacc_eq_pack {t : State} (hz : t.writer.RestZero) :
    t.output t.writer.wptr ++ [t.writer.wacc] = pack (t.written ++ zeros (8 - t.writer.wcnt.val)) := by
  rw [State.written, List.append_assoc, ← hz.bitsOf_wacc, ← List.append_nil (bitsOf 8 _), ← unpack_nil,
    ← unpack_cons, ← unpack_append, pack_unpack]

section Session

variable {s : State} (hs : s.WriterOpen)
include hs

theorem State.WriterOpen.opened : s.writer.flushed = false := by rw [hs]

theorem State.WriterOpen.bytesFor_eq (n : Nat) : s.bytesFor n = n / 8 := by simp [State.bytesFor, hs]

/-- In a session that starts, bits fit where their whole bytes do. -/
theorem State.WriterOpen.roomFor_iff (n : Nat) : s.RoomFor n ↔ n / 8 ≤ s.params.obufCap := by
  have hptr : s.writer.wptr = 0 := by rw [hs]
  rw [State.RoomFor, hs.bytesFor_eq, hptr]
  omega

/-- What the writing of `bs` makes of a session that starts. -/
theorem State.WriterOpen.appends {t : State} {bs : Bits} (ht : Appends bs s t) :
    t.written = bs ∧ t.writer.wbits = bs.length ∧ t.writer.wptr = bs.length / 8 ∧
      t.writer.wcnt.val = bs.length % 8 ∧ t.writer.RestZero := by
  have h0 : s.written = [] := by simp [State.written, State.output, hs]
  refine ⟨by rw [ht.written, h0, List.nil_append], ?_, ?_, ?_, ht.rest ?_⟩
  · simp [ht.wbits, hs]
  · simp [ht.wptr, hs.bytesFor_eq, hs]
  · simp [ht.wcnt, hs]
  · simp [Writer.RestZero, hs]

end Session

/-- FLUSH of a session whose bits and padding fit gives them packed (41_bitstream.md R126). -/
theorem execFlush_packs {t : State} (hopen : t.writer.flushed = false) (hz : t.writer.RestZero)
    (hroom : t.writer.wcnt.val ≠ 0 → t.writer.wptr < t.params.obufCap) :
    ∃ u, exec .flush t = .next u ∧ u.writer.wbits = t.writer.wbits ∧
      u.writer.wptr = t.writer.wptr + (t.writer.wcnt.val + 7) / 8 ∧
      u.output u.writer.wptr = pack (t.written ++ zeros ((8 - t.writer.wcnt.val) % 8)) := by
  by_cases hc : t.writer.wcnt.val = 0
  · refine ⟨_, execFlush_boundary hopen hc, rfl, by rw [hc]; rfl, ?_⟩
    rw [hc]
    exact (output_eq_pack hc).trans (congrArg pack (List.append_nil _).symm)
  · refine ⟨_, execFlush_emits hopen hc (hroom hc), rfl, by simp only; omega, ?_⟩
    rw [Nat.mod_eq_of_lt (by omega), ← output_append_wacc_eq_pack hz]
    exact output_emitted t t.writer.wacc ⟨0, 0, t.writer.wptr + 1, t.writer.wbits, true⟩

/-- Settles O28: the writing appends all bits or overflows, and then FLUSH emits the partial byte or overflows. -/
theorem sessionPacksBits : Obligations.SessionPacksBits := by
  unfold Obligations.SessionPacksBits
  intro s bs hs
  have hroom := hs.roomFor_iff bs.length
  rcases writeBits_open_cases bs hs.opened with ⟨hfits, t, e, ht⟩ | ⟨hfull, u, e, hu⟩
  · have run : exec (.writeBits bs) s = .next { t with result := .nothing } :=
      finish_eq_next.mpr (.inl ⟨(), t, e, rfl⟩)
    obtain ⟨hw, hbits, hptr, hcnt, hz⟩ := hs.appends ht
    have hregs : t.regs = s.regs := by rw [ht.frame]
    have hcap : t.params.obufCap = s.params.obufCap := by rw [ht.frame]
    refine ⟨fun hlen => ?_, fun hlen => ?_, fun hlen _ => ?_⟩
    · obtain ⟨u, hflush, hb, hp, ho⟩ := execFlush_packs (t := { t with result := .nothing }) ht.opened hz
        (by simp only; omega)
      refine ⟨_, u, run, hflush, hb.trans hbits, by simp only at hp; omega, ho.trans ?_⟩
      simp only [← hcnt]
      exact congrArg (fun x => pack (x ++ _)) hw
    · have := hroom.mp hfits
      omega
    · exact ⟨_, _, run, hbits, hregs, execFlush_overflows (s := { t with result := .nothing }) ht.opened
        (by simp only; omega) (by simp only; omega), failedWith_of_writerOnly _ rfl⟩
  · rw [hroom] at hfull
    refine ⟨fun _ => by omega, fun _ => ⟨_, finish_eq_next.mpr (.inr ⟨_, u, e, rfl⟩), failedWith_of_writerOnly _ hu⟩,
      fun _ _ => by omega⟩

/-! ### READ_BIT and READ_BITS -/

/-- Settles O31, by what READ_BIT and READ_BITS take from the bits ahead. -/
theorem readTakesNextBits : Obligations.ReadTakesNextBits := by
  unfold Obligations.ReadTakesNextBits
  intro s hcap
  refine ⟨fun b rest h => ?_, fun h => ?_, fun k _ h => ?_, fun k h => ?_⟩
  · obtain ⟨r, e, ha, hr⟩ := readBit_next hcap h
    exact ⟨r, _, finish_eq_next.mpr (.inl ⟨_, _, e, rfl⟩), rfl, ha, hr⟩
  · exact finish_eq_next.mpr (.inl ⟨_, _, readBit_endOfStream h, rfl⟩)
  · obtain ⟨r, e, ha, hr⟩ := readBitsLoop_enough hcap 0 h
    exact ⟨r, _, finish_eq_next.mpr (.inl ⟨_, _, e, rfl⟩), rfl, ha, hr⟩
  · obtain ⟨r, e, ha, hr⟩ := readBitsLoop_short hcap 0 h
    exact ⟨r, _, finish_eq_next.mpr (.inl ⟨_, _, e, rfl⟩), rfl, ha, hr⟩

end Sys2Proof.Machine
end

section
/-! PROOFS. WRITE_TREE and READ_TREE (42_tree_codec.md): what WRITE_TREE writes is `ser` of the tree (O29), READ_TREE
inverts it (O33), and fails where no tree of 511 nodes stands (O34). -/

namespace Sys2Proof.Machine

open OpResult

/-! ### WRITE_TREE -/

/-- Two ways to go on that agree wherever the first part returns. -/
theorem OpResult.Ends.bind_congr {α β : Type} {P : State → Prop} {x : OpResult α} {f g : α → State → OpResult β}
    (h : x.Ends P) (hfg : ∀ a t, P t → f a t = g a t) : x.bind f = x.bind g := by
  cases x with
  | ok a t => exact hfg a t h
  | raised k t => rfl
  | stuck e => rfl
  | refused r => rfl

/-- WRITE_BITS of a sequence in two parts (41_bitstream.md R125). -/
theorem writeBits_append (bs cs : Bits) (s : State) :
    writeBits (bs ++ cs) s = (writeBits bs s).bind fun _ t => writeBits cs t := by
  induction bs generalizing s with
  | nil => rfl
  | cons b bs ih => simp only [List.cons_append, writeBits, ih, bind_assoc]

theorem WriterOnly.arena {s t : State} (h : WriterOnly s t) : t.arena = s.arena := by rw [h]

theorem Arena.treeOf_leaf {a : Arena} {levels : Nat} {i : NodeId} {tr : ByteTree} (hleaf : a.node[i].leaf = true)
    (h : a.treeOf (levels + 1) i = some tr) : tr = .leaf a.node[i].value := by
  rw [Arena.treeOf, if_pos hleaf] at h
  exact (Option.some.inj h).symm

theorem Arena.treeOf_node {a : Arena} {levels : Nat} {i : NodeId} {tr : ByteTree} (hleaf : ¬ a.node[i].leaf = true)
    (h : a.treeOf (levels + 1) i = some tr) :
    ∃ l r, tr = .node l r ∧ a.treeOf levels a.node[i].left = some l ∧ a.treeOf levels a.node[i].right = some r := by
  rw [Arena.treeOf, if_neg hleaf] at h
  split at h <;> cases h
  next l r hl hr => exact ⟨l, r, rfl, hl, hr⟩

/-- WRITE_TREE is WRITE_BITS of `ser` of the tree below its node: the writes in between leave the arena alone
(42_tree_codec.md R140, R141). -/
theorem writeTreeLevels_eq_writeBits_ser {levels : Nat} {i : NodeId} {tr : ByteTree} {s : State}
    (h : s.arena.treeOf levels i = some tr) : writeTreeLevels levels i s = writeBits tr.ser s := by
  induction levels generalizing i tr s with
  | zero => cases h
  | succ levels ih =>
    rw [writeTreeLevels]
    by_cases hleaf : s.arena.node[i].leaf = true
    · rw [if_pos hleaf, Arena.treeOf_leaf hleaf h]
      rfl
    · obtain ⟨l, r, rfl, hl, hr⟩ := Arena.treeOf_node hleaf h
      rw [if_neg hleaf]
      refine (writeBit_frame false s).bind_congr fun _ t ht => ?_
      rw [writeBits_append, ih (by rwa [ht.arena])]
      exact (writeBits_frame l.ser t).bind_congr fun _ u hu => ih (by rwa [hu.arena, ht.arena])

theorem exec_writeTree {i : NodeId} {tr : ByteTree} {s : State} (h : s.arena.tree i = some tr) :
    exec (.writeTree i) s = exec (.writeBits tr.ser) s :=
  congrArg (OpResult.finish _) (writeTreeLevels_eq_writeBits_ser h)

/-- Settles O29, by what WRITE_BITS appends, WRITE_TREE being WRITE_BITS of `ser` of the tree. -/
theorem writeTreeSerialises : Obligations.WriteTreeSerialises := by
  unfold Obligations.WriteTreeSerialises
  refine ⟨fun s i tr h => exec_writeTree h, fun s i tr h hopen hroom => ?_, ByteTree.length_ser⟩
  obtain ⟨t, w, m, e, ht, hwritten, hbits, -, -, -, hobuf⟩ :=
    writeAppendsBits s tr.ser hopen hroom (.writeBits tr.ser) (.inl rfl)
  exact ⟨t, w, m, (exec_writeTree h).trans e, ht, hwritten, hbits, hobuf⟩

/-! ### READ_TREE -/

/-- What an error of READ_TREE leaves (60_exceptions.md R209). -/
theorem TreeReadOnly.failedWith {s t : State} (h : TreeReadOnly s t) (k : ErrorKind) :
    FailedWith k s (completeWithError k t) := by
  rw [h.1]
  exact failedWith_completeWithError rfl rfl rfl rfl rfl rfl

/-- A READ_TREE that returns starts no new epoch of OBUF, so it is no failure. -/
theorem TreeReadOnly.not_failedWith {s t : State} (h : TreeReadOnly s t) {k : ErrorKind} {r : UopResult} :
    ¬ FailedWith k s { t with result := r } := by
  rintro ⟨-, -, -, -, -, -, hfailed, -⟩
  have hepoch : t.epoch = s.epoch := by rw [h.1]
  exact (Nat.succ_ne_self s.epoch).symm (hepoch.symm.trans hfailed)

/-- READ_TREE reads a tree that stands ahead and whose nodes have room (42_tree_codec.md R149). -/
theorem exec_readTree_reads {s : State} {tr : ByteTree} {x : Bits} (hcap : s.regs.inLen.toNat ≤ s.params.ibufCap)
    (h : s.bitsAhead = tr.ser ++ x) (hfit : s.arena.nodeCnt.val + tr.size ≤ 511) :
    ∃ i t, exec .readTree s = .next { t with result := .node i } ∧ TreeRead s t i tr tr.ser.length := by
  have hd : tr.depth < Config.nodeCap + 1 := Nat.lt_of_le_of_lt (ByteTree.depth_le_maxDepth (by omega)) (by decide)
  obtain ⟨i, t, e, ht⟩ := readsTree tr hd s x hcap h hfit
  exact ⟨i, t, finish_eq_next.mpr (.inl ⟨i, t, e, rfl⟩), ht⟩

/-- Where no tree with room stands ahead, READ_TREE fails (42_tree_codec.md R145, R146). -/
theorem exec_readTree_rejects {s : State} (hcap : s.regs.inLen.toNat ≤ s.params.ibufCap)
    (h : ¬ ∃ tr : ByteTree, s.arena.nodeCnt.val + tr.size ≤ 511 ∧ tr.ser <+: s.bitsAhead) :
    ∃ t, exec .readTree s = .next t ∧ FailedWith .corruptHeader s t := by
  have hnone : readTreeBits (Config.nodeCap + 1) s.arena.nodeCnt.val s.bitsAhead = none := by
    by_contra hsome
    obtain ⟨⟨tr, used, x⟩, e⟩ := Option.ne_none_iff_exists'.mp hsome
    obtain ⟨hbits, rfl, hfit, -⟩ := readTreeBits_eq_some e (by simp only [Config.nodeCap]; omega)
    exact h ⟨tr, hfit, x, hbits.symm⟩
  obtain ⟨t, e⟩ := rejectsTree _ s hcap hnone
  have hframe : TreeReadOnly s t := by
    have := readTreeLevels_frame (Config.nodeCap + 1) s
    rwa [e] at this
  exact ⟨_, finish_eq_next.mpr (.inr ⟨_, t, e, rfl⟩), hframe.failedWith _⟩

/-- Settles O33, by what READ_TREE does where a tree with room stands ahead, from an empty arena. -/
theorem readTreeInvertsSer : Obligations.ReadTreeInvertsSer := by
  unfold Obligations.ReadTreeInvertsSer
  intro s tr x hcap h0 hs h
  have hcnt : s.arena.nodeCnt.val = 0 := congrArg Fin.val h0
  obtain ⟨i, t, e, ht⟩ := exec_readTree_reads hcap h (by omega)
  obtain rfl : i = 0 := Fin.ext (ht.id.trans hcnt)
  obtain ⟨heq, hroot⟩ := ht.frame
  have hsize : t.arena.nodeCnt.val = tr.size := by rw [ht.count, hcnt, Nat.zero_add]
  have hahead : t.bitsAhead = x := by rw [ht.ahead, h, List.drop_left]
  exact ⟨_, t.reader, t.arena, t.draws, e, congrArg (fun u : State => { u with result := .node 0 }) heq,
    ht.tree.tree hs, hsize, hroot, hahead, ht.rbits, fun j hj => ht.left j (by omega) (by omega), ht.weight,
    fun j hj => ht.kept j (.inr (by omega))⟩

/-- Settles O34: READ_TREE reads every tree that has room, which is no failure, and fails where the grammar reads none. -/
theorem readTreeRejectsTheRest : Obligations.ReadTreeRejectsTheRest := by
  unfold Obligations.ReadTreeRejectsTheRest
  intro s hcap h0
  have hcnt : s.arena.nodeCnt.val = 0 := congrArg Fin.val h0
  constructor
  · rintro ⟨t, e, hfailed⟩ ⟨tr, hs, x, hx⟩
    obtain ⟨i, u, eu, hu⟩ := exec_readTree_reads hcap hx.symm (by omega)
    cases e.symm.trans eu
    exact hu.frame.not_failedWith hfailed
  · intro h
    exact exec_readTree_rejects hcap fun ⟨tr, hfit, hpre⟩ => h ⟨tr, by omega, hpre⟩

end Sys2Proof.Machine
end

section
/-! PROOFS. The phases of ENCODE, one step each (43_encode.md R162 to R171): E_LEN writes IN_LEN (O30), and E_PAYLOAD at a
byte without a code (O17). -/

namespace Sys2Proof

/-! ### A word as four bytes -/

/-- The bits of a word in four bytes, most significant first (30_encoding.md R85). -/
theorem pack_bitsOf_word (w : BitVec 32) : pack (bitsOf 32 w.toNat) =
    [w.extractLsb' 24 8, w.extractLsb' 16 8, w.extractLsb' 8 8, w.extractLsb' 0 8] := by
  rw [← pack_unpack [_, _, _, _]]
  simp only [unpack_cons, unpack_nil, bitsOf, BitVec.testBit_toNat, BitVec.getLsbD_extractLsb']
  rfl

end Sys2Proof

namespace Sys2Proof.Machine

open OpResult Reference

/-! ### One step of the sequencer -/

/-- With a silent host the engine moves. -/
theorem step_silent {s : State} (h : s.Silent) : step s = engineTurn s := by rw [step, h]

theorem andThen_running {u : State} (f : State → Host.Outcome State Fault Refusal) (h : u.phase ≠ .none) :
    andThen (.next u) f = f u := if_neg h

theorem andThen_completed {u : State} (f : State → Host.Outcome State Fault Refusal) (h : u.phase = .none) :
    andThen (.next u) f = .next u := if_pos h

section Steps

variable {s : State} (hs : s.Silent)
include hs

theorem step_eCheck (hp : s.phase = .eCheck) : step s = phaseECheck s := by rw [step_silent hs, engineTurn, hp]

theorem step_eCount (hp : s.phase = .eCount) : step s = thenPhase (exec .count s) .eBuild := by
  rw [step_silent hs, engineTurn, hp]

theorem step_eBuild (hp : s.phase = .eBuild) : step s = thenPhase (exec .build s) .eDerive := by
  rw [step_silent hs, engineTurn, hp]

theorem step_eDerive (hp : s.phase = .eDerive) : step s = thenPhase (exec .derive s) .eLen := by
  rw [step_silent hs, engineTurn, hp]

theorem step_eLen (hp : s.phase = .eLen) :
    step s = andThen (exec (.writeBits (bitsOf 32 s.regs.inLen.toNat)) s) fun u =>
      .next (setPhase (if s.regs.inLen = 0 then .eFlush else .eTree) u) := by
  rw [step_silent hs, engineTurn, hp]
  rfl

theorem step_eTree (hp : s.phase = .eTree) :
    step s = andThen (exec (.writeTree s.arena.root) s) fun u =>
      .next { u with hdrBits := u.writer.wbits - s.writer.wbits, eidx := 0, phase := .ePayload } := by
  rw [step_silent hs, engineTurn, hp]
  rfl

theorem step_eFlush (hp : s.phase = .eFlush) :
    step s = andThen (exec .flush s) fun u => .next (completeEncode u) := by
  rw [step_silent hs, engineTurn, hp]
  rfl

/-- E_PAYLOAD at an input byte: INVARIANT where it has no code, else its code is written (43_encode.md R168, R169). -/
theorem step_ePayload_byte (hp : s.phase = .ePayload) (hlen : s.eidx < s.regs.inLen.toNat)
    (hcap : s.eidx < s.params.ibufCap) :
    step s = if s.codeAt (s.ibufByte s.eidx) = [] then .next (completeWithError .invariant s)
      else andThen (exec (.writeBits (s.codeAt (s.ibufByte s.eidx))) s) fun u =>
        .next { u with eidx := u.eidx + 1 } := by
  rw [step_silent hs, engineTurn, hp]
  simp only [phaseEPayload, if_pos hlen, readIbuf_ok hcap, List.length_eq_zero_iff]

/-- E_PAYLOAD after the last input byte. -/
theorem step_ePayload_end (hp : s.phase = .ePayload) (hlen : s.regs.inLen.toNat ≤ s.eidx) :
    step s = .next (setPhase .eFlush s) := by
  rw [step_silent hs, engineTurn, hp]
  exact if_neg (Nat.not_lt.mpr hlen)

end Steps

/-- Settles O17: E_PAYLOAD at a byte whose entry of CODE is empty. -/
theorem missingCodeIsInvariant : Obligations.MissingCodeIsInvariant := by
  unfold Obligations.MissingCodeIsInvariant
  intro s hp hs hlen hcap hcode
  exact ⟨_, (step_ePayload_byte hs hp hlen hcap).trans (if_pos hcode), failedWith_self .invariant s, rfl⟩

/-- A phase that writes bits in an open session: they are appended and the phase goes on, or they overflow, which
completes the command (60_exceptions.md R200). -/
theorem andThen_writeBits_cases (bs : Bits) (f : State → Host.Outcome State Fault Refusal) {s : State}
    (hp : s.phase ≠ .none) (hopen : s.writer.flushed = false) :
    (s.RoomFor bs.length ∧ ∃ t, writeBits bs s = .ok () t ∧ Appends bs s t ∧
      andThen (exec (.writeBits bs) s) f = f { t with result := .nothing }) ∨
    (¬ s.RoomFor bs.length ∧ ∃ t, FailedWith .outputOverflow s t ∧ andThen (exec (.writeBits bs) s) f = .next t) := by
  rcases writeBits_open_cases bs hopen with ⟨hroom, t, e, ht⟩ | ⟨hfull, u, e, hu⟩
  · have hrun : t.phase ≠ .none := by rwa [ht.frame]
    have hexec : exec (.writeBits bs) s = .next { t with result := .nothing } := congrArg (OpResult.finish _) e
    exact .inl ⟨hroom, t, e, ht, hexec ▸ andThen_running f hrun⟩
  · have hexec : exec (.writeBits bs) s = .next (completeWithError .outputOverflow u) := congrArg (OpResult.finish _) e
    exact .inr ⟨hfull, _, failedWith_of_writerOnly _ hu, hexec ▸ andThen_completed f rfl⟩

/-- Settles O30: the 32 bits fit, and the four bytes they fill are the field, packed. -/
theorem lenFieldIsBigEndian : Obligations.LenFieldIsBigEndian := by
  unfold Obligations.LenFieldIsBigEndian
  intro s hp hs hopen hcap
  rw [step_eLen hs hp]
  rcases andThen_writeBits_cases (bitsOf 32 s.regs.inLen.toNat) _ (by rw [hp]; decide) hopen.opened with
    ⟨-, t, -, ht, e⟩ | ⟨hfull, -⟩
  · obtain ⟨hwritten, hbits, hptr, hcnt, -⟩ := hopen.appends ht
    rw [length_bitsOf] at hbits hptr hcnt
    have hbytes : t.output 4 = pack (bitsOf 32 s.regs.inLen.toNat) := by
      rw [← hwritten, ← output_eq_pack hcnt, hptr]
    rw [pack_bitsOf_word] at hbytes
    obtain ⟨h0, h1, h2, h3⟩ : t.obufByte 0 = _ ∧ t.obufByte 1 = _ ∧ t.obufByte 2 = _ ∧ t.obufByte 3 = _ := by
      simpa [State.output, List.range_succ] using hbytes
    exact ⟨_, e, hbits, hcnt, hptr, h0, h1, h2, h3, fun a ha => ht.obuf a (.inr (by omega)), rfl⟩
  · rw [hopen.roomFor_iff, length_bitsOf] at hfull
    omega

end Sys2Proof.Machine
end

section
/-! PROOFS. ENCODE computes `encode(d)` (43_encode.md R173, O46): the codes of CODE are those of the reference, the
writer session receives `encodeBits(d)` phase by phase, and FLUSH and the completion leave it packed in OBUF. -/

namespace Sys2Proof.Machine.Reference

/-! ### The codes of the reference -/

theorem mem_values_of_follow {t : ByteTree} {p rest : Bits} {v : Byte} (h : t.follow p = some (v, rest)) :
    v ∈ t.values := by
  induction t generalizing p with
  | leaf w =>
    cases h
    exact List.mem_singleton.mpr rfl
  | node l r ihl ihr =>
    cases p with
    | nil => cases h
    | cons b p =>
      cases b with
      | false => exact List.mem_append_left _ (ihl h)
      | true => exact List.mem_append_right _ (ihr h)

theorem pathTo_eq_none {t : ByteTree} {v : Byte} (h : v ∉ t.values) : pathTo v t = none := by
  induction t with
  | leaf w => exact if_neg fun e => h (List.mem_singleton.mpr e)
  | node l r ihl ihr =>
    obtain ⟨hl, hr⟩ := not_or.mp (mt List.mem_append.mpr h)
    rw [pathTo, ihl hl, ihr hr]
    rfl

/-- Where no value stands at two leaves, the path to a leaf is the path to its value. -/
theorem pathTo_of_follow {t : ByteTree} {p : Bits} {v : Byte} (hn : t.values.Nodup) (h : t.follow p = some (v, [])) :
    pathTo v t = some p := by
  induction t generalizing p with
  | leaf w =>
    cases h
    exact if_pos rfl
  | node l r ihl ihr =>
    obtain ⟨hl, hr, hd⟩ := List.nodup_append.mp hn
    cases p with
    | nil => cases h
    | cons b p =>
      cases b with
      | false => rw [pathTo, ihl hl h]
      | true =>
        have hv : v ∉ l.values := fun hv => hd v hv v (mem_values_of_follow (t := r) h) rfl
        rw [pathTo, pathTo_eq_none hv, ihr hr h]
        rfl

/-- A code that leads to a leaf is the code of the leaf's value (40_frequency_tree_code.md R111, R112). -/
theorem codeOf_of_readCode {t : ByteTree} {c : Bits} {v : Byte} (hn : t.values.Nodup)
    (h : t.readCode c = some (v, [])) (hs : t = .leaf v → c = [false]) : codeOf t v = some c := by
  cases t with
  | leaf w =>
    cases c with
    | nil => cases h
    | cons b c =>
      cases h
      rw [hs rfl]
      exact if_pos rfl
  | node l r => exact pathTo_of_follow hn h

/-! ### The parts of the reference's encoding -/

/-- The number of bits of the tree section, 0 for the empty input (43_encode.md R171). -/
def treeSectionBits (d : List Byte) : Nat :=
  match huffmanTree d with
  | none => 0
  | some t => t.ser.length

theorem huffmanTree_nil : huffmanTree [] = none := by decide

theorem treeSectionBits_nil : treeSectionBits [] = 0 := by rw [treeSectionBits, huffmanTree_nil]

theorem treeSectionBits_of_tree {d : List Byte} {t : ByteTree} (h : huffmanTree d = some t) :
    treeSectionBits d = t.ser.length := by
  rw [treeSectionBits, h]

/-- The tree section of a stream fits STAT_HDR_BITS: it has at most 256 leaves. -/
theorem treeSectionBits_lt (d : List Byte) : treeSectionBits d < 2 ^ 32 := by
  by_cases hd : d = []
  · rw [hd, treeSectionBits_nil]
    decide
  · obtain ⟨t, ht, hleaves⟩ := huffmanTree_leaves hd
    have hle : (present d).length ≤ 256 := (List.length_filter_le _ _).trans_eq (by simp)
    rw [treeSectionBits_of_tree ht, ByteTree.length_ser, hleaves]
    omega

theorem encodeBits_nil : encodeBits [] = bitsOf 32 0 := by rw [encodeBits, huffmanTree_nil]

theorem length_encodeBytes (d : List Byte) : (encodeBytes d).length = ((encodeBits d).length + 7) / 8 :=
  length_pack_padded _

end Sys2Proof.Machine.Reference

namespace Sys2Proof.Machine

open OpResult Reference

/-! ### The bytes emitted stay known -/

/-- Every byte below WPTR has been written. -/
def State.Emitted (s : State) : Prop := ∀ a, a < s.writer.wptr → s.obuf.known a ≠ none

theorem State.Emitted.emit {s : State} (h : s.Emitted) (v acc : Byte) (n : Fin 8) (wbits : Nat) (f : Bool) :
    State.Emitted { s with obuf := s.obuf.write s.writer.wptr v, writer := ⟨acc, n, s.writer.wptr + 1, wbits, f⟩ } := by
  intro a ha
  by_cases he : a = s.writer.wptr
  · simp [he]
  · have hlt : a < s.writer.wptr := Nat.lt_of_le_of_ne (Nat.le_of_lt_succ ha) he
    simpa only [Memory.known_write_other _ v he] using h a hlt

theorem writeBit_emitted (b : Bool) {s : State} (h : s.Emitted) : (writeBit b s).Ends State.Emitted := by
  rcases writeBit_cases b s with ⟨_, e⟩ | ⟨_, n, _, e⟩ | ⟨_, _, _, e⟩ | ⟨_, _, _, e⟩ <;> rw [e]
  · trivial
  · exact h
  · exact h.emit _ _ _ _ _
  · exact h

theorem writeBits_emitted (bs : Bits) {s : State} (h : s.Emitted) : (writeBits bs s).Ends State.Emitted := by
  induction bs generalizing s with
  | nil => exact h
  | cons b bs ih => exact (writeBit_emitted b h).bind (fun _ ht => ht) fun _ _ ht => ih ht

theorem flush_emitted {s : State} (h : s.Emitted) : (flush s).Ends State.Emitted := by
  rcases flush_cases s with ⟨_, e⟩ | ⟨_, _, e⟩ | ⟨_, _, _, e⟩ | ⟨_, _, _, e⟩ <;> rw [e]
  · trivial
  · exact h
  · exact h.emit _ _ _ _ _
  · exact h

/-- FLUSH of a partial byte that fits, or of none, returns. -/
theorem execFlush_room {s : State} (hopen : s.writer.flushed = false) (h : s.Emitted)
    (hroom : s.writer.wcnt.val ≠ 0 → s.writer.wptr < s.params.obufCap) :
    ∃ t, exec .flush s = .next t ∧ WriterOnly { s with result := .nothing } t ∧ t.Emitted := by
  have hem := flush_emitted h
  rcases flush_cases s with ⟨hf, _⟩ | ⟨_, _, e⟩ | ⟨_, _, _, e⟩ | ⟨_, hc, hfull, _⟩
  · exact absurd (hopen.symm.trans hf) Bool.false_ne_true
  · rw [e] at hem
    exact ⟨_, congrArg (OpResult.finish _) e, rfl, hem⟩
  · rw [e] at hem
    exact ⟨_, congrArg (OpResult.finish _) e, rfl, hem⟩
  · exact absurd (hroom hc) (Nat.not_lt.mpr hfull)

/-- A completion keeps the result: OBUF's free values are new ones, but no byte of the result is free. -/
theorem output_completeDone {s : State} {n : Nat} (h : ∀ a, a < n → s.obuf.known a ≠ none) (o c : Word) :
    (completeDone n o c s).output n = s.output n := by
  refine output_congr fun a ha => ?_
  obtain ⟨v, hv⟩ := Option.ne_none_iff_exists'.mp (h a ha)
  rw [obufByte_completeDone, if_pos ha, State.obufByte, hv]
  rfl

/-- The bits written fill the bytes below WPTR and WCNT bits of WACC (41_bitstream.md R120). -/
theorem length_written (s : State) : s.written.length = 8 * s.writer.wptr + s.writer.wcnt.val := by
  simp [State.written, State.output]

/-- CODE holds the code of every byte of `d`, none of them empty (40_frequency_tree_code.md R111, R115). -/
def State.CodesOf (s : State) (t : ByteTree) (d : List Byte) : Prop :=
  ∀ v ∈ d, codeOf t v = some (s.codeAt v) ∧ s.codeAt v ≠ []

/-! ### Where an ENCODE ends -/

/-- `t` is what ENCODE makes of `s` (43_encode.md R173). -/
def EncodeEnds (s t : State) : Prop :=
  t.phase = .none ∧ t.ibuf = s.ibuf ∧ t.regs.inLen = s.regs.inLen ∧
  ((encodeBytes s.input).length ≤ s.params.obufCap →
    t.regs.runState = .done ∧ t.regs.err = 0 ∧ t.regs.outLen.toNat = (encodeBytes s.input).length ∧
    t.output (encodeBytes s.input).length = encodeBytes s.input ∧ t.regs.statOrig = s.regs.inLen ∧
    t.regs.statComp = t.regs.outLen ∧ t.regs.statHdrBits.toNat = treeSectionBits s.input) ∧
  (s.params.obufCap < (encodeBytes s.input).length → t.regs.runState = .error ∧ t.regs.err = 5 ∧ t.regs.outLen = 0)

/-- The completion of an ENCODE whose encoding fits and stands in OBUF (43_encode.md R171). -/
theorem encodeEnds_completeEncode {s t : State} (hcap : s.params.obufCap < 2 ^ 32) (hi : t.ibuf = s.ibuf)
    (hl : t.regs.inLen = s.regs.inLen) (hh : t.hdrBits = treeSectionBits s.input) (hem : t.Emitted)
    (hptr : t.writer.wptr = (encodeBytes s.input).length) (hfits : t.writer.wptr ≤ s.params.obufCap)
    (hout : t.output t.writer.wptr = encodeBytes s.input) : EncodeEnds s (completeEncode t) := by
  refine ⟨rfl, hi, hl, fun _ => ⟨rfl, rfl, ?_, ?_, hl, rfl, ?_⟩, fun hlt => by omega⟩
  · exact (Nat.mod_eq_of_lt (by omega)).trans hptr
  · rw [← hptr, completeEncode, output_completeDone hem, hout]
  · exact (Nat.mod_eq_of_lt (hh ▸ treeSectionBits_lt s.input)).trans hh

/-- A run from `t` ends as ENCODE of `s` does. -/
def EncodeCompletes (s t : State) : Prop := ∃ k u, runSteps k t = .next u ∧ EncodeEnds s u

theorem EncodeEnds.completes {s t : State} (h : EncodeEnds s t) : EncodeCompletes s t := ⟨0, t, rfl, h⟩

theorem EncodeCompletes.of_step {s t u : State} (e : step t = .next u) (h : EncodeCompletes s u) :
    EncodeCompletes s t := by
  obtain ⟨k, v, hrun, hv⟩ := h
  exact ⟨k + 1, v, by rw [runSteps, e]; exact hrun, hv⟩

/-! ### What an ENCODE has written -/

/-- In `t` an ENCODE that started in `s` is running, the host silent, and its session has received the bits `w`. -/
structure EncodeWrote (s : State) (w : Bits) (t : State) : Prop where
  params : t.params = s.params
  regs : t.regs = { s.regs with runState := .busy, err := 0 }
  ibuf : t.ibuf = s.ibuf
  silent : t.Silent
  opened : t.writer.flushed = false
  written : t.written = w
  rest : t.writer.RestZero
  emitted : t.Emitted
  fits : t.writer.wptr ≤ s.params.obufCap

namespace EncodeWrote

variable {s t u : State} {w : Bits}

/-- What the phases change beside the writer and OBUF does not matter. -/
theorem congr (h : EncodeWrote s w t) (hu : u = { t with
    phase := u.phase, freq := u.freq, arena := u.arena, pq := u.pq, code := u.code, eidx := u.eidx
    hdrBits := u.hdrBits, result := u.result, draws := u.draws }) : EncodeWrote s w u := by
  rw [hu]
  exact ⟨h.params, h.regs, h.ibuf, h.silent, h.opened, h.written, h.rest, h.emitted, h.fits⟩

theorem inLen (h : EncodeWrote s w t) : t.regs.inLen = s.regs.inLen := by rw [h.regs]

theorem ibufByte (h : EncodeWrote s w t) (a : Nat) : t.ibufByte a = s.ibufByte a := by
  rw [State.ibufByte, h.ibuf, State.ibufByte]

theorem input (h : EncodeWrote s w t) : t.input = s.input := by
  rw [State.input, h.inLen, State.input, funext h.ibufByte]

theorem length (h : EncodeWrote s w t) : w.length = 8 * t.writer.wptr + t.writer.wcnt.val := by
  rw [← h.written, length_written]

/-- An overflow ends the ENCODE as R173 says where the encoding does not fit. -/
theorem overflow (h : EncodeWrote s w t) (hf : FailedWith .outputOverflow t u)
    (hlen : s.params.obufCap < (encodeBytes s.input).length) : EncodeEnds s u := by
  obtain ⟨hregs, hphase, hibuf, -⟩ := hf
  refine ⟨hphase, hibuf.trans h.ibuf, ?_, fun hle => absurd hlen (Nat.not_lt.mpr hle), fun _ => ?_⟩ <;> rw [hregs]
  · exact h.inLen
  · exact ⟨rfl, rfl, rfl⟩

/-- The session after more bits. -/
theorem append (h : EncodeWrote s w t) {bs : Bits} (ha : Appends bs t u) (hroom : t.RoomFor bs.length)
    (hem : u.Emitted) : EncodeWrote s (w ++ bs) u where
  params := by rw [ha.frame]; exact h.params
  regs := by rw [ha.frame]; exact h.regs
  ibuf := by rw [ha.frame]; exact h.ibuf
  silent := by rw [ha.frame]; exact h.silent
  opened := ha.opened
  written := by rw [ha.written, h.written]
  rest := ha.rest h.rest
  emitted := hem
  fits := by
    rw [ha.wptr]
    rcases hroom with h0 | hle
    · rw [h0]; exact h.fits
    · rwa [h.params] at hle

/-- A phase that writes the next bits of the encoding and goes on with `g`: it is enough that the ENCODE completes from
there, since an overflow ends it at once. -/
theorem writePhase {bs : Bits} {g : State → State} (h : EncodeWrote s w t) (hp : t.phase ≠ .none)
    (e : step t = andThen (exec (.writeBits bs) t) fun u => .next (g u)) (hpre : w ++ bs <+: encodeBits s.input)
    (hg : ∀ wr m, wr.wbits = t.writer.wbits + bs.length →
      EncodeWrote s (w ++ bs) { t with writer := wr, obuf := m, result := .nothing } →
      EncodeCompletes s (g { t with writer := wr, obuf := m, result := .nothing })) :
    EncodeCompletes s t := by
  rcases andThen_writeBits_cases bs (fun u => .next (g u)) hp h.opened with
    ⟨hroom, u, hu, ha, eu⟩ | ⟨hfull, u, hf, eu⟩
  · have hem := writeBits_emitted bs h.emitted
    rw [hu] at hem
    have hwrote := h.append ha hroom hem
    rw [ha.frame] at eu hwrote
    exact .of_step (e.trans eu) (hg u.writer u.obuf ha.wbits (hwrote.congr rfl))
  · refine .of_step (e.trans eu) (h.overflow hf ?_).completes
    have hle := hpre.length_le
    have hlen := h.length
    rw [State.RoomFor, State.bytesFor, h.params] at hfull
    rw [List.length_append] at hle
    rw [length_encodeBytes]
    omega

/-! ### The phases, the last one first -/

section Phases

variable (hcap : s.params.obufCap < 2 ^ 32) (hin : s.regs.inLen.toNat ≤ s.params.ibufCap)
include hcap

/-- E_FLUSH, all bits of the encoding being written, and the completion (43_encode.md R170, R171). -/
theorem flushPhase (h : EncodeWrote s (encodeBits s.input) t) (hp : t.phase = .eFlush)
    (hh : t.hdrBits = treeSectionBits s.input) : EncodeCompletes s t := by
  have hlen := h.length
  have he := length_encodeBytes s.input
  have hfits := h.fits
  have hpar : t.params.obufCap = s.params.obufCap := by rw [h.params]
  have hstep := step_eFlush h.silent hp
  by_cases hfull : t.writer.wcnt.val ≠ 0 ∧ t.params.obufCap ≤ t.writer.wptr
  · rw [execFlush_overflows h.opened hfull.1 hfull.2, andThen_completed _ rfl] at hstep
    exact .of_step hstep (h.overflow (failedWith_of_writerOnly _ (u := endSession t) rfl) (by omega)).completes
  · have hroom : t.writer.wcnt.val ≠ 0 → t.writer.wptr < t.params.obufCap := by omega
    obtain ⟨u, hexec, hwo, hem⟩ := execFlush_room h.opened h.emitted hroom
    obtain ⟨v, hexec', -, hptr, hout⟩ := execFlush_packs h.opened h.rest hroom
    obtain rfl := Host.Outcome.next.inj (hexec'.symm.trans hexec)
    have hpad : padLength (encodeBits s.input).length = (8 - t.writer.wcnt.val) % 8 := by
      rw [padLength, hlen]
      omega
    rw [h.written, ← hpad] at hout
    rw [hexec, andThen_running _ (by rw [hwo]; simp [hp])] at hstep
    refine .of_step hstep (encodeEnds_completeEncode hcap ?_ ?_ ?_ hem (by omega) (by omega) hout).completes
    · rw [hwo]; exact h.ibuf
    · rw [hwo]; exact h.inLen
    · rw [hwo]; exact hh

/-- E_LEN for the empty input (43_encode.md R163, R166). -/
theorem lenPhase_empty (h : EncodeWrote s [] t) (hp : t.phase = .eLen) (hh : t.hdrBits = 0)
    (hempty : s.input = []) : EncodeCompletes s t := by
  have h0 : t.regs.inLen = 0 := h.inLen.trans ((input_eq_nil_iff s).mp hempty)
  have hstep := step_eLen h.silent hp
  rw [if_pos h0, h0] at hstep
  have hbits : encodeBits s.input = bitsOf 32 0 := by rw [hempty, encodeBits_nil]
  exact h.writePhase (by rw [hp]; decide) hstep (hbits ▸ List.prefix_rfl) fun wr m _ hu =>
    flushPhase hcap (hbits ▸ hu.congr rfl) rfl (hh.trans (by rw [hempty, treeSectionBits_nil]))

include hin

/-- E_PAYLOAD with `n` input bytes to come, each of which has its code (43_encode.md R168). -/
theorem payloadPhase {tr : ByteTree} (n : Nat) (h : EncodeWrote s w t) (hp : t.phase = .ePayload)
    (hh : t.hdrBits = treeSectionBits s.input) (hcode : t.CodesOf tr s.input)
    (hn : t.eidx + n = s.regs.inLen.toNat)
    (hw : w ++ (s.input.drop t.eidx).flatMap (fun v => (codeOf tr v).getD []) = encodeBits s.input) :
    EncodeCompletes s t := by
  induction n generalizing w t with
  | zero =>
    have hdrop : s.input.drop t.eidx = [] := List.drop_of_length_le (by rw [length_input]; omega)
    rw [hdrop, List.flatMap_nil, List.append_nil] at hw
    subst hw
    exact .of_step (step_ePayload_end h.silent hp (by rw [h.inLen]; omega))
      (flushPhase hcap (h.congr rfl) rfl hh)
  | succ n ih =>
    have hlt : t.eidx < s.regs.inLen.toNat := by omega
    rw [drop_input s hlt, List.flatMap_cons, ← List.append_assoc] at hw
    obtain ⟨hc, hne⟩ := hcode (s.ibufByte t.eidx) (List.mem_of_mem_drop (drop_input s hlt ▸ List.mem_cons_self ..))
    have hstep := step_ePayload_byte h.silent hp (by rwa [h.inLen]) (by rw [h.params]; omega)
    rw [h.ibufByte, if_neg hne] at hstep
    rw [hc, Option.getD_some] at hw
    exact h.writePhase (by rw [hp]; decide) hstep ⟨_, hw⟩ fun wr m _ hu =>
      ih (hu.congr rfl) hp hh hcode (by simp only; omega) hw

/-- E_TREE, the root being that of the reference's tree (43_encode.md R167). -/
theorem treePhase {tr : ByteTree} (h : EncodeWrote s (bitsOf 32 s.input.length) t) (hp : t.phase = .eTree)
    (htree : t.arena.tree t.arena.root = some tr) (hhuff : huffmanTree s.input = some tr)
    (hcode : t.CodesOf tr s.input) : EncodeCompletes s t := by
  have hstep := step_eTree h.silent hp
  rw [exec_writeTree htree] at hstep
  have hbits := encodeBits_of_tree hhuff
  refine h.writePhase (by rw [hp]; decide) hstep ⟨_, hbits.symm⟩ fun wr m hwb hu => ?_
  refine payloadPhase hcap hin s.regs.inLen.toNat (hu.congr rfl) rfl ?_ hcode (Nat.zero_add _)
    hbits.symm
  rw [treeSectionBits_of_tree hhuff]
  exact Nat.sub_eq_of_eq_add' hwb

/-- E_LEN for an input that is not empty (43_encode.md R166). -/
theorem lenPhase {tr : ByteTree} (h : EncodeWrote s [] t) (hp : t.phase = .eLen)
    (htree : t.arena.tree t.arena.root = some tr) (hhuff : huffmanTree s.input = some tr)
    (hcode : t.CodesOf tr s.input) : EncodeCompletes s t := by
  have hne : s.input ≠ [] := fun h0 => by
    rw [h0, huffmanTree_nil] at hhuff
    cases hhuff
  have hpre : bitsOf 32 s.input.length <+: encodeBits s.input := by
    rw [encodeBits_of_tree hhuff, List.append_assoc]
    exact List.prefix_append ..
  have hstep := step_eLen h.silent hp
  rw [h.inLen, if_neg (mt (input_eq_nil_iff s).mpr hne), ← length_input] at hstep
  exact h.writePhase (by rw [hp]; decide) hstep hpre fun wr m _ hu =>
    treePhase hcap hin (hu.congr rfl) rfl htree hhuff hcode

/-- E_DERIVE: no value stands at two leaves, so VISIT's paths are the reference's codes (43_encode.md R164). -/
theorem derivePhase {tr : ByteTree} (h : EncodeWrote s [] t) (hp : t.phase = .eDerive)
    (htree : t.arena.tree t.arena.root = some tr) (hhuff : huffmanTree s.input = some tr)
    (hvals : tr.values.Perm (present s.input)) : EncodeCompletes s t := by
  obtain ⟨u, hexec, hu⟩ := exec_derive htree
  have hstep := step_eDerive h.silent hp
  have hcode : u.CodesOf tr s.input := fun v hv => by
    obtain ⟨hread, hpos, -⟩ := hu.codes v (hvals.mem_iff.mpr (mem_present.mpr hv))
    exact ⟨codeOf_of_readCode (hvals.nodup_iff.mpr (nodup_present _)) hread (hu.single v),
      List.ne_nil_of_length_pos hpos⟩
  rw [hu.frame] at hexec hcode
  rw [hexec, thenPhase, andThen_running _ (by simp [hp])] at hstep
  exact .of_step hstep (lenPhase hcap hin (h.congr rfl) rfl htree hhuff hcode)

/-- E_BUILD, the input being counted and not empty (43_encode.md R164). -/
theorem buildPhase (h : EncodeWrote s [] t) (hp : t.phase = .eBuild) (hcnt : t.arena.nodeCnt = 0) (hpq : t.pq = [])
    (hd : t.Counts s.input) (hne : s.input ≠ []) : EncodeCompletes s t := by
  obtain ⟨u, x, hexec, hframe, hroot, hf, hvals, href⟩ := exec_build hcnt hpq hd hne
  obtain ⟨-, hhuff⟩ := href (by rw [length_input]; exact s.regs.inLen.isLt)
  have hstep := step_eBuild h.silent hp
  have htree : u.arena.tree u.arena.root = some x.tree := hroot ▸ hf.tree.1
  rw [hframe] at hexec
  rw [hexec, thenPhase, andThen_running _ (by simp [hp])] at hstep
  exact .of_step hstep (derivePhase hcap hin (h.congr rfl) rfl htree hhuff hvals)

/-- E_COUNT of an input that is not empty (43_encode.md R164). -/
theorem countPhase (h : EncodeWrote s [] t) (hp : t.phase = .eCount) (hcnt : t.arena.nodeCnt = 0) (hpq : t.pq = [])
    (h0 : ∀ v, t.freqAt v = 0) (hne : s.input ≠ []) : EncodeCompletes s t := by
  obtain ⟨f, k, hrun, hd⟩ := countBytes_counts (by rwa [h.inLen, h.params]) h0
  rw [h.input] at hd
  have hexec : exec .count t = .next { t with freq := f, eidx := k, result := .nothing } :=
    congrArg (OpResult.finish _) hrun
  have hstep := step_eCount h.silent hp
  rw [hexec, thenPhase, andThen_running _ (by simp [hp])] at hstep
  exact .of_step hstep (buildPhase hcap hin (h.congr rfl) rfl hcnt hpq hd hne)

/-- E_CHECK of an input that fits IBUF (43_encode.md R162, R163). -/
theorem checkPhase (h : EncodeWrote s [] t) (hp : t.phase = .eCheck) (hcnt : t.arena.nodeCnt = 0) (hpq : t.pq = [])
    (h0 : ∀ v, t.freqAt v = 0) (hh : t.hdrBits = 0) : EncodeCompletes s t := by
  have hstep := step_eCheck h.silent hp
  rw [phaseECheck, if_neg (by rw [h.inLen, h.params]; omega), h.inLen] at hstep
  by_cases hempty : s.input = []
  · rw [if_pos ((input_eq_nil_iff s).mp hempty)] at hstep
    exact .of_step hstep (lenPhase_empty hcap (h.congr rfl) rfl hh hempty)
  · rw [if_neg (mt (input_eq_nil_iff s).mpr hempty)] at hstep
    exact .of_step hstep (countPhase hcap hin (h.congr rfl) rfl hcnt hpq h0 hempty)

end Phases

/-- The start of an ENCODE (43_encode.md R160). -/
theorem start (hs : s.Silent) : EncodeWrote s [] (enterPhase .eCheck (clearInternal s)) where
  params := rfl
  regs := rfl
  ibuf := rfl
  silent := hs
  opened := rfl
  written := rfl
  rest _ _ := BitVec.getLsbD_zero
  emitted _ ha := absurd ha (Nat.not_lt_zero _)
  fits := Nat.zero_le _

end EncodeWrote

/-- Settles O46: the ENCODE completes from E_CHECK, which its start enters with all counts and tables empty. -/
theorem encodeComputesEncode : Obligations.EncodeComputesEncode := by
  unfold Obligations.EncodeComputesEncode
  intro s hlegal hb hs hin
  obtain ⟨-, -, -, hcap⟩ := hlegal
  obtain ⟨k, t, hrun, hphase, hibuf, hlen, hdone, hover⟩ := EncodeWrote.checkPhase (by omega) hin
    (EncodeWrote.start hs) rfl rfl rfl (fun v => by simp [State.freqAt]) rfl
  have hstart : startCommand .eCheck s = enterPhase .eCheck (clearInternal s) :=
    if_neg (by rw [isBusy_eq_false hb]; decide)
  exact ⟨_, k, t, congrArg Host.Outcome.next hstart, hrun, hphase, hibuf, hlen, hdone, hover⟩

end Sys2Proof.Machine
end

section
/-! PROOFS. The reference's decoder (44_decode.md R194): what it makes of the sections of a stream, the bound its input
sets on its output (O53), and what it makes of a stream of the encoder, whole and cut short (O54). -/

namespace Sys2Proof

/-! ### Bits and trees -/

theorem unpack_take (k : Nat) (bs : List Byte) : unpack (bs.take k) = (unpack bs).take (8 * k) := by
  induction k generalizing bs with
  | zero => rfl
  | succ k ih =>
    cases bs with
    | nil => simp
    | cons b bs => simp [ih, Nat.mul_succ, List.take_append]

/-- A stream of at least 32 bits begins with a LEN field (30_encoding.md R85). -/
theorem exists_eq_bitsOf_append {bs : Bits} (h : 32 ≤ bs.length) :
    ∃ (n : Word) (x : Bits), bs = bitsOf 32 n.toNat ++ x := by
  have hlen : (bs.take 32).length = 32 := by rw [List.length_take]; omega
  exact ⟨BitVec.ofNat 32 (valueOf (bs.take 32)), bs.drop 32, by rw [bits_of_word hlen, List.take_append_drop]⟩

theorem word_toNat_eq_zero_iff {n : Word} : n.toNat = 0 ↔ n = 0 := BitVec.toNat_inj (y := 0)

theorem ByteTree.size_add_one (t : ByteTree) : t.size + 1 = 2 * t.leaves := by
  induction t with
  | leaf v => rfl
  | node l r ihl ihr => simp only [size, leaves]; omega

/-- No tree section is shorter than the nine bits of one leaf (30_encoding.md R86). -/
theorem ByteTree.nine_le_length_ser (t : ByteTree) : 9 ≤ t.ser.length := by
  have := t.leaves_pos
  rw [t.length_ser]
  omega

/-- A tree section fits STAT_HDR_BITS: it has at most 256 leaves. -/
theorem ByteTree.length_ser_lt {t : ByteTree} (h : t.size ≤ 511) : t.ser.length < 2 ^ 32 := by
  have := t.size_add_one
  rw [t.length_ser]
  omega

/-- What the tree section reads is a `ser(t)` of at most 511 nodes (30_encoding.md R88). -/
theorem readTreeSection_eq_some {bs x : Bits} {t : ByteTree} (h : readTreeSection bs = some (t, x)) :
    bs = t.ser ++ x ∧ t.size ≤ 511 := by
  obtain ⟨⟨t', used, x'⟩, e, ht⟩ := Option.map_eq_some_iff.mp h
  cases ht
  obtain ⟨hbits, rfl, hfit, -⟩ := readTreeBits_eq_some e (Nat.zero_le _)
  exact ⟨hbits, (Nat.zero_add _).symm.trans_le hfit⟩

/-- A tree section cut short is none: what it read would be the whole section, and what is missing would be left
over. -/
theorem readTreeSection_eq_none {bs y : Bits} {t : ByteTree} (ht : t.size ≤ 511) (h : bs ++ y = t.ser) (hy : y ≠ []) :
    readTreeSection bs = none := by
  by_contra hsome
  obtain ⟨⟨t', x⟩, e⟩ := Option.ne_none_iff_exists'.mp hsome
  obtain ⟨rfl, ht'⟩ := readTreeSection_eq_some e
  have whole := treeSectionIsSelfDelimiting t [] ht
  rw [List.append_nil, ← h, List.append_assoc, treeSectionIsSelfDelimiting t' _ ht'] at whole
  exact hy (List.append_eq_nil_iff.mp (Prod.mk.inj (Option.some.inj whole)).2).2

theorem ByteTree.length_follow_le {t : ByteTree} {bs rest : Bits} {v : Byte} (h : t.follow bs = some (v, rest)) :
    rest.length ≤ bs.length := by
  induction t generalizing bs with
  | leaf w => cases h; exact le_rfl
  | node l r ihl ihr =>
    cases bs with
    | nil => cases h
    | cons b bs =>
      cases b with
      | false => exact (ihl h).trans (Nat.le_succ _)
      | true => exact (ihr h).trans (Nat.le_succ _)

/-- A CODE has at least one bit (30_encoding.md R90). -/
theorem ByteTree.length_readCode_lt {t : ByteTree} {bs rest : Bits} {v : Byte} (h : t.readCode bs = some (v, rest)) :
    rest.length < bs.length := by
  cases bs with
  | nil => cases t <;> cases h
  | cons b bs =>
    cases t with
    | leaf w => cases h; exact Nat.lt_succ_self _
    | node l r =>
      cases b with
      | false => exact Nat.lt_succ_of_le (length_follow_le (t := l) h)
      | true => exact Nat.lt_succ_of_le (length_follow_le (t := r) h)

end Sys2Proof

namespace Sys2Proof.Machine.Reference

/-! ### The sections of a stream -/

section Sections

variable (cap : Nat) {stream : List Byte} {n : Word} {x payload : Bits} {t : ByteTree}

theorem decodeBytes_short (h : (unpack stream).length < 32) : decodeBytes cap stream = .error .corruptHeader := if_pos h

/-- A stream that begins with a LEN field is decoded as the sections after it say. -/
theorem decodeBytes_of_len (h : unpack stream = bitsOf 32 n.toNat ++ x) :
    decodeBytes cap stream = if n = 0 then .ok [] else
      (readTreeSection x).elim (.error .corruptHeader) fun p => decodeSymbols cap p.1 n.toNat 0 p.2 := by
  have hlen : ¬ (bitsOf 32 n.toNat ++ x).length < 32 := by simp
  simp only [decodeBytes, h, if_neg hlen, List.take_left' (length_bitsOf 32 _), List.drop_left' (length_bitsOf 32 _),
    valueOf_bitsOf, Nat.mod_eq_of_lt n.isLt, word_toNat_eq_zero_iff]
  congr 1
  cases readTreeSection x <;> rfl

variable (h : unpack stream = bitsOf 32 n.toNat ++ x)
include h

theorem decodeBytes_empty (hn : n = 0) : decodeBytes cap stream = .ok [] := by rw [decodeBytes_of_len cap h, if_pos hn]

theorem decodeBytes_noTree (hn : n ≠ 0) (ht : readTreeSection x = none) :
    decodeBytes cap stream = .error .corruptHeader := by
  rw [decodeBytes_of_len cap h, if_neg hn, ht, Option.elim_none]

theorem decodeBytes_tree (hn : n ≠ 0) (ht : readTreeSection x = some (t, payload)) :
    decodeBytes cap stream = decodeSymbols cap t n.toNat 0 payload := by
  rw [decodeBytes_of_len cap h, if_neg hn, ht, Option.elim_some]

end Sections

section Symbols

variable {cap n k : Nat} {t : ByteTree} {bs rest : Bits} {v : Byte}

theorem decodeSymbols_noCode (h : t.readCode bs = none) :
    decodeSymbols cap t (n + 1) k bs = .error .truncatedPayload := by
  simp only [decodeSymbols, h]

theorem decodeSymbols_full (h : t.readCode bs = some (v, rest)) (hk : cap ≤ k) :
    decodeSymbols cap t (n + 1) k bs = .error .outputOverflow := by
  simp only [decodeSymbols, h, if_pos hk]

theorem decodeSymbols_code (h : t.readCode bs = some (v, rest)) (hk : k < cap) :
    decodeSymbols cap t (n + 1) k bs = (decodeSymbols cap t n (k + 1) rest).map (v :: ·) := by
  simp only [decodeSymbols, h, if_neg (Nat.not_le.mpr hk)]

/-- As many symbols are decoded as LEN says, from at least one bit each (44_decode.md R189, R196). -/
theorem length_of_decodeSymbols {out : List Byte} (h : decodeSymbols cap t n k bs = .ok out) :
    out.length = n ∧ n ≤ bs.length := by
  induction n generalizing k bs out with
  | zero => cases h; exact ⟨rfl, Nat.zero_le _⟩
  | succ n ih =>
    cases hread : t.readCode bs with
    | none => rw [decodeSymbols_noCode hread] at h; cases h
    | some p =>
      rcases Nat.lt_or_ge k cap with hk | hk
      · rw [decodeSymbols_code hread hk] at h
        cases hsyms : decodeSymbols cap t n (k + 1) p.2 with
        | error e => rw [hsyms] at h; cases h
        | ok syms =>
          rw [hsyms] at h
          cases h
          obtain ⟨rfl, hle⟩ := ih hsyms
          exact ⟨rfl, hle.trans_lt (ByteTree.length_readCode_lt hread)⟩
      · rw [decodeSymbols_full hread hk] at h
        cases h

end Symbols

/-- A stream that decodes has a LEN field, which holds the length of the output, and, where that is not 0, a tree
section and the codes of the output. -/
theorem decodeBytes_eq_ok {cap : Nat} {stream out : List Byte} (h : decodeBytes cap stream = .ok out) :
    ∃ (n : Word) (x : Bits), unpack stream = bitsOf 32 n.toNat ++ x ∧ n.toNat = out.length ∧
      (n ≠ 0 → ∃ t payload, readTreeSection x = some (t, payload) ∧ out.length ≤ payload.length) := by
  by_cases hshort : (unpack stream).length < 32
  · rw [decodeBytes_short cap hshort] at h
    cases h
  obtain ⟨n, x, hbits⟩ := exists_eq_bitsOf_append (Nat.not_lt.mp hshort)
  refine ⟨n, x, hbits, ?_⟩
  by_cases hn : n = 0
  · rw [decodeBytes_empty cap hbits hn] at h
    cases h
    exact ⟨by rw [hn]; rfl, fun h0 => absurd hn h0⟩
  cases ht : readTreeSection x with
  | none =>
    rw [decodeBytes_noTree cap hbits hn ht] at h
    cases h
  | some p =>
    rw [decodeBytes_tree cap hbits hn ht] at h
    obtain ⟨hlen, hle⟩ := length_of_decodeSymbols h
    exact ⟨hlen.symm, fun _ => ⟨p.1, p.2, rfl, hlen.trans_le hle⟩⟩

/-- Settles O53: 32 bits of LEN, nine of the least tree section, and one for each symbol. -/
theorem decodeIsBounded : Obligations.DecodeIsBounded := by
  unfold Obligations.DecodeIsBounded
  intro cap stream out hout hne
  obtain ⟨n, x, hbits, hlen, hsections⟩ := decodeBytes_eq_ok hout
  obtain ⟨t, payload, ht, hle⟩ := hsections fun h0 =>
    hne (List.length_eq_zero_iff.mp (hlen.symm.trans (congrArg BitVec.toNat h0)))
  obtain ⟨rfl, -⟩ := readTreeSection_eq_some ht
  have := t.nine_le_length_ser
  rw [← length_unpack, hbits]
  simp only [List.length_append, length_bitsOf]
  omega

/-! ### The codes of the encoder are read back -/

theorem exists_pathTo {t : ByteTree} {v : Byte} (h : v ∈ t.values) :
    ∃ p, pathTo v t = some p ∧ t.follow p = some (v, []) := by
  induction t with
  | leaf w =>
    obtain rfl := List.mem_singleton.mp h
    exact ⟨[], if_pos rfl, rfl⟩
  | node l r ihl ihr =>
    by_cases hl : v ∈ l.values
    · obtain ⟨p, e, hp⟩ := ihl hl
      exact ⟨false :: p, by rw [pathTo, e], hp⟩
    · obtain ⟨p, e, hp⟩ := ihr ((List.mem_append.mp h).resolve_left hl)
      exact ⟨true :: p, by rw [pathTo, pathTo_eq_none hl, e]; rfl, hp⟩

/-- Every value of a tree has a code, which the tree reads as that value. -/
theorem exists_codeOf {t : ByteTree} {v : Byte} (h : v ∈ t.values) :
    ∃ c, codeOf t v = some c ∧ t.readCode c = some (v, []) := by
  cases t with
  | leaf w =>
    obtain rfl := List.mem_singleton.mp h
    exact ⟨[false], if_pos rfl, rfl⟩
  | node l r => exact exists_pathTo h

/-- The payload: the codes of the input, one after another (43_encode.md R168). -/
def payloadBits (t : ByteTree) (d : List Byte) : Bits := d.flatMap fun v => (codeOf t v).getD []

theorem readCode_payloadBits {t : ByteTree} {v : Byte} (d : List Byte) (hv : v ∈ t.values) (x : Bits) :
    t.readCode (payloadBits t (v :: d) ++ x) = some (v, payloadBits t d ++ x) := by
  obtain ⟨c, hc, hread⟩ := exists_codeOf hv
  rw [payloadBits, List.flatMap_cons, hc, Option.getD_some, List.append_assoc]
  exact ByteTree.readCode_append _ hread

/-- The payload decodes to the input, whatever follows it. -/
theorem decodeSymbols_payloadBits {cap k : Nat} {t : ByteTree} {d : List Byte} (hd : ∀ v ∈ d, v ∈ t.values)
    (hroom : k + d.length ≤ cap) (x : Bits) : decodeSymbols cap t d.length k (payloadBits t d ++ x) = .ok d := by
  induction d generalizing k with
  | nil => rfl
  | cons v d ih =>
    obtain ⟨hv, hd⟩ := List.forall_mem_cons.mp hd
    rw [List.length_cons] at hroom
    rw [List.length_cons, decodeSymbols_code (readCode_payloadBits d hv x) (by omega), ih hd (by omega)]
    rfl

/-- A payload cut short is TRUNCATED_PAYLOAD (44_decode.md R190): each code it reads is the one written there, so the
missing bits are missed at last. -/
theorem decodeSymbols_truncated {cap k : Nat} {t : ByteTree} {d : List Byte} (hd : ∀ v ∈ d, v ∈ t.values)
    (hroom : k + d.length ≤ cap) {bs y : Bits} (h : bs ++ y = payloadBits t d) (hy : y ≠ []) :
    decodeSymbols cap t d.length k bs = .error .truncatedPayload := by
  induction d generalizing k bs with
  | nil => exact absurd (List.append_eq_nil_iff.mp h).2 hy
  | cons v d ih =>
    obtain ⟨hv, htail⟩ := List.forall_mem_cons.mp hd
    rw [List.length_cons] at hroom
    cases hread : t.readCode bs with
    | none => exact decodeSymbols_noCode hread
    | some p =>
      obtain ⟨w, rest⟩ := p
      have hwhole := readCode_payloadBits d hv []
      rw [List.append_nil, ← h, ByteTree.readCode_append y hread, List.append_nil] at hwhole
      obtain ⟨rfl, hrest⟩ := Prod.mk.inj (Option.some.inj hwhole)
      rw [List.length_cons, decodeSymbols_code hread (by omega), ih htail (by omega) hrest]
      rfl

/-! ### The values of the reference's tree -/

/-- Merging a queue keeps the values of its trees. -/
theorem mergeEntries_values {n next : Nat} {q : List Entry} {t : ByteTree} (h : mergeEntries n next q = some t) :
    t.values.Perm (q.flatMap fun e => e.tree.values) := by
  induction n generalizing next q with
  | zero => cases h
  | succ n ih =>
    match q with
    | [] => cases h
    | [e] => cases h; simp
    | a :: b :: rest =>
      refine (ih h).trans (((insertEntry_perm _ rest).flatMap_right _).trans (.of_eq ?_))
      simp [ByteTree.values]

/-- The tree of an input has its values (40_frequency_tree_code.md R105, R110). -/
theorem huffmanTree_values {d : List Byte} {t : ByteTree} (h : huffmanTree d = some t) : t.values.Perm (present d) :=
  (mergeEntries_values h).trans
    (((foldr_insertEntry_perm _).flatMap_right _).trans (.of_eq (values_leafEntries d 0 _)))

/-- The tree of an input that is not empty: its values and its size. -/
theorem exists_huffmanTree {d : List Byte} (hd : d ≠ []) :
    ∃ t, huffmanTree d = some t ∧ (∀ v ∈ d, v ∈ t.values) ∧ t.size ≤ 511 ∧
      t.ser.length = 10 * (present d).length - 1 := by
  obtain ⟨t, ht, hleaves⟩ := huffmanTree_leaves hd
  have hle : (present d).length ≤ 256 := (List.length_filter_le _ _).trans_eq (by simp)
  have hsize := t.size_add_one
  exact ⟨t, ht, fun v hv => (huffmanTree_values ht).mem_iff.mpr (mem_present.mpr hv), by omega,
    by rw [t.length_ser, hleaves]⟩

/-! ### The stream of the encoder -/

theorem unpack_encodeBytes (d : List Byte) :
    unpack (encodeBytes d) = encodeBits d ++ zeros (padLength (encodeBits d).length) :=
  unpack_pack (((encodeBits d).length + 7) / 8) _ (by rw [List.length_append, length_zeros, padLength]; omega)

theorem encodeBits_eq {d : List Byte} {t : ByteTree} (h : huffmanTree d = some t) :
    encodeBits d = bitsOf 32 d.length ++ (t.ser ++ payloadBits t d) :=
  (encodeBits_of_tree h).trans (List.append_assoc ..)

/-- The length of an input that fits LEN, as the field holds it. -/
theorem toNat_length {d : List Byte} (h : d.length < 2 ^ 32) : (BitVec.ofNat 32 d.length).toNat = d.length :=
  Nat.mod_eq_of_lt h

theorem ofNat_length_ne_zero {d : List Byte} (h : d.length < 2 ^ 32) (hd : d ≠ []) : BitVec.ofNat 32 d.length ≠ 0 :=
  fun e => hd (List.length_eq_zero_iff.mp ((toNat_length h).symm.trans (congrArg BitVec.toNat e)))

/-- The reference decodes what the reference encodes (44_decode.md R195). -/
theorem decodeBytes_encodeBytes {cap : Nat} {d : List Byte} (hlen : d.length < 2 ^ 32) (hcap : d.length ≤ cap) :
    decodeBytes cap (encodeBytes d) = .ok d := by
  by_cases hd : d = []
  · rw [hd, encodeBytes_nil]
    rfl
  obtain ⟨t, ht, hvals, hsize, -⟩ := exists_huffmanTree hd
  have hbits := unpack_encodeBytes d
  rw [encodeBits_eq ht, List.append_assoc, List.append_assoc, ← toNat_length hlen] at hbits
  rw [decodeBytes_tree cap hbits (ofNat_length_ne_zero hlen hd) (treeSectionIsSelfDelimiting t _ hsize),
    toNat_length hlen, decodeSymbols_payloadBits hvals (by omega)]

/-- The bits of a stream cut after LEN and before its last byte. -/
theorem unpack_take_encodeBytes {d : List Byte} {t : ByteTree} {k : Nat} (ht : huffmanTree d = some t)
    (hlen : d.length < 2 ^ 32) (h4 : 4 ≤ k) (hk : 8 * k ≤ (encodeBits d).length) :
    unpack ((encodeBytes d).take k) =
      bitsOf 32 (BitVec.ofNat 32 d.length).toNat ++ (t.ser ++ payloadBits t d).take (8 * k - 32) := by
  rw [unpack_take, unpack_encodeBytes, List.take_append_of_le_length hk, encodeBits_eq ht, toNat_length hlen,
    List.take_append, length_bitsOf, List.take_of_length_le (by rw [length_bitsOf]; omega)]

/-- Settles O54: a cut leaves the sections before it whole and the one it falls into short. -/
theorem truncationIsDetected : Obligations.TruncationIsDetected := by
  unfold Obligations.TruncationIsDetected
  refine ⟨fun cap k hk => decodeBytes_short cap ?_, fun d cap k hd hlen hcap => ?_⟩
  · rw [length_unpack, List.length_take]
    omega
  obtain ⟨t, ht, hvals, hsize, hser⟩ := exists_huffmanTree hd
  have hn := ofNat_length_ne_zero hlen hd
  have htotal : (encodeBits d).length = 32 + (t.ser.length + (payloadBits t d).length) := by
    rw [encodeBits_eq ht, List.length_append, length_bitsOf, List.length_append]
  have hbytes := length_encodeBytes d
  rw [← hser]
  refine ⟨fun hk => ?_, fun hk hklen => ?_⟩
  · by_cases h4 : 4 ≤ k
    · have hbits := unpack_take_encodeBytes ht hlen h4 (by omega)
      rw [List.take_append_of_le_length (by omega)] at hbits
      exact decodeBytes_noTree cap hbits hn
        (readTreeSection_eq_none hsize (List.take_append_drop ..) (by rw [ne_eq, List.drop_eq_nil_iff]; omega))
    · refine decodeBytes_short cap ?_
      rw [length_unpack, List.length_take]
      omega
  · have hbits := unpack_take_encodeBytes ht hlen (k := k) (by omega) (by omega)
    rw [List.take_append, List.take_of_length_le (l := t.ser) (by omega)] at hbits
    rw [decodeBytes_tree cap hbits hn (treeSectionIsSelfDelimiting t _ hsize), toNat_length hlen]
    exact decodeSymbols_truncated hvals (by omega) (List.take_append_drop ..)
      (by rw [ne_eq, List.drop_eq_nil_iff]; omega)

end Sys2Proof.Machine.Reference
end

section
/-! PROOFS. WALK (44_decode.md R186, R187, R190): it takes one code of the tree below ROOT from the bits ahead, or finds
their end (O36). -/

namespace Sys2Proof.Machine

open OpResult

/-- From `s` to `t` one code has been read: the bits `rest` are left and RBITS has advanced by those taken. -/
structure CodeRead (s t : State) (rest : Bits) : Prop where
  frame : WalkOnly s t
  ahead : t.bitsAhead = rest
  rbits : t.reader.rbits + rest.length = s.reader.rbits + s.bitsAhead.length

/-- The operation reads from `s` the code that a tree finds in the bits ahead, or none where they end first. -/
def OpResult.ReadsCode (x : OpResult Byte) (s : State) : Option (Byte × Bits) → Prop
  | some (v, rest) => ∃ t, x = .ok v t ∧ CodeRead s t rest
  | none => ∃ t, x = .raised .truncatedPayload t

/-- A bit taken before the rest of a code belongs to it, and where CUR stands does not matter. -/
theorem OpResult.ReadsCode.of_readBit {x : OpResult Byte} {s : State} {r : Reader} {b : Bool} {bs : Bits}
    {o : Option (Byte × Bits)} {i : NodeId} (hs : s.bitsAhead = b :: bs)
    (ha : State.bitsAhead { s with reader := r } = bs) (hr : r.rbits = s.reader.rbits + 1)
    (h : x.ReadsCode (setCur i { s with reader := r }) o) : x.ReadsCode s o := by
  cases o with
  | none => exact h
  | some p =>
    obtain ⟨t, e, ht⟩ := h
    refine ⟨t, e, WalkOnly.trans (t := setCur i { s with reader := r }) rfl ht.frame, ht.ahead, ?_⟩
    have hbits : t.reader.rbits + p.2.length = r.rbits + (State.bitsAhead { s with reader := r }).length := ht.rbits
    rw [hbits, ha, hr, hs, List.length_cons]
    omega

/-- The node a bit leads to, `0` left and `1` right. -/
def Arena.child (a : Arena) (i : NodeId) (b : Bool) : NodeId := if b then a.node[i].right else a.node[i].left

/-- The loop of WALK at an internal node, the next bit being read. -/
theorem walkLoop_node {rounds : Nat} {s : State} {r : Reader} {b : Bool}
    (hleaf : ¬ s.arena.node[s.decoder.cur].leaf = true) (e : readBit s = .ok (some b) { s with reader := r }) :
    walkLoop (rounds + 1) s = walkLoop rounds (setCur (s.arena.child s.decoder.cur b) { s with reader := r }) := by
  rw [walkLoop, if_neg hleaf, e, ok_bind]
  rfl

/-- The loop of WALK follows the tree below CUR; a round reads a bit, so that one round more than bits ahead is
enough. -/
theorem walkLoop_readsCode {rounds levels : Nat} {s : State} {tr : ByteTree}
    (hcap : s.regs.inLen.toNat ≤ s.params.ibufCap) (h : s.arena.treeOf levels s.decoder.cur = some tr)
    (hlen : s.bitsAhead.length < rounds) : (walkLoop rounds s).ReadsCode s (tr.follow s.bitsAhead) := by
  induction rounds generalizing levels s tr with
  | zero => exact absurd hlen (Nat.not_lt_zero _)
  | succ rounds ih =>
    cases levels with
    | zero => cases h
    | succ levels =>
      by_cases hleaf : s.arena.node[s.decoder.cur].leaf = true
      · rw [Arena.treeOf_leaf hleaf h]
        exact ⟨s, if_pos hleaf, WalkOnly.refl s, rfl, rfl⟩
      · obtain ⟨l, r, rfl, hl, hr⟩ := Arena.treeOf_node hleaf h
        cases hs : s.bitsAhead with
        | nil => exact ⟨s, by rw [walkLoop, if_neg hleaf, readBit_endOfStream hs, ok_bind]⟩
        | cons b bs =>
          obtain ⟨rd, e, ha, hrb⟩ := readBit_next hcap hs
          have hchild : s.arena.treeOf levels (s.arena.child s.decoder.cur b) = some (if b then r else l) := by
            cases b <;> assumption
          have hfollow : (if b then r else l).follow bs = (ByteTree.node l r).follow (b :: bs) := by cases b <;> rfl
          have hshort : bs.length < rounds := by simpa [hs] using hlen
          have hrest := ih (s := setCur (s.arena.child s.decoder.cur b) { s with reader := rd }) hcap hchild
            (lt_of_eq_of_lt (congrArg List.length ha) hshort)
          rw [walkLoop_node hleaf e, ← hfollow]
          exact .of_readBit hs ha hrb (ha ▸ hrest)

theorem length_bitsAhead (s : State) : s.bitsAhead.length = s.bitsLeft := by
  simp [State.bitsAhead, State.bitsLeft, Reader.currentBits, length_input]

/-- WALK reads one code of the tree below ROOT. -/
theorem walk_readsCode {s : State} {tr : ByteTree} (hcap : s.regs.inLen.toNat ≤ s.params.ibufCap)
    (h : s.arena.tree s.arena.root = some tr) : (walk s).ReadsCode s (tr.readCode s.bitsAhead) := by
  unfold walk
  by_cases hleaf : s.arena.node[s.arena.root].leaf = true
  · rw [if_pos hleaf, Arena.treeOf_leaf hleaf h]
    cases hs : s.bitsAhead with
    | nil => exact ⟨_, by rw [readBit_endOfStream (s := setCur s.arena.root s) hs, ok_bind]⟩
    | cons b bs =>
      obtain ⟨r, e, ha, hr⟩ := readBit_next (s := setCur s.arena.root s) hcap hs
      refine ⟨{ setCur s.arena.root s with reader := r }, by rw [e, ok_bind]; rfl, rfl, ha, ?_⟩
      rw [hs, List.length_cons]
      simp only [hr, setCur_reader]
      omega
  · obtain ⟨l, r, rfl, -, -⟩ := Arena.treeOf_node hleaf h
    rw [if_neg hleaf]
    have hloop := walkLoop_readsCode (s := setCur s.arena.root s) (rounds := s.bitsLeft + 1) hcap h
      (Nat.lt_succ_of_le (length_bitsAhead s).le)
    change OpResult.ReadsCode _ _ ((ByteTree.node l r).readCode s.bitsAhead) at hloop
    cases hread : (ByteTree.node l r).readCode s.bitsAhead with
    | none => rw [hread] at hloop; exact hloop
    | some p =>
      rw [hread] at hloop
      obtain ⟨t, e, ht⟩ := hloop
      exact ⟨t, e, (WalkOnly.setCur s _).trans ht.frame, ht.ahead, ht.rbits⟩

/-- The state after a WALK that returned `v`. -/
def walked (r : Reader) (c : NodeId) (v : Byte) (s : State) : State :=
  { s with reader := r, decoder := { s.decoder with cur := c }, result := .byte v }

/-- WALK where a code stands ahead answers its value. -/
theorem exec_walk_reads {s : State} {tr : ByteTree} {v : Byte} {rest : Bits}
    (hcap : s.regs.inLen.toNat ≤ s.params.ibufCap) (h : s.arena.tree s.arena.root = some tr)
    (hread : tr.readCode s.bitsAhead = some (v, rest)) :
    ∃ r c, exec .walk s = .next (walked r c v s) ∧ (walked r c v s).bitsAhead = rest ∧
      r.rbits + rest.length = s.reader.rbits + s.bitsAhead.length := by
  have hwalk := walk_readsCode hcap h
  rw [hread] at hwalk
  obtain ⟨t, e, ht⟩ := hwalk
  have hahead := ht.ahead
  rw [ht.frame] at e hahead
  exact ⟨t.reader, t.decoder.cur, finish_eq_next.mpr (.inl ⟨v, _, e, rfl⟩), hahead, ht.rbits⟩

/-- WALK where the bits end inside a code is TRUNCATED_PAYLOAD (44_decode.md R190). -/
theorem exec_walk_truncated {s : State} {tr : ByteTree} (hcap : s.regs.inLen.toNat ≤ s.params.ibufCap)
    (h : s.arena.tree s.arena.root = some tr) (hread : tr.readCode s.bitsAhead = none) :
    ∃ t, exec .walk s = .next t ∧ FailedWith .truncatedPayload s t := by
  have hwalk := walk_readsCode hcap h
  rw [hread] at hwalk
  obtain ⟨t, e⟩ := hwalk
  have hframe : WalkOnly s t := by
    have := walk_frame s
    rwa [e] at this
  refine ⟨_, finish_eq_next.mpr (.inr ⟨_, t, e, rfl⟩), ?_⟩
  rw [hframe]
  exact failedWith_completeWithError rfl rfl rfl rfl rfl rfl

/-- Settles O36, by what WALK does where a code stands ahead and where none does. -/
theorem walkReadsOneCode : Obligations.WalkReadsOneCode := by
  unfold Obligations.WalkReadsOneCode
  refine fun s tr hcap h => ⟨fun v rest hread => ?_, exec_walk_truncated hcap h⟩
  obtain ⟨r, c, e, ha, hr⟩ := exec_walk_reads hcap h hread
  exact ⟨_, r, c, e, rfl, ha, hr⟩

end Sys2Proof.Machine
end

section
/-! PROOFS. The phases of DECODE, one step each (44_decode.md R180 to R192): D_LEN reads the symbol count (O35). -/

namespace Sys2Proof.Machine

open OpResult

/-! ### One step of the sequencer -/

section Steps

variable {s : State} (hs : s.Silent)
include hs

theorem step_dCheck (hp : s.phase = .dCheck) : step s = phaseDCheck s := by rw [step_silent hs, engineTurn, hp]

theorem step_dLen (hp : s.phase = .dLen) : step s = phaseDLen s := by rw [step_silent hs, engineTurn, hp]

theorem step_dTree (hp : s.phase = .dTree) : step s = phaseDTree s := by rw [step_silent hs, engineTurn, hp]

theorem step_dPayload (hp : s.phase = .dPayload) : step s = phaseDPayload s := by rw [step_silent hs, engineTurn, hp]

end Steps

/-- A failed command runs no more (60_exceptions.md R209). -/
theorem FailedWith.phase_none {k : ErrorKind} {s t : State} (h : FailedWith k s t) : t.phase = .none := h.2.1

/-! ### D_LEN -/

/-- The count `n` read and loaded into SYMREM (44_decode.md R182). -/
def lenLoaded (r : Reader) (n : Word) (s : State) : State :=
  { s with reader := r, decoder := { s.decoder with symrem := n.toNat }, result := .value n.toNat }

theorem step_dLen_short {s : State} (hs : s.Silent) (hp : s.phase = .dLen)
    (hcap : s.regs.inLen.toNat ≤ s.params.ibufCap) (h : s.bitsAhead.length < 32) :
    ∃ t, step s = .next t ∧ FailedWith .corruptHeader s t := by
  obtain ⟨r, e, -, -⟩ := readBitsLoop_short hcap 0 h
  have hexec : exec (.readBits 32) s = .next { s with reader := r, result := .eos } := congrArg (OpResult.finish _) e
  refine ⟨completeWithError .corruptHeader { s with reader := r, result := .eos }, ?_,
    failedWith_completeWithError rfl rfl rfl rfl rfl rfl⟩
  rw [step_dLen hs hp, phaseDLen, hexec, andThen_running _ (by simp [hp])]

theorem step_dLen_read {s : State} {n : Word} {x : Bits} (hs : s.Silent) (hp : s.phase = .dLen)
    (hcap : s.regs.inLen.toNat ≤ s.params.ibufCap) (h : s.bitsAhead = bitsOf 32 n.toNat ++ x) :
    ∃ r, State.bitsAhead { s with reader := r } = x ∧ step s =
      .next (if n = 0 then completeDecode (lenLoaded r n s) else setPhase .dTree (lenLoaded r n s)) := by
  obtain ⟨r, e, ha, -⟩ := readBitsLoop_enough hcap (k := 32) 0 (by simp [h])
  have hvalue : valueFrom 0 (s.bitsAhead.take 32) = n.toNat := by
    rw [h, List.take_left' (length_bitsOf 32 _)]
    exact (valueOf_bitsOf 32 _).trans (Nat.mod_eq_of_lt n.isLt)
  rw [h, List.drop_left' (length_bitsOf 32 _)] at ha
  rw [hvalue] at e
  have hexec : exec (.readBits 32) s = .next { s with reader := r, result := .value n.toNat } :=
    congrArg (OpResult.finish _) e
  have hload : exec (.len (BitVec.ofNat 32 n.toNat)) { s with reader := r, result := .value n.toNat } =
      .next (lenLoaded r n s) := by
    rw [BitVec.ofNat_toNat, BitVec.setWidth_eq]
    rfl
  have h0 : (lenLoaded r n s).decoder.symrem = 0 ↔ n = 0 := word_toNat_eq_zero_iff
  refine ⟨r, ha, ?_⟩
  rw [step_dLen hs hp, phaseDLen, hexec, andThen_running _ (by simp [hp])]
  simp only [hload]
  rw [andThen_running _ (by simp [lenLoaded, hp])]
  simp only [h0]
  exact (apply_ite Host.Outcome.next ..).symm

/-- Settles O35: fewer than 32 bits ahead, a count that is not 0, and a count of 0. -/
theorem lenFieldIsRead : Obligations.LenFieldIsRead := by
  unfold Obligations.LenFieldIsRead
  intro s hp hs _ hcap hh ho
  refine ⟨step_dLen_short hs hp hcap, fun n x hn h => ?_, fun x h => ?_⟩
  · obtain ⟨r, ha, e⟩ := step_dLen_read hs hp hcap h
    rw [if_neg hn] at e
    exact ⟨_, e, rfl, rfl, ha, rfl, rfl, rfl⟩
  · obtain ⟨r, -, e⟩ := step_dLen_read (n := 0) hs hp hcap (h.trans (by rw [← bitsOf_zero]; rfl))
    rw [if_pos rfl] at e
    refine ⟨_, e, rfl, ?_⟩
    simp [completeDecode, lenLoaded, hh, ho]

/-! ### D_TREE -/

theorem step_dTree_rejects {s : State} (hs : s.Silent) (hp : s.phase = .dTree)
    (hcap : s.regs.inLen.toNat ≤ s.params.ibufCap) (hcnt : s.arena.nodeCnt = 0)
    (h : readTreeSection s.bitsAhead = none) : ∃ t, step s = .next t ∧ FailedWith .corruptHeader s t := by
  have hnone : ¬ ∃ tr : ByteTree, tr.size ≤ 511 ∧ tr.ser <+: s.bitsAhead := by
    rintro ⟨tr, hsize, x, hx⟩
    rw [← hx, treeSectionIsSelfDelimiting tr x hsize] at h
    cases h
  obtain ⟨t, e, hf⟩ := (readTreeRejectsTheRest s hcap hcnt).mpr hnone
  refine ⟨t, ?_, hf⟩
  rw [step_dTree hs hp, phaseDTree, e, andThen_completed _ hf.phase_none]

/-- The state after D_TREE has read a tree into node 0 (44_decode.md R184). -/
def treeLoaded (r : Reader) (a : Arena) (d : Nat) (s : State) : State :=
  { s with
    reader := r, arena := { a with root := 0 }, draws := d, result := .node 0
    hdrBits := r.rbits - s.reader.rbits, phase := .dPayload }

theorem Arena.tree_setRoot (a : Arena) (r i : NodeId) : Arena.tree { a with root := r } i = a.tree i := by
  have levels (n : Nat) (i : NodeId) : Arena.treeOf { a with root := r } n i = a.treeOf n i := by
    induction n generalizing i with
    | zero => rfl
    | succ n ih => simp only [Arena.treeOf, ih]
  exact levels _ i

theorem step_dTree_reads {s : State} {tr : ByteTree} {x : Bits} (hs : s.Silent) (hp : s.phase = .dTree)
    (hcap : s.regs.inLen.toNat ≤ s.params.ibufCap) (hcnt : s.arena.nodeCnt = 0)
    (h : readTreeSection s.bitsAhead = some (tr, x)) :
    ∃ r a d, step s = .next (treeLoaded r a d s) ∧ (treeLoaded r a d s).arena.tree 0 = some tr ∧
      (treeLoaded r a d s).bitsAhead = x ∧ (treeLoaded r a d s).hdrBits = tr.ser.length := by
  obtain ⟨hbits, hsize⟩ := readTreeSection_eq_some h
  obtain ⟨_, r, a, d, e, rfl, htree, -, -, ha, hr, -⟩ := readTreeInvertsSer s tr x hcap hcnt hsize hbits
  refine ⟨r, a, d, ?_, (a.tree_setRoot 0 0).trans htree, ha, Nat.sub_eq_of_eq_add' hr⟩
  rw [step_dTree hs hp, phaseDTree, e, andThen_running _ (by simp [hp])]
  rfl

/-! ### D_PAYLOAD -/

/-- D_PAYLOAD after the last symbol (44_decode.md R192). -/
theorem step_dPayload_end {s : State} (hs : s.Silent) (hp : s.phase = .dPayload) (hn : s.decoder.symrem = 0) :
    step s = .next (completeDecode s) := by
  rw [step_dPayload hs hp, phaseDPayload, if_neg (by omega)]

/-- The state after a symbol has been emitted (44_decode.md R185). -/
def symbolEmitted (v : Byte) (s : State) : State :=
  { s with
    obuf := s.obuf.write s.decoder.optr v
    decoder := { s.decoder with optr := s.decoder.optr + 1, symrem := s.decoder.symrem - 1 }
    result := .nothing }

section Payload

variable {s : State} {tr : ByteTree} (hs : s.Silent) (hp : s.phase = .dPayload) (hn : 0 < s.decoder.symrem)
  (hcap : s.regs.inLen.toNat ≤ s.params.ibufCap) (htree : s.arena.tree s.arena.root = some tr)
include hs hp hn hcap htree

theorem step_dPayload_truncated (h : tr.readCode s.bitsAhead = none) :
    ∃ t, step s = .next t ∧ FailedWith .truncatedPayload s t := by
  obtain ⟨t, e, hf⟩ := exec_walk_truncated hcap htree h
  refine ⟨t, ?_, hf⟩
  rw [step_dPayload hs hp, phaseDPayload, if_pos hn, e, andThen_completed _ hf.phase_none]

/-- A symbol is emitted, or overflows the output buffer (44_decode.md R188, R191). -/
theorem step_dPayload_symbol {v : Byte} {rest : Bits} (h : tr.readCode s.bitsAhead = some (v, rest)) :
    (s.decoder.optr < s.params.obufCap ∧ ∃ r c, step s = .next (symbolEmitted v (walked r c v s)) ∧
      (walked r c v s).bitsAhead = rest) ∨
    (s.params.obufCap ≤ s.decoder.optr ∧ ∃ t, step s = .next t ∧ FailedWith .outputOverflow s t) := by
  obtain ⟨r, c, e, ha, -⟩ := exec_walk_reads hcap htree h
  have hstep : step s = (emitSymbol v (walked r c v s)).finish fun _ => .nothing := by
    rw [step_dPayload hs hp, phaseDPayload, if_pos hn, e, andThen_running _ (by simp [walked, hp])]
    rfl
  rcases emitSymbol_cases v (walked r c v s) with ⟨hroom, es⟩ | ⟨hfull, es⟩ <;> rw [es] at hstep
  · exact .inl ⟨hroom, r, c, hstep, ha⟩
  · exact .inr ⟨hfull, _, hstep, failedWith_completeWithError rfl rfl rfl rfl rfl rfl⟩

end Payload

end Sys2Proof.Machine
end

section
/-! PROOFS. DECODE computes `decode(s)` (44_decode.md R194, O47): phase by phase the machine takes the sections of its
input as the reference does; with what the reference makes of the encoder's streams, the round trip (O48). -/

namespace Sys2Proof.Machine

open OpResult Reference

/-! ### The tree section of the input -/

/-- The number of bits of the tree section that a decode reads, 0 where it reads none (44_decode.md R184, R192). -/
def sectionBits (stream : List Byte) : Nat :=
  if valueOf ((unpack stream).take 32) = 0 then 0
  else (readTreeSection ((unpack stream).drop 32)).elim 0 fun p => p.1.ser.length

/-- The bits of the tree section that follows a LEN field. -/
theorem sectionBits_of_len {stream : List Byte} {n : Word} {x : Bits} (h : unpack stream = bitsOf 32 n.toNat ++ x) :
    sectionBits stream = if n = 0 then 0 else (readTreeSection x).elim 0 fun p => p.1.ser.length := by
  simp only [sectionBits, h, List.take_left' (length_bitsOf 32 _), List.drop_left' (length_bitsOf 32 _),
    valueOf_bitsOf, Nat.mod_eq_of_lt n.isLt, word_toNat_eq_zero_iff]

/-! ### The bytes decoded -/

/-- Every byte below OPTR has been written. -/
def State.Decoded (s : State) : Prop := ∀ a, a < s.decoder.optr → s.obuf.known a ≠ none

theorem decoded_symbolEmitted {s : State} (h : s.Decoded) (v : Byte) : (symbolEmitted v s).Decoded := by
  intro a ha
  by_cases he : a = s.decoder.optr
  · simp [symbolEmitted, he]
  · have hlt : a < s.decoder.optr := Nat.lt_of_le_of_ne (Nat.le_of_lt_succ ha) he
    simpa only [symbolEmitted, Memory.known_write_other _ v he] using h a hlt

theorem output_symbolEmitted (v : Byte) (s : State) :
    (symbolEmitted v s).output (s.decoder.optr + 1) = s.output s.decoder.optr ++ [v] := by
  have hbyte (a : Nat) : (symbolEmitted v s).obufByte a = if a = s.decoder.optr then v else s.obufByte a :=
    obufByte_write s _ a v
  rw [output_succ, hbyte, if_pos rfl]
  congr 1
  exact output_congr fun a ha => (hbyte a).trans (if_neg (Nat.ne_of_lt ha))

/-- A symbol in front of those to come, or behind those decoded so far. -/
theorem map_append_map_cons (x : Except ErrorKind (List Byte)) (out : List Byte) (v : Byte) :
    (x.map (v :: ·)).map (out ++ ·) = x.map (out ++ [v] ++ ·) := by
  cases x <;> simp [Except.map]

theorem map_nil_append (x : Except ErrorKind (List Byte)) : x.map ([] ++ ·) = x := by cases x <;> rfl

/-! ### Where a DECODE ends -/

/-- `u` is what DECODE makes of `s` where the decoding is `x` and its tree section has `hdr` bits (44_decode.md R192,
R194). -/
def DecodeEnds (s : State) (hdr : Nat) (x : Except ErrorKind (List Byte)) (u : State) : Prop :=
  u.phase = .none ∧ u.ibuf = s.ibuf ∧ u.regs.inLen = s.regs.inLen ∧
  (∀ out, x = .ok out → u.output out.length = out ∧
    u.regs = { runState := .done, err := 0, inLen := s.regs.inLen, outLen := BitVec.ofNat 32 out.length
               statOrig := BitVec.ofNat 32 out.length, statComp := s.regs.inLen
               statHdrBits := BitVec.ofNat 32 hdr }) ∧
  (∀ k, x = .error k →
    u.regs = { runState := .error, err := k.errCode, inLen := s.regs.inLen, outLen := 0, statOrig := 0, statComp := 0
               statHdrBits := 0 })

/-- A run from `t` ends so. -/
def DecodeCompletes (s : State) (hdr : Nat) (x : Except ErrorKind (List Byte)) (t : State) : Prop :=
  ∃ k u, runSteps k t = .next u ∧ DecodeEnds s hdr x u

theorem DecodeCompletes.of_step {s t u : State} {hdr : Nat} {x : Except ErrorKind (List Byte)} (e : step t = .next u)
    (h : DecodeCompletes s hdr x u) : DecodeCompletes s hdr x t := by
  obtain ⟨k, v, hrun, hv⟩ := h
  exact ⟨k + 1, v, by rw [runSteps, e]; exact hrun, hv⟩

/-! ### What a DECODE keeps -/

/-- In `t` a DECODE that started in `s` is running, the host silent, and the bytes decoded so far stand in OBUF. -/
structure DecodeRuns (s t : State) : Prop where
  params : t.params = s.params
  regs : t.regs = { s.regs with runState := .busy, err := 0 }
  ibuf : t.ibuf = s.ibuf
  silent : t.Silent
  decoded : t.Decoded

namespace DecodeRuns

variable {s t u : State} {k : ErrorKind}

/-- What the phases change beside OBUF and OPTR does not matter. -/
theorem congr (h : DecodeRuns s t) (hu : u = { t with
    phase := u.phase, arena := u.arena, reader := u.reader, decoder := { u.decoder with optr := t.decoder.optr }
    hdrBits := u.hdrBits, result := u.result, draws := u.draws }) : DecodeRuns s u := by
  rw [hu]
  exact ⟨h.params, h.regs, h.ibuf, h.silent, h.decoded⟩

theorem inLen (h : DecodeRuns s t) : t.regs.inLen = s.regs.inLen := by rw [h.regs]

theorem inputFits (h : DecodeRuns s t) (hin : s.regs.inLen.toNat ≤ s.params.ibufCap) :
    t.regs.inLen.toNat ≤ t.params.ibufCap := by rwa [h.inLen, h.params]

theorem emitted (h : DecodeRuns s t) (v : Byte) : DecodeRuns s (symbolEmitted v t) :=
  ⟨h.params, h.regs, h.ibuf, h.silent, decoded_symbolEmitted h.decoded v⟩

/-- A step that fails ends the DECODE with its error (60_exceptions.md R209). -/
theorem fails (h : DecodeRuns s t) (hdr : Nat) (e : step t = .next u) (hf : FailedWith k t u) :
    DecodeCompletes s hdr (.error k) t := by
  obtain ⟨hregs, hphase, hibuf, -⟩ := hf
  rw [h.inLen] at hregs
  refine .of_step e ⟨0, u, rfl, hphase, hibuf.trans h.ibuf, by rw [hregs], nofun, ?_⟩
  rintro _ ⟨⟩
  exact hregs

/-- A step that completes ends the DECODE with the bytes decoded (44_decode.md R192). -/
theorem completes (h : DecodeRuns s t) {t₀ : State} (e : step t₀ = .next (completeDecode t)) :
    DecodeCompletes s t.hdrBits (.ok (t.output t.decoder.optr)) t₀ := by
  refine .of_step e ⟨0, _, rfl, rfl, h.ibuf, h.inLen, ?_, nofun⟩
  rintro _ ⟨⟩
  have hlen : (t.output t.decoder.optr).length = t.decoder.optr := by simp [State.output]
  rw [hlen]
  exact ⟨output_completeDone h.decoded _ _, by simp [completeDecode, h.inLen]⟩

/-! ### The phases, the last one first -/

section Phases

variable (hin : s.regs.inLen.toNat ≤ s.params.ibufCap)
include hin

/-- D_PAYLOAD with `n` symbols to come: the bytes decoded so far, then those of the reference (44_decode.md R185 to
R192). -/
theorem payloadPhase {tr : ByteTree} (n : Nat) (h : DecodeRuns s t) (hp : t.phase = .dPayload)
    (htree : t.arena.tree t.arena.root = some tr) (hn : t.decoder.symrem = n) :
    DecodeCompletes s t.hdrBits ((decodeSymbols s.params.obufCap tr n t.decoder.optr t.bitsAhead).map
      (t.output t.decoder.optr ++ ·)) t := by
  induction n generalizing t with
  | zero =>
    have hend := h.completes (step_dPayload_end h.silent hp hn)
    rwa [← List.append_nil (t.output _)] at hend
  | succ n ih =>
    have hpos : 0 < t.decoder.symrem := by omega
    have hfit := h.inputFits hin
    cases hread : tr.readCode t.bitsAhead with
    | none =>
      obtain ⟨u, e, hf⟩ := step_dPayload_truncated h.silent hp hpos hfit htree hread
      rw [decodeSymbols_noCode hread]
      exact h.fails _ e hf
    | some p =>
      obtain ⟨v, rest⟩ := p
      rcases step_dPayload_symbol h.silent hp hpos hfit htree hread with
        ⟨hroom, r, c, e, ha⟩ | ⟨hfull, u, e, hf⟩
      · rw [h.params] at hroom
        have hout : (symbolEmitted v (walked r c v t)).output (t.decoder.optr + 1) = t.output t.decoder.optr ++ [v] :=
          output_symbolEmitted v (walked r c v t)
        rw [decodeSymbols_code hread hroom, map_append_map_cons, ← ha, ← hout]
        have hwalked : DecodeRuns s (walked r c v t) := h.congr rfl
        exact .of_step e (ih (hwalked.emitted v) hp htree (Nat.sub_eq_of_eq_add hn))
      · rw [h.params] at hfull
        rw [decodeSymbols_full hread hfull]
        exact h.fails _ e hf

/-- D_TREE of a tree section, no byte being decoded yet (44_decode.md R184). -/
theorem treePhase {tr : ByteTree} {payload : Bits} (h : DecodeRuns s t) (hp : t.phase = .dTree)
    (hcnt : t.arena.nodeCnt = 0) (ho : t.decoder.optr = 0) (ht : readTreeSection t.bitsAhead = some (tr, payload)) :
    DecodeCompletes s tr.ser.length (decodeSymbols s.params.obufCap tr t.decoder.symrem 0 payload) t := by
  obtain ⟨r, a, d, e, htree, ha, hh⟩ := step_dTree_reads h.silent hp (h.inputFits hin) hcnt ht
  have hruns : DecodeRuns s (treeLoaded r a d t) := h.congr rfl
  have hpayload := payloadPhase hin t.decoder.symrem hruns rfl htree rfl
  have hptr : (treeLoaded r a d t).decoder.optr = 0 := ho
  have hout : (treeLoaded r a d t).output 0 = [] := rfl
  rw [hh, ha, hptr, hout, map_nil_append] at hpayload
  exact .of_step e hpayload

/-- D_LEN at the first bit of the input (44_decode.md R182, R183). -/
theorem lenPhase (h : DecodeRuns s t) (hp : t.phase = .dLen) (hcnt : t.arena.nodeCnt = 0) (ho : t.decoder.optr = 0)
    (hh : t.hdrBits = 0) (ha : t.bitsAhead = unpack s.input) :
    DecodeCompletes s (sectionBits s.input) (decodeBytes s.params.obufCap s.input) t := by
  have hfit := h.inputFits hin
  by_cases hshort : (unpack s.input).length < 32
  · obtain ⟨u, e, hf⟩ := step_dLen_short h.silent hp hfit (ha ▸ hshort)
    rw [decodeBytes_short _ hshort]
    exact h.fails _ e hf
  obtain ⟨n, x, hbits⟩ := exists_eq_bitsOf_append (Nat.not_lt.mp hshort)
  obtain ⟨r, hx, e⟩ := step_dLen_read h.silent hp hfit (ha.trans hbits)
  rw [sectionBits_of_len hbits]
  by_cases hn : n = 0
  · have hruns : DecodeRuns s (lenLoaded r n t) := h.congr rfl
    have hptr : (lenLoaded r n t).decoder.optr = 0 := ho
    have hhdr : (lenLoaded r n t).hdrBits = 0 := hh
    rw [if_pos hn] at e ⊢
    rw [decodeBytes_empty _ hbits hn]
    have hend := hruns.completes e
    rwa [hptr, hhdr] at hend
  rw [if_neg hn] at e ⊢
  have hruns : DecodeRuns s (setPhase .dTree (lenLoaded r n t)) := h.congr rfl
  have hahead : (setPhase .dTree (lenLoaded r n t)).bitsAhead = x := hx
  refine .of_step e ?_
  cases ht : readTreeSection x with
  | none =>
    obtain ⟨u, eu, hf⟩ := step_dTree_rejects hruns.silent rfl (hruns.inputFits hin) hcnt (hahead ▸ ht)
    rw [decodeBytes_noTree _ hbits hn ht]
    exact hruns.fails _ eu hf
  | some p =>
    rw [decodeBytes_tree _ hbits hn ht]
    exact treePhase hin hruns rfl hcnt ho (hahead ▸ ht)

/-- D_CHECK of an input that fits IBUF (44_decode.md R180). -/
theorem checkPhase (h : DecodeRuns s t) (hp : t.phase = .dCheck) (hcnt : t.arena.nodeCnt = 0)
    (ho : t.decoder.optr = 0) (hh : t.hdrBits = 0) (ha : t.bitsAhead = unpack s.input) :
    DecodeCompletes s (sectionBits s.input) (decodeBytes s.params.obufCap s.input) t := by
  have hfit := h.inputFits hin
  have hstep := step_dCheck h.silent hp
  rw [phaseDCheck, if_neg (by omega)] at hstep
  exact .of_step hstep (lenPhase hin (h.congr rfl) rfl hcnt ho hh ha)

end Phases

/-- The start of a DECODE (44_decode.md R180). -/
theorem start (hs : s.Silent) : DecodeRuns s (enterPhase .dCheck (clearInternal s)) where
  params := rfl
  regs := rfl
  ibuf := rfl
  silent := hs
  decoded _ ha := absurd ha (Nat.not_lt_zero _)

end DecodeRuns

/-- Settles O47: the DECODE completes from D_CHECK, its reader at the first bit of the input; what STAT_HDR_BITS holds
is the length of the tree section the reference reads. -/
theorem decodeComputesDecode : Obligations.DecodeComputesDecode := by
  unfold Obligations.DecodeComputesDecode
  intro s _ hb hs hin
  have hstart : startCommand .dCheck s = enterPhase .dCheck (clearInternal s) :=
    if_neg (by rw [isBusy_eq_false hb]; decide)
  obtain ⟨k, t, hrun, hphase, hibuf, hlen, hdone, hfail⟩ :=
    DecodeRuns.checkPhase hin (DecodeRuns.start hs) rfl rfl rfl rfl rfl
  refine ⟨_, k, t, congrArg Host.Outcome.next hstart, hrun, hphase, hibuf, hlen, fun out hout => ?_, fun e he => ?_⟩
  · obtain ⟨houtput, hregs⟩ := hdone out hout
    obtain ⟨n, x, hbits, hn, -⟩ := decodeBytes_eq_ok hout
    have hn0 : n = 0 ↔ out = [] := by rw [← List.length_eq_zero_iff, ← hn, word_toNat_eq_zero_iff]
    have hhdr := sectionBits_of_len hbits
    rw [hregs]
    refine ⟨rfl, rfl, ?_, houtput, rfl, rfl, fun h0 => ?_, fun tr payload hne htree => ?_⟩
    · rw [← hn, BitVec.ofNat_toNat, BitVec.setWidth_eq]
    · simp only [hhdr, if_pos (hn0.mpr h0)]
      rfl
    · obtain ⟨-, hsize⟩ := readTreeSection_eq_some htree
      rw [hbits, List.drop_left' (length_bitsOf 32 _)] at htree
      rw [if_neg (mt hn0.mp hne), htree] at hhdr
      rw [hhdr]
      exact Nat.mod_eq_of_lt (ByteTree.length_ser_lt hsize)
  · rw [hfail e he]
    exact ⟨rfl, rfl, rfl⟩

/-- Settles O48: DECODE ends as the reference does, which decodes to `d` what it encodes `d` to. -/
theorem roundTrip : Obligations.RoundTrip := by
  unfold Obligations.RoundTrip
  intro s d hlegal hb hs hdin hdout hin _ hinput
  have ⟨_, hcap, _⟩ := hlegal
  have hfit : s.regs.inLen.toNat ≤ s.params.ibufCap := by rwa [← length_input, hinput]
  obtain ⟨s₀, k, t, hexec, hrun, -, -, -, hdone, -⟩ := decodeComputesDecode s hlegal hb hs hfit
  obtain ⟨hstate, -, hlen, hout, -⟩ := hdone d (by rw [hinput]; exact decodeBytes_encodeBytes (by omega) hdout)
  exact ⟨s₀, k, t, hexec, hrun, hstate, hlen, hout⟩

end Sys2Proof.Machine
end

section
/-! PROOFS. A run with a silent host: the engine's moves leave the script alone, ERR stays 0 while a command runs, and a
completed command rests, so that a run that ends has no error but the one it ends with. -/

namespace Sys2Proof.Machine

open OpResult

/-! ### The script of turns -/

theorem finish_script {α : Type} {x : OpResult α} {r : α → UopResult} {s t : State}
    (h : x.Ends fun u => u.script = s.script) (e : x.finish r = .next t) : t.script = s.script := by
  rcases finish_eq_next.mp e with ⟨a, u, rfl, rfl⟩ | ⟨k, u, rfl, rfl⟩ <;> exact h

theorem emitSymbol_script (v : Byte) (s : State) : (emitSymbol v s).Ends fun u => u.script = s.script := by
  unfold emitSymbol
  rcases writeObuf_cases s.decoder.optr v s with ⟨_, e⟩ | ⟨_, e⟩ <;> rw [e] <;> rfl

/-- The operations that the phases of the two commands run. -/
def Instr.inPhase : Instr → Bool
  | .len _ => true
  | .count => true
  | .build => true
  | .derive => true
  | .writeBits _ => true
  | .flush => true
  | .readBits _ => true
  | .writeTree _ => true
  | .readTree => true
  | .walk => true
  | _ => false

theorem exec_script {i : Instr} (hi : Instr.inPhase i = true) {s t : State} (e : exec i s = .next t) :
    t.script = s.script := by
  cases i with
  | len n => cases e; rfl
  | count => exact finish_script ((countBytes_frame s).mono fun _ h => by rw [h]) e
  | build => exact finish_script ((buildTree_frame s).mono fun _ h => by rw [h]) e
  | derive => exact finish_script ((deriveCodes_frame s).mono fun _ h => by rw [h]) e
  | writeBits bs => exact finish_script ((writeBits_frame bs s).mono fun _ h => by rw [h]) e
  | flush => exact finish_script ((flush_frame s).mono fun _ h => by rw [h]) e
  | readBits k => exact finish_script ((readBitsLoop_frame k 0 s).mono fun _ h => by rw [h]) e
  | writeTree j => exact finish_script ((writeTreeLevels_frame _ j s).mono fun _ h => by rw [h]) e
  | readTree => exact finish_script ((readTreeLevels_frame _ s).mono fun _ h => by rw [h.1]) e
  | walk => exact finish_script ((walk_frame s).mono fun _ h => by rw [h]) e
  | _ => cases hi

/-- A phase that runs one of these operations and goes on. -/
theorem andThen_script {i : Instr} (hi : Instr.inPhase i = true) {s t : State}
    {f : State → Host.Outcome State Fault Refusal} (hf : ∀ u, f u = .next t → t.script = u.script)
    (e : andThen (exec i s) f = .next t) : t.script = s.script := by
  obtain ⟨u, hu, ⟨-, rfl⟩ | ⟨-, ht⟩⟩ := andThen_next_cases e
  · exact exec_script hi hu
  · exact (hf u ht).trans (exec_script hi hu)

theorem thenPhase_script {i : Instr} (hi : Instr.inPhase i = true) {p : Phase} {s t : State}
    (e : thenPhase (exec i s) p = .next t) : t.script = s.script :=
  andThen_script hi (fun _ h => by cases h; rfl) e

theorem phaseECheck_script {s t : State} (e : phaseECheck s = .next t) : t.script = s.script := by
  unfold phaseECheck at e
  split at e
  · cases e; rfl
  · split at e <;> cases e <;> rfl

theorem phaseEPayload_script {s t : State} (e : phaseEPayload s = .next t) : t.script = s.script := by
  unfold phaseEPayload at e
  split at e
  · rcases readIbuf_cases s.eidx s with ⟨_, er⟩ | ⟨_, er⟩ <;> rw [er] at e
    · simp only at e
      split at e
      · cases e; rfl
      · exact andThen_script rfl (fun _ h => by cases h; rfl) e
    · cases e
  · cases e; rfl

theorem phaseDCheck_script {s t : State} (e : phaseDCheck s = .next t) : t.script = s.script := by
  unfold phaseDCheck at e
  split at e <;> cases e <;> rfl

theorem phaseDLen_script {s t : State} (e : phaseDLen s = .next t) : t.script = s.script := by
  refine andThen_script rfl (fun u hu => ?_) e
  split at hu
  · refine andThen_script rfl (fun v hv => ?_) hu
    split at hv <;> cases hv <;> rfl
  · cases hu; rfl

theorem phaseDTree_script {s t : State} (e : phaseDTree s = .next t) : t.script = s.script := by
  refine andThen_script rfl (fun u hu => ?_) e
  split at hu <;> cases hu <;> rfl

theorem phaseDPayload_script {s t : State} (e : phaseDPayload s = .next t) : t.script = s.script := by
  unfold phaseDPayload at e
  split at e
  · refine andThen_script rfl (fun u hu => ?_) e
    split at hu
    next v _ => exact finish_script (emitSymbol_script v u) hu
    next => cases hu; rfl
  · cases e; rfl

/-- The turns to come are the host's: no move of the engine changes them (00_scope.md R13). -/
theorem engineTurn_script {s t : State} (e : engineTurn s = .next t) : t.script = s.script := by
  unfold engineTurn at e
  cases hp : s.phase <;> simp only [hp] at e
  case none => cases e; rfl
  case eCheck => exact phaseECheck_script e
  case eCount => exact thenPhase_script rfl e
  case eBuild => exact thenPhase_script rfl e
  case eDerive => exact thenPhase_script rfl e
  case eLen => exact thenPhase_script rfl e
  case eTree => exact andThen_script rfl (fun _ h => by cases h; rfl) e
  case ePayload => exact phaseEPayload_script e
  case eFlush => exact andThen_script rfl (fun _ h => by cases h; rfl) e
  case dCheck => exact phaseDCheck_script e
  case dLen => exact phaseDLen_script e
  case dTree => exact phaseDTree_script e
  case dPayload => exact phaseDPayload_script e
  case xIllegal => cases e; rfl

/-! ### What a silent run keeps -/

/-- With a silent host: ERR is 0 while a command runs, and a failure has cleared the result registers (10_state.md R24,
60_exceptions.md R209). -/
structure SilentRun (s : State) : Prop where
  silent : s.Silent
  running : s.phase ≠ .none → s.regs.err = 0
  failed : s.regs.runState = .error →
    s.regs.outLen = 0 ∧ s.regs.statOrig = 0 ∧ s.regs.statComp = 0 ∧ s.regs.statHdrBits = 0

/-- A command that has just started. -/
theorem SilentRun.enterPhase {s : State} (hs : s.Silent) (p : Phase) : SilentRun (enterPhase p s) :=
  ⟨hs, fun _ => rfl, nofun⟩

theorem SilentRun.step {s t : State} (h : SilentRun s) (e : step s = .next t) : SilentRun t := by
  rw [step_silent h.silent] at e
  have hs : t.Silent := (engineTurn_script e).trans h.silent
  cases engineTurn_effect e with
  | rests _ => exact h
  | stays hp hw => exact ⟨hs, fun _ => hw.frame.regs ▸ h.running hp, hw.frame.regs ▸ h.failed⟩
  | moves p hp hw _ _ => exact ⟨hs, fun _ => hw.frame.regs ▸ h.running hp, hw.frame.regs ▸ h.failed⟩
  | completes n o c _ _ _ => exact ⟨hs, fun _ => rfl, nofun⟩
  | fails k _ _ _ => exact ⟨hs, absurd rfl, fun _ => ⟨rfl, rfl, rfl, rfl⟩⟩

/-! ### Where a silent run ends -/

theorem runSteps_succ {k : Nat} {s t : State} (e : step s = .next t) : runSteps (k + 1) s = runSteps k t := by
  rw [runSteps, e]

/-- With no command running the engine rests (20_memory.md R71). -/
theorem step_rests {s : State} (hs : s.Silent) (hp : s.phase = .none) : step s = .next s := by
  rw [step_silent hs, engineTurn, hp]

theorem runSteps_rests {s : State} (hs : s.Silent) (hp : s.phase = .none) (k : Nat) : runSteps k s = .next s := by
  induction k with
  | zero => rfl
  | succ k ih => rw [runSteps_succ (step_rests hs hp), ih]

/-- A state of a run that ends in `u` is `u` itself, or one in which the command still runs. -/
theorem SilentRun.err_eq {n k : Nat} {s t u : State} (h : SilentRun s) (hend : runSteps n s = .next u)
    (hu : u.phase = .none) (e : runSteps k s = .next t) : t.regs.err = 0 ∨ t = u := by
  induction k generalizing n s with
  | zero =>
    cases e
    by_cases hp : t.phase = .none
    · exact .inr (Host.Outcome.next.inj ((runSteps_rests h.silent hp n).symm.trans hend))
    · exact .inl (h.running hp)
  | succ k ih =>
    cases n with
    | zero =>
      cases hend
      exact .inr (Host.Outcome.next.inj (e.symm.trans (runSteps_rests h.silent hu _)))
    | succ n =>
      cases hs : Machine.step s with
      | next v =>
        rw [runSteps_succ hs] at hend e
        exact ih (h.step hs) hend e
      | fault f => rw [runSteps, hs] at e; cases e
      | refused r => rw [runSteps, hs] at e; cases e

end Sys2Proof.Machine
end

section
/-! PROOFS. What the two commands end with, as a function of IN_LEN, the input and the capacities: completion with an
error (O15, O4), the errors each command can end with (O49), and that nothing else matters (O50). -/

namespace Sys2Proof.Machine.Reference

/-! ### The errors of the decoder -/

theorem error_of_decodeSymbols {cap n k : Nat} {t : ByteTree} {bs : Bits} {e : ErrorKind}
    (h : decodeSymbols cap t n k bs = .error e) : e = .truncatedPayload ∨ e = .outputOverflow := by
  induction n generalizing k bs with
  | zero => cases h
  | succ n ih =>
    cases hread : t.readCode bs with
    | none =>
      rw [decodeSymbols_noCode hread] at h
      cases h
      exact .inl rfl
    | some p =>
      rcases Nat.lt_or_ge k cap with hk | hk
      · rw [decodeSymbols_code hread hk] at h
        cases hsyms : decodeSymbols cap t n (k + 1) p.2 with
        | error e' =>
          rw [hsyms] at h
          cases h
          exact ih hsyms
        | ok syms => rw [hsyms] at h; cases h
      · rw [decodeSymbols_full hread hk] at h
        cases h
        exact .inr rfl

/-- A stream that does not decode is CORRUPT_HEADER before the payload, and in it TRUNCATED_PAYLOAD or OUTPUT_OVERFLOW
(44_decode.md R194). -/
theorem error_of_decodeBytes {cap : Nat} {stream : List Byte} {e : ErrorKind} (h : decodeBytes cap stream = .error e) :
    e = .corruptHeader ∨ e = .truncatedPayload ∨ e = .outputOverflow := by
  by_cases hshort : (unpack stream).length < 32
  · rw [decodeBytes_short cap hshort] at h
    cases h
    exact .inl rfl
  obtain ⟨n, x, hbits⟩ := exists_eq_bitsOf_append (Nat.not_lt.mp hshort)
  by_cases hn : n = 0
  · rw [decodeBytes_empty cap hbits hn] at h
    cases h
  cases ht : readTreeSection x with
  | none =>
    rw [decodeBytes_noTree cap hbits hn ht] at h
    cases h
    exact .inl rfl
  | some p =>
    rw [decodeBytes_tree cap hbits hn ht] at h
    exact .inr (error_of_decodeSymbols h)

/-! ### The greatest size of a stream -/

theorem length_of_pathTo {t : ByteTree} {v : Byte} {p : Bits} (h : pathTo v t = some p) : p.length < t.leaves := by
  induction t generalizing p with
  | leaf w =>
    rw [pathTo] at h
    split at h <;> cases h
    exact Nat.one_pos
  | node l r ihl ihr =>
    have := l.leaves_pos
    have := r.leaves_pos
    rw [pathTo] at h
    rw [ByteTree.leaves]
    cases hl : pathTo v l with
    | some q =>
      rw [hl] at h
      cases h
      have := ihl hl
      rw [List.length_cons]
      omega
    | none =>
      rw [hl] at h
      obtain ⟨q, hr, rfl⟩ := Option.map_eq_some_iff.mp h
      have := ihr hr
      rw [List.length_cons]
      omega

/-- No code is longer than the tree has leaves but one, or than the one bit of a tree that is a single leaf
(00_scope.md R5). -/
theorem length_codeOf_le {t : ByteTree} (h : t.leaves ≤ 256) (v : Byte) : ((codeOf t v).getD []).length ≤ 255 := by
  cases t with
  | leaf w =>
    rw [codeOf]
    split <;> decide
  | node l r =>
    cases hc : pathTo v (.node l r) with
    | none => simp [codeOf, hc]
    | some p =>
      have := length_of_pathTo hc
      simp only [codeOf, hc, Option.getD_some]
      omega

/-- No stream is longer than LEN, a tree section of 256 leaves and codes of 255 bits make it (43_encode.md R175). -/
theorem length_encodeBytes_le (d : List Byte) : (encodeBytes d).length ≤ 4 + (2559 + 255 * d.length + 7) / 8 := by
  by_cases hd : d = []
  · subst hd
    decide
  obtain ⟨t, ht, hleaves⟩ := huffmanTree_leaves hd
  have hpresent : (present d).length ≤ 256 := (List.length_filter_le _ _).trans_eq (by simp)
  have hcodes : (d.map fun v => ((codeOf t v).getD []).length).sum ≤ d.length * 255 := by
    refine (List.sum_le_card_nsmul _ 255 fun n hn => ?_).trans_eq (by simp)
    obtain ⟨v, -, rfl⟩ := List.mem_map.mp hn
    exact length_codeOf_le (by omega) v
  rw [length_encodeBytes, encodeBits_of_tree ht]
  simp only [List.length_append, length_bitsOf, t.length_ser, List.length_flatMap]
  omega

end Sys2Proof.Machine.Reference

namespace Sys2Proof.Machine

open Reference

/-! ### Completion with an error -/

/-- Settles O15: the completion fails its own state, and no error has the code 0. -/
theorem errorCompletion : Obligations.ErrorCompletion := by
  unfold Obligations.ErrorCompletion
  exact fun k s => ⟨failedWith_self k s, errCode_ne_zero k⟩

theorem startCommand_of_not_busy {s : State} (hb : s.regs.runState ≠ .busy) (p : Phase) :
    startCommand p s = enterPhase p (clearInternal s) :=
  if_neg (by rw [isBusy_eq_false hb]; decide)

theorem exec_command {i : Instr} (hi : i = .encode ∨ i = .decode) (s : State) :
    ∃ p, (p = .eCheck ∨ p = .dCheck) ∧ exec i s = .next (startCommand p s) := by
  rcases hi with rfl | rfl
  · exact ⟨.eCheck, .inl rfl, rfl⟩
  · exact ⟨.dCheck, .inr rfl, rfl⟩

/-- E_CHECK and D_CHECK of an input longer than IBUF (60_exceptions.md R207). -/
theorem step_badLength {s : State} (hs : s.Silent) (hp : s.phase = .eCheck ∨ s.phase = .dCheck)
    (hlen : s.params.ibufCap < s.regs.inLen.toNat) : step s = .next (completeWithError .badLength s) := by
  rcases hp with hp | hp
  · rw [step_eCheck hs hp, phaseECheck, if_pos hlen]
  · rw [step_dCheck hs hp, phaseDCheck, if_pos hlen]

/-- Settles O4: both commands enter their length check, which fails. -/
theorem badLengthFirst : Obligations.BadLengthFirst := by
  unfold Obligations.BadLengthFirst
  intro s hb hs hlen i hi
  obtain ⟨p, hp, start⟩ := exec_command hi s
  rw [startCommand_of_not_busy hb] at start
  exact ⟨_, _, start, step_badLength hs hp hlen, failedWith_completeWithError rfl rfl rfl rfl rfl rfl, rfl⟩

/-! ### The result of a command -/

/-- What a command ends with: the host's registers and the result bytes. -/
structure CommandResult where
  regs : Regs
  bytes : List Byte

/-- The result of a command that fails with `k` (60_exceptions.md R209). -/
def failedResult (inLen : Word) (k : ErrorKind) : CommandResult where
  regs :=
    { runState := .error, err := k.errCode, inLen := inLen, outLen := 0, statOrig := 0, statComp := 0
      statHdrBits := 0 }
  bytes := []

/-- The result of a command that completes without an error (43_encode.md R171, 44_decode.md R192). -/
def doneResult (inLen orig comp : Word) (hdr : Nat) (out : List Byte) : CommandResult where
  regs :=
    { runState := .done, err := 0, inLen := inLen, outLen := BitVec.ofNat 32 out.length, statOrig := orig
      statComp := comp, statHdrBits := BitVec.ofNat 32 hdr }
  bytes := out

/-- The result of ENCODE (43_encode.md R162, R173). -/
def encodeResult (ibufCap obufCap : Nat) (inLen : Word) (d : List Byte) : CommandResult :=
  if ibufCap < inLen.toNat then failedResult inLen .badLength
  else if obufCap < (encodeBytes d).length then failedResult inLen .outputOverflow
  else doneResult inLen inLen (BitVec.ofNat 32 (encodeBytes d).length) (treeSectionBits d) (encodeBytes d)

/-- The result of DECODE (44_decode.md R180, R194). -/
def decodeResult (ibufCap obufCap : Nat) (inLen : Word) (stream : List Byte) : CommandResult :=
  if ibufCap < inLen.toNat then failedResult inLen .badLength
  else
    match decodeBytes obufCap stream with
    | .error k => failedResult inLen k
    | .ok out => doneResult inLen (BitVec.ofNat 32 out.length) inLen (sectionBits stream) out

theorem encodeResult_err (ibufCap obufCap : Nat) (inLen : Word) (d : List Byte) :
    (encodeResult ibufCap obufCap inLen d).regs.err ∈ [0#4, 5#4, 7#4] := by
  unfold encodeResult
  split
  · simp [failedResult, ErrorKind.errCode]
  · split <;> simp [failedResult, doneResult, ErrorKind.errCode]

theorem encodeResult_err_of_fits {ibufCap obufCap : Nat} {inLen : Word} {d : List Byte} (hin : inLen.toNat ≤ ibufCap)
    (hout : (encodeBytes d).length ≤ obufCap) : (encodeResult ibufCap obufCap inLen d).regs.err = 0 := by
  rw [encodeResult, if_neg (Nat.not_lt.mpr hin), if_neg (Nat.not_lt.mpr hout), doneResult]

theorem decodeResult_err (ibufCap obufCap : Nat) (inLen : Word) (stream : List Byte) :
    (decodeResult ibufCap obufCap inLen stream).regs.err ∈ [0#4, 2#4, 4#4, 5#4, 7#4] := by
  unfold decodeResult
  split
  · simp [failedResult, ErrorKind.errCode]
  · split
    next k hk => rcases error_of_decodeBytes hk with rfl | rfl | rfl <;> simp [failedResult, ErrorKind.errCode]
    next => simp [doneResult]

/-! ### Where the commands end -/

/-- In `t` a command has completed with the result `r`. -/
structure Returned (r : CommandResult) (t : State) : Prop where
  phase : t.phase = .none
  regs : t.regs = r.regs
  output : t.output t.regs.outLen.toNat = r.bytes

/-- The command running in `s` completes with the result `r`. -/
def Completes (r : CommandResult) (s : State) : Prop := ∃ k t, runSteps k s = .next t ∧ Returned r t

/-- A command whose next step fails. -/
theorem completes_failed {s : State} {k : ErrorKind} (e : step s = .next (completeWithError k s)) :
    Completes (failedResult s.regs.inLen k) s :=
  ⟨1, _, runSteps_succ e, rfl, rfl, rfl⟩

theorem word_eq_of_toNat {w : Word} {n : Nat} (h : w.toNat = n) : w = BitVec.ofNat 32 n := by
  rw [← h, BitVec.ofNat_toNat, BitVec.setWidth_eq]

/-- An ENCODE of an input that fits IBUF ends with its result; on an overflow the registers are those of a failure. -/
theorem EncodeEnds.returned {s t : State} (h : EncodeEnds s t) (ht : SilentRun t)
    (hin : s.regs.inLen.toNat ≤ s.params.ibufCap) :
    Returned (encodeResult s.params.ibufCap s.params.obufCap s.regs.inLen s.input) t := by
  obtain ⟨hphase, -, hlen, hdone, hover⟩ := h
  have hregs : t.regs = ⟨t.regs.runState, t.regs.err, t.regs.inLen, t.regs.outLen, t.regs.statOrig, t.regs.statComp,
    t.regs.statHdrBits⟩ := rfl
  rw [encodeResult, if_neg (Nat.not_lt.mpr hin)]
  split
  next hfull =>
    obtain ⟨hstate, herr, -⟩ := hover hfull
    obtain ⟨hout, horig, hcomp, hhdr⟩ := ht.failed hstate
    rw [hstate, herr, hlen, hout, horig, hcomp, hhdr] at hregs
    exact ⟨hphase, hregs, by rw [hout]; rfl⟩
  next hfits =>
    obtain ⟨hstate, herr, hout, hbytes, horig, hcomp, hhdr⟩ := hdone (Nat.not_lt.mp hfits)
    rw [hstate, herr, hlen, horig, hcomp, word_eq_of_toNat hout, word_eq_of_toNat hhdr] at hregs
    exact ⟨hphase, hregs, by rw [hout]; exact hbytes⟩

/-- A DECODE of a stream that fits IBUF ends with its result. -/
theorem DecodeEnds.returned {s t : State}
    (h : DecodeEnds s (sectionBits s.input) (decodeBytes s.params.obufCap s.input) t)
    (hin : s.regs.inLen.toNat ≤ s.params.ibufCap) :
    Returned (decodeResult s.params.ibufCap s.params.obufCap s.regs.inLen s.input) t := by
  obtain ⟨hphase, -, -, hdone, hfail⟩ := h
  rw [decodeResult, if_neg (Nat.not_lt.mpr hin)]
  split
  next k hk => exact ⟨hphase, hfail k hk, by rw [hfail k hk]; rfl⟩
  next out hok =>
    obtain ⟨hbytes, hregs⟩ := hdone out hok
    obtain ⟨n, -, -, hn, -⟩ := decodeBytes_eq_ok hok
    refine ⟨hphase, hregs, ?_⟩
    rw [hregs, ← word_eq_of_toNat hn, hn]
    exact hbytes

section Commands

variable {s : State} (hb : s.regs.runState ≠ .busy) (hs : s.Silent)
include hb hs

theorem silentRun_startCommand (p : Phase) : SilentRun (startCommand p s) := by
  rw [startCommand_of_not_busy hb]
  exact .enterPhase (s := clearInternal s) hs p

/-- ENCODE, whatever the state it starts in, ends with its result. -/
theorem encode_completes (hcap : s.params.obufCap < 2 ^ 32) :
    Completes (encodeResult s.params.ibufCap s.params.obufCap s.regs.inLen s.input) (startCommand .eCheck s) := by
  have hrun := silentRun_startCommand hb hs .eCheck
  rw [startCommand_of_not_busy hb] at hrun ⊢
  rcases Nat.lt_or_ge s.params.ibufCap s.regs.inLen.toNat with hlen | hin
  · rw [encodeResult, if_pos hlen]
    exact completes_failed (step_badLength hs (.inl rfl) hlen)
  · obtain ⟨k, t, e, ht⟩ := EncodeWrote.checkPhase hcap hin (EncodeWrote.start hs) rfl rfl rfl
      (fun v => by simp [State.freqAt]) rfl
    exact ⟨k, t, e, ht.returned (runSteps_keeps (fun _ _ => SilentRun.step) hrun e) hin⟩

/-- DECODE, whatever the state it starts in, ends with its result. -/
theorem decode_completes :
    Completes (decodeResult s.params.ibufCap s.params.obufCap s.regs.inLen s.input) (startCommand .dCheck s) := by
  rw [startCommand_of_not_busy hb]
  rcases Nat.lt_or_ge s.params.ibufCap s.regs.inLen.toNat with hlen | hin
  · rw [decodeResult, if_pos hlen]
    exact completes_failed (step_badLength hs (.inr rfl) hlen)
  · obtain ⟨k, t, e, ht⟩ := DecodeRuns.checkPhase hin (DecodeRuns.start hs) rfl rfl rfl rfl rfl
    exact ⟨k, t, e, ht.returned hin⟩

end Commands

/-! ### The errors each command can end with -/

/-- Along its run a command has no error but the one it ends with. -/
theorem SilentRun.err_mem {s t : State} {r : CommandResult} {errs : List (BitVec 4)} {k : Nat} (h : SilentRun s)
    (hr : Completes r s) (hzero : 0 ∈ errs) (hend : r.regs.err ∈ errs) (e : runSteps k s = .next t) :
    t.regs.err ∈ errs := by
  obtain ⟨n, u, hu, hret⟩ := hr
  rcases h.err_eq hu hret.phase e with h0 | rfl
  · exact h0 ▸ hzero
  · exact hret.regs ▸ hend

/-- Settles O49: each command completes with its result, whose error is one of those listed. -/
theorem commandErrors : Obligations.CommandErrors := by
  unfold Obligations.CommandErrors
  intro s hlegal hb hs
  obtain ⟨-, -, -, hcap⟩ := hlegal
  have encode := encode_completes hb hs (by omega)
  have starts := silentRun_startCommand hb hs
  refine ⟨fun s₀ k t e hrun => ?_, fun s₀ k t e hrun => ?_, fun k t hrun => ?_, fun hin hout s₀ k t e hrun => ?_⟩
  · cases e
    exact (starts .eCheck).err_mem encode (by decide) (encodeResult_err ..) hrun
  · cases e
    exact (starts .dCheck).err_mem (decode_completes hb hs) (by decide) (decodeResult_err ..) hrun
  · have hstart : startIllegal s = enterPhase .xIllegal s := if_neg (by rw [isBusy_eq_false hb]; decide)
    rw [hstart] at hrun
    have complete : step (enterPhase .xIllegal s) = .next (completeWithError .illegalCmd (enterPhase .xIllegal s)) :=
      step_silent hs
    exact (SilentRun.enterPhase hs _).err_mem (completes_failed complete) (by decide)
      (by simp [failedResult, ErrorKind.errCode]) hrun
  · cases e
    have hfits : (encodeBytes s.input).length ≤ s.params.obufCap :=
      (length_encodeBytes_le s.input).trans (by rwa [length_input])
    exact List.mem_singleton.mp ((starts .eCheck).err_mem encode (List.mem_singleton.mpr rfl)
      (List.mem_singleton.mpr (encodeResult_err_of_fits hin hfits)) hrun)

/-! ### The result depends on the input only -/

/-- Two states in which the same result is returned show the host the same. -/
theorem Returned.same {r : CommandResult} {t t' : State} (h : Returned r t) (h' : Returned r t') :
    t'.regs = t.regs ∧ t'.output t.regs.outLen.toNat = t.output t.regs.outLen.toNat := by
  have hregs : t'.regs = t.regs := h'.regs.trans h.regs.symm
  have houtput := h'.output.trans h.output.symm
  rw [hregs] at houtput
  exact ⟨hregs, houtput⟩

theorem input_congr {s s' : State} (hlen : s'.regs.inLen = s.regs.inLen)
    (h : ∀ a, a < s.regs.inLen.toNat → s'.ibufByte a = s.ibufByte a) : s'.input = s.input := by
  rw [State.input, hlen]
  exact List.map_congr_left fun a ha => h a (List.mem_range.mp ha)

/-- Each command completes with a result that is a function of the capacities, IN_LEN and the input (60_exceptions.md
R210). -/
theorem command_completes {i : Instr} (hi : i = .encode ∨ i = .decode) :
    ∃ f : Nat → Nat → Word → List Byte → CommandResult, ∀ s : State, s.params.obufCap < 2 ^ 32 →
      s.regs.runState ≠ .busy → s.Silent →
        ∃ s₀, exec i s = .next s₀ ∧ Completes (f s.params.ibufCap s.params.obufCap s.regs.inLen s.input) s₀ := by
  rcases hi with rfl | rfl
  · exact ⟨encodeResult, fun s hcap hb hs => ⟨_, rfl, encode_completes hb hs hcap⟩⟩
  · exact ⟨decodeResult, fun s _ hb hs => ⟨_, rfl, decode_completes hb hs⟩⟩

/-- Settles O50: the result of each command is a function of IN_LEN, the input and the two capacities. -/
theorem resultDependsOnInputOnly : Obligations.ResultDependsOnInputOnly := by
  unfold Obligations.ResultDependsOnInputOnly
  intro s s' hlegal hi ho hb hb' hs hs' hlen hbytes i hcmd
  obtain ⟨-, -, -, hcap⟩ := hlegal
  obtain ⟨f, completes⟩ := command_completes hcmd
  obtain ⟨s₀, start, k, t, run, ht⟩ := completes s (by omega) hb hs
  obtain ⟨s₀', start', k', t', run', ht'⟩ := completes s' (by omega) hb' hs'
  rw [hi, ho, hlen, input_congr hlen hbytes] at ht'
  exact ⟨s₀, s₀', k, k', t, t', start, start', run, run', ht.phase, ht'.phase, ht.same ht'⟩

end Sys2Proof.Machine
end

section
/-! PROOFS. RESET (O12), the host's accesses while BUSY (O9) and the engine at rest (O60). -/

namespace Sys2Proof.Machine

/-! ### RESET -/

section Reset

variable {s : State} {a : Nat}

theorem resetAction_obufByte_of_not_busy (hb : s.regs.runState ≠ .busy) :
    (resetAction s).obufByte a = s.obufByte a := by
  simp [State.obufByte, resetAction, isBusy_eq_false hb]

theorem resetAction_epoch_of_busy (hb : s.regs.runState = .busy) : (resetAction s).epoch = s.epoch + 1 :=
  if_pos (isBusy_eq_true hb)

/-- A RESET that interrupts a command leaves no byte of OBUF known (70_reset_and_hazards.md R231). -/
theorem resetAction_obufByte_of_busy (hb : s.regs.runState = .busy) :
    (resetAction s).obufByte a = Config.freeObufByte (s.epoch + 1) a := by
  simp [State.obufByte, resetAction, isBusy_eq_true hb]

end Reset

/-- Settles O12: a RESET changes the registers and PHASE in every state, and of the buffers OBUF only, while BUSY. -/
theorem resetAction_spec : Obligations.ResetAction := by
  unfold Obligations.ResetAction
  intro s
  exact ⟨resetAction s, rfl, rfl, rfl, fun _ => rfl, fun hb _ => resetAction_obufByte_of_not_busy hb,
    fun hb => ⟨resetAction_epoch_of_busy hb, fun _ => resetAction_obufByte_of_busy hb⟩, rfl, rfl, rfl, rfl⟩

/-! ### The host's accesses while BUSY -/

section WhileBusy

variable {s : State} {a num : Nat} {v : Byte} {w : Word}

theorem status_of_busy (hb : s.regs.runState = .busy) (herr : s.regs.err = 0) : s.regs.status = 1 := by
  rw [Regs.status, hb, herr]
  rfl

/-- While BUSY a write of any register is ignored: of CTRL, of IN_LEN, and of the rest as always
(70_reset_and_hazards.md R234). -/
theorem hostWriteReg_of_busy (hb : s.regs.runState = .busy) : hostWriteReg num 32 w s = .next s := by
  by_cases h0 : num = 0
  · subst h0
    exact writeCtrl_of_busy hb w
  by_cases h2 : num = 2
  · subst h2
    exact congrArg Host.Outcome.next (if_pos (isBusy_eq_true hb))
  exact hostWriteReg_ignored h0 h2

theorem hostReadReg_of_busy (hb : s.regs.runState = .busy) (h2 : 2 ≤ num) (h6 : num ≤ 6) :
    hostReadReg num 32 s = .next (logRead (.reg num (drawWord s).1) (drawWord s).2) := by
  simp [hostReadReg, unspecifiedWhileBusy, isBusy_eq_true hb, h2, h6]

theorem hostReadIbuf_of_busy (hb : s.regs.runState = .busy) (ha : a < s.params.ibufCap) :
    hostReadIbuf a s = .next (logRead (.ibuf a ((drawWord s).1.setWidth 8)) (drawWord s).2) := by
  simp [hostReadIbuf, isBusy_eq_true hb, ha]

theorem hostReadObuf_of_busy (hb : s.regs.runState = .busy) (ha : a < s.params.obufCap) :
    hostReadObuf a s = .next (logRead (.obuf a ((drawWord s).1.setWidth 8)) (drawWord s).2) := by
  simp [hostReadObuf, isBusy_eq_true hb, ha]

theorem hostWriteIbuf_of_busy (hb : s.regs.runState = .busy) (ha : a < s.params.ibufCap) :
    hostWriteIbuf a v s = .refused .bufferWriteWhileBusy := by
  simp [hostWriteIbuf, isBusy_eq_true hb, ha]

theorem hostWriteObuf_of_busy (hb : s.regs.runState = .busy) (ha : a < s.params.obufCap) :
    hostWriteObuf a v s = .refused .bufferWriteWhileBusy := by
  simp [hostWriteObuf, isBusy_eq_true hb, ha]

end WhileBusy

/-- Settles O9, by the rule of each access while BUSY; STATUS and CTRL are read as in any state. -/
theorem handsOffWhileBusy : Obligations.HandsOffWhileBusy := by
  unfold Obligations.HandsOffWhileBusy
  intro s hb
  refine ⟨fun herr => ?_, hostReadReg_plain (num := 0) (.inr rfl), fun _ _ => hostWriteReg_of_busy hb,
    fun _ => hostReadReg_of_busy hb, fun _ => hostReadIbuf_of_busy hb, fun _ => hostReadObuf_of_busy hb,
    fun _ _ => hostWriteIbuf_of_busy hb, fun _ _ => hostWriteObuf_of_busy hb⟩
  have hread : hostReadReg 1 32 s = .next (logRead (.reg 1 s.regs.status) s) := hostReadReg_plain (.inr rfl)
  rw [status_of_busy hb herr] at hread
  exact hread

/-! ### The engine at rest -/

/-- Settles O60: a silent step is a move of the engine, which rests where no command runs. -/
theorem idleEngineRests : Obligations.IdleEngineRests := by
  unfold Obligations.IdleEngineRests
  exact fun _ hp hs => step_rests hs hp

end Sys2Proof.Machine
end
